-- ==== Sys2Proof/Word.lean ====
section
/-! DEFINITION. The fixed-width fields of the command set (spec/30_encoding.md R102, 00_scope.md R11). -/

namespace Sys2Proof

/-- `u8`, and the carrier of `flag` and `bankid` (R102). -/
abbrev Byte := BitVec 8
/-- `u16` (R102). -/
abbrev U16 := BitVec 16
/-- `u32` (R102). -/
abbrev U32 := BitVec 32
/-- `u64` (R102). -/
abbrev U64 := BitVec 64
/-- `s16`, two's complement; read it with `BitVec.toInt` (R102, R105). -/
abbrev S16 := BitVec 16
/-- `s64`, two's complement; read it with `BitVec.toInt` (R102, R105). -/
abbrev S64 := BitVec 64

end Sys2Proof
end

