-- ==== Sys2Proof/Config.lean ====
section
/-! DEFINITION. What an implementation fixes (spec/00_scope.md R8, R9), the constants the document fixes
(R10), the message type of a protocol decoder (44_capture.md R198), and the free values: uninterpreted
constants for what the spec leaves open. -/

namespace Sys2Proof

/-- The order of the FNV fold step, `P_HASH_FOLD` (00_scope.md R8, 46_decoder.md R255). -/
inductive HashFold where
  | xorThenMul
  | mulThenXor
deriving DecidableEq, Repr

/-- The parameters of 00_scope.md R8. They are carried in `State` and no step changes them, so that every
statement holds of every parameter set (log 1). `decoders` is `P_PROTOCOL_DECODERS`: the numbers of the
protocol decoders in priority order, each standing for the function `Config.protocolDecoder` gives it
(log 11). -/
structure Params where
  /-- `P_TICK_US`: microseconds per raw tick. -/
  tickUs : Nat
  /-- `P_RAWBUF_SIZE`: capacity of each capture bank, in entries. -/
  rawBufSize : Nat
  /-- `P_ENTRY_BITS`: width of one raw entry. -/
  entryBits : Nat
  /-- `P_TIMEOUT_US`: the idle timeout, in microseconds. -/
  timeoutUs : Nat
  /-- `P_CLOCK_BITS`: width of the microsecond clock. -/
  clockBits : Nat
  /-- `P_DEFAULT_TOLERANCE`, a `u8`: the assembler's default `tol` (R226). -/
  defaultTolerance : Byte
  /-- `P_DEFAULT_EXCESS`, an `s16`: the assembler's default `excess` (R226). -/
  defaultExcess : S16
  /-- `P_OVERFLOW_ON_FILL`: when overflow is flagged (44_capture.md R185). -/
  overflowOnFill : Bool
  /-- `P_HASH_FOLD` (46_decoder.md R255). -/
  hashFold : HashFold
  /-- `P_NUM_IRTIMERS`: the number of stopwatches. -/
  numTimers : Nat
  /-- `P_PROTOCOL_DECODERS`, by number (44_capture.md R196). -/
  decoders : List Nat
deriving DecidableEq, Repr

/-- The "suggested" column of 00_scope.md R8, which R304 takes for programs (log 1). -/
def Params.suggested : Params where
  tickUs := 2
  rawBufSize := 100
  entryBits := 16
  timeoutUs := 15000
  clockBits := 32
  defaultTolerance := 25
  defaultExcess := 50
  overflowOnFill := true
  hashFold := .xorThenMul
  numTimers := 1
  decoders := []

/-- The domains of R8 and the constraints (a) and (b) of R9. -/
structure Params.Valid (p : Params) : Prop where
  tick_pos : 1 ≤ p.tickUs
  size_pos : 1 ≤ p.rawBufSize
  size_le : p.rawBufSize ≤ 65535
  entry_pos : 1 ≤ p.entryBits
  entry_le : p.entryBits ≤ 32
  timeout_pos : 1 ≤ p.timeoutUs
  clock_pos : 1 ≤ p.clockBits
  clock_le : p.clockBits ≤ 64
  timers_pos : 1 ≤ p.numTimers
  timers_le : p.numTimers ≤ 256
  clock_gt_timeout : p.timeoutUs < 2 ^ p.clockBits

/-! ## Constants the document fixes (R10) -/

/-- "Always succeeds if at least 6 buffer entries exist" (R10, 46_decoder.md R254). -/
def Config.hashMinLength : Nat := 6
/-- The FNV prime (R10). -/
def Config.fnvPrime : U32 := 16777619
/-- The FNV basis (R10). -/
def Config.fnvBasis : U32 := 2166136261
/-- The first-edge sentinel (R10, 44_capture.md R184). -/
def Config.sentinel : Nat := 1
/-- The kHz/Hz switch point (R10, 42_carrier_driver.md R140). -/
def Config.khzSwitch : Nat := 1000

/-! ## The decode result (44_capture.md R198) -/

/-- The tagged payload of a decoded message: `Int value u64` or `State bytes`. -/
inductive Payload where
  | int (value : U64)
  | bytes (bs : List Byte)
deriving DecidableEq, Repr

/-- What a protocol decoder, or the hash, says about a view: the first five fields of R198's record. -/
structure Message where
  decodeType : S16
  bits : U16
  payload : Payload
  address : U32
  command : U32
  rep : Bool
deriving DecidableEq, Repr

/-- The tag UNKNOWN, -1 (R198, which marks the number as general knowledge: log 25). -/
def Config.unknownTag : S16 := -1

/-! ## Free values -/

/-- An uninterpreted value of `w` bits, for draw number `n` (log 8): the results the spec calls "any value,
drawn under no law" (46_decoder.md R244), a tick bound that does not fit its result field (log 9), and the
clock offset at a power-on (10_state.md R36, log 18). -/
opaque Config.freeBits : (w n : Nat) → BitVec w

/-- An uninterpreted byte sequence, for draw number `n`: MATCH_GENERIC's `bytes` on failure (46_decoder.md
R245 (d)). -/
opaque Config.freeBytes : (n : Nat) → List Byte

/-- Protocol decoder number `n`: a pure function from the view's entries to a message or none (44_capture.md
R196). Uninterpreted, since the per-protocol modules are out of scope (00_scope.md R5); any list of pure
functions is `Params.decoders` under some reading of this constant (log 11). -/
opaque Config.protocolDecoder : (n : Nat) → List Nat → Option Message

end Sys2Proof
end

