-- ==== Sys2Proof/Syntax.lean ====
section
/-! DEFINITION. The commands and events of spec/30_encoding.md R103: one constructor for each row of
spec/opcode_table.json. Operands are the fields as they stand in the serialisation (R102, R104): a flag or a
bank is a raw byte, so that an illegal one can be written down and refused (R107). -/

namespace Sys2Proof

/-- The two symbols of a bit: a one is `oneMark`, `oneSpace`; a zero is `zeroMark`, `zeroSpace`, all in
microseconds (43_encoder.md R164, 46_decoder.md R240). -/
structure BitTimings where
  oneMark : U32
  oneSpace : U32
  zeroMark : U32
  zeroSpace : U32
deriving DecidableEq, Repr

/-- The operands of SEND_DATA, in the order of R103. -/
structure SendDataOps where
  timings : BitTimings
  data : U64
  nbits : U16
  msbFirst : Byte
deriving DecidableEq, Repr

/-- The operands of SEND_GENERIC, in the order of R103. -/
structure SendGenericOps where
  hdrMark : U32
  hdrSpace : U32
  timings : BitTimings
  footerMark : U32
  gap : U32
  freq : U32
  duty : Byte
  msbFirst : Byte
  repeats : U16
  nbytes : U16
  bytes : List Byte
deriving DecidableEq, Repr

/-- The operands of MATCH_DATA, in the order of R103. -/
structure MatchDataOps where
  bank : Byte
  offset : U16
  nbits : U16
  timings : BitTimings
  tol : Byte
  excess : S16
  msbFirst : Byte
deriving DecidableEq, Repr

/-- The operands of MATCH_GENERIC and MATCH_GENERIC_INT, in the order of R103. -/
structure SectionOps where
  bank : Byte
  offset : U16
  nbits : U16
  hdrMark : U32
  hdrSpace : U32
  timings : BitTimings
  footerMark : U32
  gap : U32
  isLast : Byte
  tol : Byte
  excess : S16
  msbFirst : Byte
deriving DecidableEq, Repr

/-- One command of the command port or one handler invocation (R100, R103). -/
inductive Instr where
  /-- RX_ENABLE (44_capture.md R189) -/
  | rxEnable
  /-- RX_DISABLE (R190) -/
  | rxDisable
  /-- RESUME (R191) -/
  | resume
  /-- RX_STATUS (R192) -/
  | rxStatus
  /-- DECODE (R193) -/
  | decode (save : Byte)
  /-- TIMER_RESET (41_timer.md R130) -/
  | timerReset (t : Byte)
  /-- TIMER_ELAPSED (R131) -/
  | timerElapsed (t : Byte)
  /-- ENABLE_IR_OUT (42_carrier_driver.md R140) -/
  | enableIrOut (freq : U32) (duty : Byte)
  /-- MARK (R144) -/
  | mark (d : U32)
  /-- SPACE (R145) -/
  | space (d : U32)
  /-- LED_OFF (R146) -/
  | ledOff
  /-- SEND_DATA (43_encoder.md R160) -/
  | sendData (o : SendDataOps)
  /-- SEND_GENERIC (R165) -/
  | sendGeneric (o : SendGenericOps)
  /-- TICKS_LOW (45_matcher.md R220) -/
  | ticksLow (usecs : S64) (tol : Byte)
  /-- TICKS_HIGH (R221) -/
  | ticksHigh (usecs : S64) (tol : Byte)
  /-- MATCH (R222) -/
  | matchTicks (measured desired : U32) (tol : Byte)
  /-- MATCH_MARK (R223) -/
  | matchMark (measured desired : U32) (tol : Byte) (excess : S16)
  /-- MATCH_SPACE (R224) -/
  | matchSpace (measured desired : U32) (tol : Byte) (excess : S16)
  /-- MATCH_AT_LEAST (R225) -/
  | matchAtLeast (measured desired : U32) (tol : Byte) (excess : S16)
  /-- MATCH_DATA (46_decoder.md R241) -/
  | matchData (o : MatchDataOps)
  /-- MATCH_GENERIC (R245) -/
  | matchGeneric (o : SectionOps)
  /-- MATCH_GENERIC_INT (R249) -/
  | matchGenericInt (o : SectionOps)
  /-- DECODE_HASH (R253) -/
  | decodeHash (bank : Byte)
  /-- EV_EDGE (44_capture.md R182), an EVENT -/
  | evEdge
  /-- EV_TIMEOUT (R186), an EVENT -/
  | evTimeout
deriving DecidableEq, Repr

/-- Format EVENT: raised by the hardware only, never issued by the host (R100, R107, R181). -/
def Instr.isEvent : Instr → Bool
  | .evEdge => true
  | .evTimeout => true
  | .rxEnable | .rxDisable | .resume | .rxStatus | .decode _ => false
  | .timerReset _ | .timerElapsed _ => false
  | .enableIrOut _ _ | .mark _ | .space _ | .ledOff => false
  | .sendData _ | .sendGeneric _ => false
  | .ticksLow _ _ | .ticksHigh _ _ | .matchTicks _ _ _ => false
  | .matchMark _ _ _ _ | .matchSpace _ _ _ _ | .matchAtLeast _ _ _ _ => false
  | .matchData _ | .matchGeneric _ | .matchGenericInt _ | .decodeHash _ => false

end Sys2Proof
end

