-- ==== Sys2Proof/WellFormed.lean ====
section
/-! DEFINITION. Which commands have legal operands (spec/30_encoding.md R102, R107). A command that is not
well-formed is refused as BadOperand; which operand is named is `Machine.firstBadOperand`. -/

namespace Sys2Proof

/-- A `flag` is a u8 whose legal values are 0 and 1 (R102). -/
def legalFlag (b : Byte) : Bool := b == 0 || b == 1

/-- A `bankid` is a u8 whose legal values are 0 (LIVE) and 1 (SAVE) (R102). -/
def legalBank (b : Byte) : Bool := b == 0 || b == 1

/-- Every operand of the command is legal, with `numTimers` stopwatches (R107). -/
def Instr.wf (numTimers : Nat) : Instr → Bool
  | .rxEnable | .rxDisable | .resume | .rxStatus => true
  | .decode save => legalFlag save
  | .timerReset t => decide (t.toNat < numTimers)
  | .timerElapsed t => decide (t.toNat < numTimers)
  | .enableIrOut _ _ | .mark _ | .space _ | .ledOff => true
  | .sendData o => legalFlag o.msbFirst
  | .sendGeneric o => legalFlag o.msbFirst && decide (o.nbytes.toNat = o.bytes.length)
  | .ticksLow _ _ | .ticksHigh _ _ | .matchTicks _ _ _ => true
  | .matchMark _ _ _ _ | .matchSpace _ _ _ _ | .matchAtLeast _ _ _ _ => true
  | .matchData o => legalBank o.bank && legalFlag o.msbFirst
  | .matchGeneric o => legalBank o.bank && legalFlag o.isLast && legalFlag o.msbFirst
  | .matchGenericInt o => legalBank o.bank && legalFlag o.isLast && legalFlag o.msbFirst
  | .decodeHash bank => legalBank bank
  | .evEdge | .evTimeout => true

end Sys2Proof
end

