-- ==== Sys2Proof/Decode.lean ====
section
/-! DEFINITION. The byte serialisation of a command (spec/30_encoding.md R100 to R108): the decoder, total on
any packet of bytes and refusing by name, and after it the encoder. A packet is the bytes of one command:
byte 0 the opcode, then the operands in the order of R103, each little-endian at its width (R104). -/

namespace Sys2Proof

/-- What the decoder makes of a packet. -/
inductive Decoded where
  /-- a command or an event of R103 -/
  | instr (i : Instr)
  /-- the opcode byte is not in R103's map (R107) -/
  | unknownOpcode (op : Byte)
  /-- the opcode is in the map and the packet has too few or too many bytes for it (R104, R108; log 15) -/
  | wrongLength (op : Byte)
  /-- a packet of no bytes (log 15) -/
  | empty
deriving DecidableEq, Repr

/-! ## Reading little-endian fields (R104) -/

/-- A 1-byte field (u8, flag, bankid). -/
def read8 : List Byte → Option (Byte × List Byte)
  | a :: r => some (a, r)
  | _ => none

/-- A 2-byte field (u16, s16), low byte first. -/
def read16 : List Byte → Option (U16 × List Byte)
  | a :: b :: r => some (b ++ a, r)
  | _ => none

/-- A 4-byte field (u32), low byte first. -/
def read32 : List Byte → Option (U32 × List Byte)
  | a :: b :: c :: d :: r => some (d ++ c ++ b ++ a, r)
  | _ => none

/-- An 8-byte field (u64, s64), low byte first. -/
def read64 : List Byte → Option (U64 × List Byte)
  | a :: b :: c :: d :: e :: f :: g :: h :: r => some (h ++ g ++ f ++ e ++ d ++ c ++ b ++ a, r)
  | _ => none

/-- The packet ends after the last operand (R104: the length is fixed by the opcode). -/
def finish {α : Type} (x : α) : List Byte → Option α
  | [] => some x
  | _ :: _ => none

/-- oneMark, oneSpace, zeroMark, zeroSpace. -/
def readTimings (bs : List Byte) : Option (BitTimings × List Byte) := do
  let (oneMark, bs) ← read32 bs
  let (oneSpace, bs) ← read32 bs
  let (zeroMark, bs) ← read32 bs
  let (zeroSpace, bs) ← read32 bs
  some (⟨oneMark, oneSpace, zeroMark, zeroSpace⟩, bs)

/-- t, save or bank alone. -/
def readOneByte (f : Byte → Instr) (bs : List Byte) : Option Instr := do
  let (b, bs) ← read8 bs
  finish (f b) bs

/-- freq, duty. -/
def readEnableIrOut (bs : List Byte) : Option Instr := do
  let (freq, bs) ← read32 bs
  let (duty, bs) ← read8 bs
  finish (.enableIrOut freq duty) bs

/-- d alone. -/
def readDuration (f : U32 → Instr) (bs : List Byte) : Option Instr := do
  let (d, bs) ← read32 bs
  finish (f d) bs

/-- SEND_DATA's operands. -/
def readSendData (bs : List Byte) : Option Instr := do
  let (timings, bs) ← readTimings bs
  let (data, bs) ← read64 bs
  let (nbits, bs) ← read16 bs
  let (msbFirst, bs) ← read8 bs
  finish (.sendData ⟨timings, data, nbits, msbFirst⟩) bs

/-- SEND_GENERIC's operands; `bytes` is the rest of the packet, whose length the `nbytes` operand must
equal (R104, R107: checked when the command is accepted). -/
def readSendGeneric (bs : List Byte) : Option Instr := do
  let (hdrMark, bs) ← read32 bs
  let (hdrSpace, bs) ← read32 bs
  let (timings, bs) ← readTimings bs
  let (footerMark, bs) ← read32 bs
  let (gap, bs) ← read32 bs
  let (freq, bs) ← read32 bs
  let (duty, bs) ← read8 bs
  let (msbFirst, bs) ← read8 bs
  let (repeats, bs) ← read16 bs
  let (nbytes, bs) ← read16 bs
  some (.sendGeneric ⟨hdrMark, hdrSpace, timings, footerMark, gap, freq, duty, msbFirst, repeats, nbytes, bs⟩)

/-- usecs, tol. -/
def readTicks (f : S64 → Byte → Instr) (bs : List Byte) : Option Instr := do
  let (usecs, bs) ← read64 bs
  let (tol, bs) ← read8 bs
  finish (f usecs tol) bs

/-- measured, desired, tol. -/
def readMatchTicks (bs : List Byte) : Option Instr := do
  let (measured, bs) ← read32 bs
  let (desired, bs) ← read32 bs
  let (tol, bs) ← read8 bs
  finish (.matchTicks measured desired tol) bs

/-- measured, desired, tol, excess. -/
def readMatch (f : U32 → U32 → Byte → S16 → Instr) (bs : List Byte) : Option Instr := do
  let (measured, bs) ← read32 bs
  let (desired, bs) ← read32 bs
  let (tol, bs) ← read8 bs
  let (excess, bs) ← read16 bs
  finish (f measured desired tol excess) bs

/-- MATCH_DATA's operands. -/
def readMatchData (bs : List Byte) : Option Instr := do
  let (bank, bs) ← read8 bs
  let (offset, bs) ← read16 bs
  let (nbits, bs) ← read16 bs
  let (timings, bs) ← readTimings bs
  let (tol, bs) ← read8 bs
  let (excess, bs) ← read16 bs
  let (msbFirst, bs) ← read8 bs
  finish (.matchData ⟨bank, offset, nbits, timings, tol, excess, msbFirst⟩) bs

/-- The operands MATCH_GENERIC and MATCH_GENERIC_INT share. -/
def readSection (f : SectionOps → Instr) (bs : List Byte) : Option Instr := do
  let (bank, bs) ← read8 bs
  let (offset, bs) ← read16 bs
  let (nbits, bs) ← read16 bs
  let (hdrMark, bs) ← read32 bs
  let (hdrSpace, bs) ← read32 bs
  let (timings, bs) ← readTimings bs
  let (footerMark, bs) ← read32 bs
  let (gap, bs) ← read32 bs
  let (isLast, bs) ← read8 bs
  let (tol, bs) ← read8 bs
  let (excess, bs) ← read16 bs
  let (msbFirst, bs) ← read8 bs
  finish (f ⟨bank, offset, nbits, hdrMark, hdrSpace, timings, footerMark, gap, isLast, tol, excess, msbFirst⟩) bs

/-- The opcode map of R103: the operand reader of each opcode, none for a reserved one (R107). -/
def operandReader : Nat → Option (List Byte → Option Instr)
  | 0x01 => some (finish .rxEnable)
  | 0x02 => some (finish .rxDisable)
  | 0x03 => some (finish .resume)
  | 0x04 => some (finish .rxStatus)
  | 0x05 => some (readOneByte .decode)
  | 0x10 => some (readOneByte .timerReset)
  | 0x11 => some (readOneByte .timerElapsed)
  | 0x20 => some readEnableIrOut
  | 0x21 => some (readDuration .mark)
  | 0x22 => some (readDuration .space)
  | 0x23 => some (finish .ledOff)
  | 0x30 => some readSendData
  | 0x31 => some readSendGeneric
  | 0x40 => some (readTicks .ticksLow)
  | 0x41 => some (readTicks .ticksHigh)
  | 0x42 => some readMatchTicks
  | 0x43 => some (readMatch .matchMark)
  | 0x44 => some (readMatch .matchSpace)
  | 0x45 => some (readMatch .matchAtLeast)
  | 0x50 => some readMatchData
  | 0x51 => some (readSection .matchGeneric)
  | 0x52 => some (readSection .matchGenericInt)
  | 0x53 => some (readOneByte .decodeHash)
  | 0x80 => some (finish .evEdge)
  | 0x81 => some (finish .evTimeout)
  | _ => none

/-- The command or event a packet of bytes stands for (R103, R104, R107). -/
def decode : List Byte → Decoded
  | [] => .empty
  | op :: operands =>
    match operandReader op.toNat with
    | none => .unknownOpcode op
    | some reader =>
      match reader operands with
      | none => .wrongLength op
      | some i => .instr i

/-! ## The encoder -/

/-- A 2-byte field, low byte first (R104). -/
def le16 (w : U16) : List Byte := [w.extractLsb' 0 8, w.extractLsb' 8 8]

/-- A 4-byte field, low byte first (R104). -/
def le32 (w : U32) : List Byte :=
  [w.extractLsb' 0 8, w.extractLsb' 8 8, w.extractLsb' 16 8, w.extractLsb' 24 8]

/-- An 8-byte field, low byte first (R104). -/
def le64 (w : U64) : List Byte :=
  [w.extractLsb' 0 8, w.extractLsb' 8 8, w.extractLsb' 16 8, w.extractLsb' 24 8,
   w.extractLsb' 32 8, w.extractLsb' 40 8, w.extractLsb' 48 8, w.extractLsb' 56 8]

/-- oneMark, oneSpace, zeroMark, zeroSpace. -/
def leTimings (t : BitTimings) : List Byte :=
  le32 t.oneMark ++ (le32 t.oneSpace ++ (le32 t.zeroMark ++ le32 t.zeroSpace))

/-- The operands of a section match. -/
def leSection (o : SectionOps) : List Byte :=
  o.bank :: (le16 o.offset ++ (le16 o.nbits ++ (le32 o.hdrMark ++ (le32 o.hdrSpace ++ (leTimings o.timings ++
    (le32 o.footerMark ++ (le32 o.gap ++ (o.isLast :: o.tol :: (le16 o.excess ++ [o.msbFirst])))))))))

/-- The opcode of R103. -/
def Instr.opcode : Instr → Byte
  | .rxEnable => 0x01
  | .rxDisable => 0x02
  | .resume => 0x03
  | .rxStatus => 0x04
  | .decode _ => 0x05
  | .timerReset _ => 0x10
  | .timerElapsed _ => 0x11
  | .enableIrOut _ _ => 0x20
  | .mark _ => 0x21
  | .space _ => 0x22
  | .ledOff => 0x23
  | .sendData _ => 0x30
  | .sendGeneric _ => 0x31
  | .ticksLow _ _ => 0x40
  | .ticksHigh _ _ => 0x41
  | .matchTicks _ _ _ => 0x42
  | .matchMark _ _ _ _ => 0x43
  | .matchSpace _ _ _ _ => 0x44
  | .matchAtLeast _ _ _ _ => 0x45
  | .matchData _ => 0x50
  | .matchGeneric _ => 0x51
  | .matchGenericInt _ => 0x52
  | .decodeHash _ => 0x53
  | .evEdge => 0x80
  | .evTimeout => 0x81

/-- The operand bytes, in the order of R103. -/
def Instr.operandBytes : Instr → List Byte
  | .rxEnable | .rxDisable | .resume | .rxStatus | .ledOff | .evEdge | .evTimeout => []
  | .decode save => [save]
  | .timerReset t => [t]
  | .timerElapsed t => [t]
  | .enableIrOut freq duty => le32 freq ++ [duty]
  | .mark d => le32 d
  | .space d => le32 d
  | .sendData o => leTimings o.timings ++ (le64 o.data ++ (le16 o.nbits ++ [o.msbFirst]))
  | .sendGeneric o =>
    le32 o.hdrMark ++ (le32 o.hdrSpace ++ (leTimings o.timings ++ (le32 o.footerMark ++ (le32 o.gap ++
      (le32 o.freq ++ (o.duty :: o.msbFirst :: (le16 o.repeats ++ (le16 o.nbytes ++ o.bytes))))))))
  | .ticksLow usecs tol => le64 usecs ++ [tol]
  | .ticksHigh usecs tol => le64 usecs ++ [tol]
  | .matchTicks measured desired tol => le32 measured ++ (le32 desired ++ [tol])
  | .matchMark measured desired tol excess => le32 measured ++ (le32 desired ++ (tol :: le16 excess))
  | .matchSpace measured desired tol excess => le32 measured ++ (le32 desired ++ (tol :: le16 excess))
  | .matchAtLeast measured desired tol excess => le32 measured ++ (le32 desired ++ (tol :: le16 excess))
  | .matchData o =>
    o.bank :: (le16 o.offset ++ (le16 o.nbits ++ (leTimings o.timings ++ (o.tol :: (le16 o.excess ++ [o.msbFirst])))))
  | .matchGeneric o => leSection o
  | .matchGenericInt o => leSection o
  | .decodeHash bank => [bank]

/-- The serialisation of a command (R104). -/
def encode (i : Instr) : List Byte := i.opcode :: i.operandBytes

/-! ## Words of the opcode table -/

/-- The length in bytes of the command with this opcode, SEND_GENERIC without its `bytes` (R104, the
"length" column of spec/opcode_table.json); a reserved opcode is one byte. -/
def commandLength : Nat → Nat
  | 0x01 | 0x02 | 0x03 | 0x04 | 0x23 | 0x80 | 0x81 => 1
  | 0x05 | 0x10 | 0x11 | 0x53 => 2
  | 0x20 => 6
  | 0x21 | 0x22 => 5
  | 0x30 => 28
  | 0x31 => 43
  | 0x40 | 0x41 | 0x42 => 10
  | 0x43 | 0x44 | 0x45 => 12
  | 0x50 => 26
  | 0x51 | 0x52 => 43
  | _ => 1

/-- The first `n` bytes of a number, byte 0 its lowest eight bits. -/
def bytesOfWord : Nat → Nat → List Byte
  | 0, _ => []
  | n + 1, w => BitVec.ofNat 8 w :: bytesOfWord n (w / 256)

/-- The packet whose bits are `w`, numbered as spec/opcode_table.json numbers them (byte k is bits
8k+7..8k): `nbits` bits of `w`, in whole bytes, and every later byte 0, out to the length its opcode (and
SEND_GENERIC's `nbytes` operand, bytes 41 and 42) gives it. -/
def packetOfWord (nbits w : Nat) : List Byte :=
  let given := bytesOfWord ((nbits + 7) / 8) w
  let op := (given.getD 0 0).toNat
  let extra := if op = 0x31 then (given.getD 41 0).toNat + 256 * (given.getD 42 0).toNat else 0
  given ++ List.replicate (commandLength op + extra - given.length) 0

/-- The instruction the decoder reads from a word of the opcode table. -/
def decodeTableWord (nbits w : Nat) : Option Instr :=
  match decode (packetOfWord nbits w) with
  | .instr i => some i
  | .unknownOpcode _ => none
  | .wrongLength _ => none
  | .empty => none

end Sys2Proof
end

