-- ==== Sys2Proof/Machine/State.lean ====
section
/-! DEFINITION. The state of IRCODEC: the registers of spec/10_state.md, the two capture banks of
20_memory.md, and the model's own record of the host and of the environment. Plain data throughout. -/

namespace Sys2Proof.Machine

/-- A level of the output pin: LOW = 0, HIGH = 1 (10_state.md R42). -/
inductive Level where
  | low
  | high
deriving DecidableEq, Repr

/-- One segment of OUT_WAVE: a level held for `us` microseconds (10_state.md R43). -/
structure Segment where
  level : Level
  us : Nat
deriving DecidableEq, Repr

/-- RCVSTATE; code 3 is never written (10_state.md R33). -/
inductive RcvState where
  | idle
  | mark
  | stop
deriving DecidableEq, Repr

/-- The value codes IDLE = 0, MARK = 1, STOP = 2 (10_state.md R33). -/
def RcvState.code : RcvState → Nat
  | .idle => 0
  | .mark => 1
  | .stop => 2

/-- An indexed store in one canonical form: (index, value) pairs with strictly rising indices and no value 0,
which is what an unlisted index reads as (log 7). The capture banks and the stopwatches are held so. -/
abbrev Cells := List (Nat × Nat)

/-- The value of FAULT or REFUSED when it is not none: `(code u8, info u32)` (10_state.md R51, R52). -/
structure StopRecord where
  code : Byte
  info : U32
deriving DecidableEq, Repr

/-- The record DECODE returns (44_capture.md R198): the message, then the view's overflow, length and bank. -/
structure DecodeRecord where
  message : Message
  overflow : Bool
  rawlen : U16
  bank : Byte
deriving DecidableEq, Repr

/-- What a completed command returned to the host (30_encoding.md R103, "result"). -/
inductive Result where
  /-- a command with no result -/
  | done
  /-- RX_STATUS -/
  | status (rxEn : Bool) (rcvstate : Byte) (rawlen : U16) (overflow : Bool)
  /-- DECODE: `ok` is whether there is a record (44_capture.md R193) -/
  | decoded (record : Option DecodeRecord)
  /-- TIMER_ELAPSED -/
  | elapsed (us : U64)
  /-- TICKS_LOW and TICKS_HIGH -/
  | ticks (v : S64)
  /-- MATCH, MATCH_MARK, MATCH_SPACE and MATCH_AT_LEAST -/
  | verdict (b : Bool)
  /-- MATCH_DATA -/
  | matchedData (success : Bool) (used : U16) (value : U64)
  /-- MATCH_GENERIC -/
  | matchedBytes (consumed : U16) (bytes : List Byte)
  /-- MATCH_GENERIC_INT -/
  | matchedInt (consumed : U16) (value : U64)
  /-- DECODE_HASH -/
  | hash (ok : Bool) (value : U32) (bits : U16)
deriving DecidableEq, Repr

/-- What happens at a turn of the schedule (00_scope.md R7). -/
inductive Source where
  /-- FG: the host issues the command of this packet on the command port -/
  | command (packet : List Byte)
  /-- ENV changes the level of IR_IN: an edge (44_capture.md R180) -/
  | edge
  /-- TMO: the idle timeout may fire (44_capture.md R186, R188) -/
  | timeout
  /-- ENV cuts and restores power: a power-on reset (60_exceptions.md R290, 70_reset_and_hazards.md R300) -/
  | powerOn
deriving DecidableEq, Repr

/-- One turn: ENV lets `dt` microseconds of real time pass, then the source acts (10_state.md R36). -/
structure Turn where
  dt : Nat
  source : Source
deriving DecidableEq, Repr

/-- The machine. Every field's rule and reset value stand in INVENTORY.md under "State". -/
structure State where
  /-- the parameters of 00_scope.md R8 -/
  params : Params
  /-- RX_EN (R32) -/
  rxEn : Bool
  /-- RCVSTATE (R33) -/
  rcvState : RcvState
  /-- RAWLEN (R34) -/
  rawLen : U16
  /-- OVERFLOW (R35) -/
  overflow : Bool
  /-- tau, the real time in microseconds (R36) -/
  tau : Nat
  /-- CLOCK_OFFSET (R36) -/
  clockOffset : Nat
  /-- LAST_EDGE (R37) -/
  lastEdge : Nat
  /-- LAST_EDGE holds a value (R37, R46 I3) -/
  lastEdgeSet : Bool
  /-- TO_ARMED (R38) -/
  toArmed : Bool
  /-- TO_DEADLINE (R38) -/
  toDeadline : Nat
  /-- TO_DEADLINE holds a value (R38) -/
  toDeadlineSet : Bool
  /-- SAVE_VALID (R39) -/
  saveValid : Bool
  /-- SAVE_LEN (R39) -/
  saveLen : U16
  /-- SAVE_OVF (R39) -/
  saveOvf : Bool
  /-- the LIVE bank (20_memory.md R71) -/
  live : Cells
  /-- the SAVE bank (20_memory.md R73) -/
  save : Cells
  /-- CARRIER_VALID (R40) -/
  carrierValid : Bool
  /-- CARRIER_HZ (R41) -/
  carrierHz : U32
  /-- DUTY (R41) -/
  duty : Byte
  /-- PERIOD_US (R41) -/
  periodUs : U32
  /-- ON_US (R41) -/
  onUs : U32
  /-- OFF_US (R41) -/
  offUs : U32
  /-- OUT_LEVEL (R42) -/
  outLevel : Level
  /-- OUT_WAVE, newest segment first (R43; log 24) -/
  outWave : List Segment
  /-- TSTART[t] (R44) -/
  tStart : Cells
  /-- TSET[t], 0 or 1 (R44) -/
  tSet : Cells
  /-- FAULT (R51) -/
  fault : Option StopRecord
  /-- REFUSED (R52) -/
  refused : Option StopRecord
  /-- the end of the last send: the port takes no command before it (42_carrier_driver.md R150) -/
  busyUntil : Nat
  /-- the model's own: what the commands returned, newest first (log 3) -/
  results : List Result
  /-- the model's own: the number of the next free value (log 8) -/
  draws : Nat
  /-- the model's own: the turns still to come (log 2) -/
  schedule : List Turn
deriving DecidableEq, Repr

/-- Why the machine takes no further step. Raised by `step`, never by a meaning: safe, since a stopped
machine does less than any machine that went on (log 16). -/
inductive Fault where
  /-- A step was asked of a machine whose FAULT is set: "no step of any agent is enabled" (10_state.md R51).
  Raised by `step`. Safe. -/
  | haltedByFault (r : StopRecord)
  /-- A step was asked of a machine whose REFUSED is set (10_state.md R52). Raised by `step`. Safe. -/
  | haltedByRefusal (r : StopRecord)
deriving DecidableEq, Repr

/-- What the model gives no meaning to. -/
inductive Refusal where
  /-- An instruction whose meaning is not written yet. Raised by `exec` only. Safe. -/
  | notModelled (mnemonic : String)
  /-- A packet on the command port that is not the bytes of one command: too short or too long for its
  opcode. Raised by `step`. Safe: the spec gives such a packet no effect (log 15). -/
  | wrongLength (opcode : Byte)
  /-- A packet of no bytes on the command port. Raised by `step`. Safe (log 15). -/
  | emptyPacket
deriving DecidableEq, Repr

/-- Power-on reset, with the suggested parameters and nothing scheduled (10_state.md R48,
70_reset_and_hazards.md R300; the values the spec leaves open: log 4, 5, 6, 7). -/
def State.reset : State where
  params := Params.suggested
  rxEn := false
  rcvState := .idle
  rawLen := 0
  overflow := false
  tau := 0
  clockOffset := 0
  lastEdge := 0
  lastEdgeSet := false
  toArmed := false
  toDeadline := 0
  toDeadlineSet := false
  saveValid := false
  saveLen := 0
  saveOvf := false
  live := []
  save := []
  carrierValid := false
  carrierHz := 0
  duty := 0
  periodUs := 0
  onUs := 0
  offUs := 0
  outLevel := .low
  outWave := []
  tStart := []
  tSet := []
  fault := none
  refused := none
  busyUntil := 0
  results := []
  draws := 0
  schedule := []

end Sys2Proof.Machine
end

