-- ==== Sys2Proof/Machine/Ops.lean ====
section
/-! DEFINITION. The named operations over registers and banks: indexed stores, time, answering the host,
raising a fault or a refusal (the one way an exception is taken here), views, resuming a capture, and
power-on, which alone clears a fault or a refusal (spec/20_memory.md, 60_exceptions.md, 10_state.md). -/

namespace Sys2Proof.Machine

/-- What a step or a meaning answers. -/
abbrev Outcome := Host.Outcome State Fault Refusal

/-! ## Integers (00_scope.md R11, R12) -/

/-- `trunc_N(v) = v mod 2^N` (R11). -/
def trunc (bits v : Nat) : Nat := v % 2 ^ bits

/-- `floor(a/b)` on exact rationals, for b > 0 (R12): Int division by a positive number rounds down. -/
def floorDiv (a b : Int) : Int := a / b

/-- `ceil(a/b) = -floor(-a/b)` (R12). -/
def ceilDiv (a b : Int) : Int := -floorDiv (-a) b

/-- `(a - b) mod 2^N` of two clock values (41_timer.md R131, R133). -/
def subMod (bits a b : Nat) : Nat := (((a : Int) - (b : Int)) % (2 : Int) ^ bits).toNat

/-! ## Indexed stores -/

/-- The value at an index; an unlisted index reads as 0 (log 7). -/
def Cells.read : Cells → Nat → Nat
  | [], _ => 0
  | (a, v) :: rest, i => if i = a then v else if i < a then 0 else Cells.read rest i

/-- Store a value at an index, keeping the canonical form. -/
def Cells.write : Cells → Nat → Nat → Cells
  | [], i, v => if v = 0 then [] else [(i, v)]
  | (a, w) :: rest, i, v =>
    if i < a then (if v = 0 then (a, w) :: rest else (i, v) :: (a, w) :: rest)
    else if i = a then (if v = 0 then rest else (i, v) :: rest)
    else (a, w) :: Cells.write rest i v

/-- The canonical form: indices strictly rising, and no entry equal to what an unlisted index reads as. -/
def Cells.wf : Cells → Bool
  | [] => true
  | (a, v) :: rest => v != 0 && rest.all (fun c => decide (a < c.1)) && Cells.wf rest

/-- Every indexed store of the state is in canonical form. -/
def Memory.wf (s : State) : Bool := s.live.wf && s.save.wf && s.tStart.wf && s.tSet.wf

/-- MemRead of one bank entry (00_scope.md R14, 20_memory.md R79). -/
def bankRead (b : Cells) (i : Nat) : Nat := b.read i

/-- MemWrite of one bank entry, kept to P_ENTRY_BITS bits (20_memory.md R70, 00_scope.md R11); "writes beyond
capacity must be rejected" (20_memory.md R88, log 19). -/
def bankWrite (p : Params) (b : Cells) (i v : Nat) : Cells :=
  if i < p.rawBufSize then b.write i (trunc p.entryBits v) else b

/-- Copy entries 0 .. n-1 of a bank to the same indices of another; later entries keep their values
(44_capture.md R195). -/
def bankCopy (p : Params) (src : Cells) : Nat → Cells → Cells
  | 0, dst => dst
  | n + 1, dst => bankWrite p (bankCopy p src n dst) n (bankRead src n)

/-- Entries 0 .. n-1 of a bank, in order. -/
def bankPrefix (b : Cells) (n : Nat) : List Nat := (List.range n).map (bankRead b)

/-! ## Time -/

/-- CLOCK at the step's tau (10_state.md R36). -/
def State.now (s : State) : Nat := (s.tau + s.clockOffset) % 2 ^ s.params.clockBits

/-! ## Answering the host -/

/-- The host receives a command's result (10_state.md R30; log 3). -/
def withResult (r : Result) (s : State) : State := { s with results := r :: s.results }

/-- A command completes and returns its result (00_scope.md R14 `return`; 70_reset_and_hazards.md R305). -/
def respond (r : Result) (s : State) : Outcome := .next (withResult r s)

/-- A free value has been used: the next one is a fresh one (log 8). -/
def spendDraw (s : State) : State := { s with draws := s.draws + 1 }

/-! ## Faults and refusals -/

/-- The faults of 60_exceptions.md R270. -/
inductive FaultKind where
  | timerUnset
  | carrierFreqZero
  | carrierUnconfigured
  | liveBufferBusy
  | saveBufferEmpty
  | unwrittenRead
deriving DecidableEq, Repr

/-- The fault codes of 60_exceptions.md R270. -/
def FaultKind.code : FaultKind → Byte
  | .timerUnset => 1
  | .carrierFreqZero => 2
  | .carrierUnconfigured => 3
  | .liveBufferBusy => 4
  | .saveBufferEmpty => 5
  | .unwrittenRead => 6

/-- The refusals of 60_exceptions.md R276. -/
inductive RefusalKind where
  | unknownOpcode
  | eventNotCommand
  | badOperand
deriving DecidableEq, Repr

/-- The refusal codes of 60_exceptions.md R276. -/
def RefusalKind.code : RefusalKind → Byte
  | .unknownOpcode => 0x81
  | .eventNotCommand => 0x82
  | .badOperand => 0x83

/-- Taking a fault: `FAULT <- (code, info)` and nothing else; no result is returned (60_exceptions.md R272,
R275). -/
def raiseFault (k : FaultKind) (info : Nat) (s : State) : State :=
  { s with fault := some ⟨k.code, BitVec.ofNat 32 info⟩ }

/-- Taking a refusal: `REFUSED <- (code, info)` and nothing else (60_exceptions.md R276). -/
def refuse (k : RefusalKind) (info : Nat) (s : State) : State :=
  { s with refused := some ⟨k.code, BitVec.ofNat 32 info⟩ }

/-- While FAULT or REFUSED is not none the machine is quiescent (10_state.md R51, R52). -/
def haltedBy (s : State) : Option Fault :=
  match s.fault with
  | some r => some (.haltedByFault r)
  | none =>
    match s.refused with
    | some r => some (.haltedByRefusal r)
    | none => none

/-- Power-on reset (70_reset_and_hazards.md R300): every register at the value of 10_state.md R48, as in
`State.reset`, with CLOCK_OFFSET a fresh draw (R36). Real time, the parameters, the turns still to come and
the host's record of results are not the block's registers and stay (log 18). -/
def powerOn (s : State) : State :=
  { State.reset with
    params := s.params
    tau := s.tau
    clockOffset := trunc s.params.clockBits (Config.freeBits 64 s.draws).toNat
    busyUntil := s.tau
    results := s.results
    draws := s.draws + 1
    schedule := s.schedule }

/-! ## Views (20_memory.md R75) -/

/-- The entries a matching command reads, or the fault and info it raises: a LIVE read outside STOP, or a
SAVE read of an empty SAVE bank (R75). Bank 0 is LIVE, 1 is SAVE. -/
def view (bank : Byte) (s : State) : Except (FaultKind × Nat) (List Nat) :=
  if bank = 0 then
    if s.rcvState = .stop then .ok (bankPrefix s.live s.rawLen.toNat)
    else .error (.liveBufferBusy, s.rcvState.code)
  else
    if s.saveValid then .ok (bankPrefix s.save s.saveLen.toNat)
    else .error (.saveBufferEmpty, 0)

/-- Run a matching command on its view, or take the view's fault before anything else (60_exceptions.md
R274). -/
def withView (bank : Byte) (s : State) (body : List Nat → Outcome) : Outcome :=
  match view bank s with
  | .error (k, info) => .next (raiseFault k info s)
  | .ok entries => body entries

/-! ## The capture registers -/

/-- RESUME's three writes (44_capture.md R191). -/
def resumeCapture (s : State) : State :=
  { s with rcvState := .idle, rawLen := 0, overflow := false }

/-- "Disarm the idle-timeout timer" (10_state.md R38). -/
def disarm (s : State) : State := { s with toArmed := false }

/-- "Re-arm the idle-timeout timer": `TO_ARMED <- 1`, `TO_DEADLINE <- tau + P_TIMEOUT_US` (10_state.md R38). -/
def rearm (s : State) : State :=
  { s with toArmed := true, toDeadline := s.tau + s.params.timeoutUs, toDeadlineSet := true }

/-- EV_TIMEOUT is enabled: `TO_ARMED = 1` and `tau >= TO_DEADLINE` (44_capture.md R186, 60_exceptions.md R278). -/
def timeoutDue (s : State) : Bool := s.toArmed && decide (s.toDeadline ≤ s.tau)

end Sys2Proof.Machine
end

