-- ==== Sys2Proof/Machine/Operands.lean ====
section
/-! DEFINITION. The operand forms (spec/30_encoding.md R102, R105, R111): reading a field as an integer, and
refusing an illegal operand before anything else (R107, 60_exceptions.md R274, R276). -/

namespace Sys2Proof.Machine

/-- An unsigned operand as an integer: zero-extension (R105). -/
def zext {w : Nat} (x : BitVec w) : Int := (x.toNat : Int)

/-- A signed operand as an integer: sign-extension (R105). -/
def sext {w : Nat} (x : BitVec w) : Int := x.toInt

/-- A legal flag as a Boolean: 1 is true (R102). -/
def isSet (b : Byte) : Bool := b == 1

/-- The position and legality of each operand that can be illegal, in the order of R103. -/
def operandChecks (numTimers : Nat) : Instr → List (Nat × Bool)
  | .rxEnable | .rxDisable | .resume | .rxStatus => []
  | .decode save => [(0, legalFlag save)]
  | .timerReset t => [(0, decide (t.toNat < numTimers))]
  | .timerElapsed t => [(0, decide (t.toNat < numTimers))]
  | .enableIrOut _ _ | .mark _ | .space _ | .ledOff => []
  | .sendData o => [(6, legalFlag o.msbFirst)]
  | .sendGeneric o => [(10, legalFlag o.msbFirst), (12, decide (o.nbytes.toNat = o.bytes.length))]
  | .ticksLow _ _ | .ticksHigh _ _ | .matchTicks _ _ _ => []
  | .matchMark _ _ _ _ | .matchSpace _ _ _ _ | .matchAtLeast _ _ _ _ => []
  | .matchData o => [(0, legalBank o.bank), (9, legalFlag o.msbFirst)]
  | .matchGeneric o => [(0, legalBank o.bank), (11, legalFlag o.isLast), (14, legalFlag o.msbFirst)]
  | .matchGenericInt o => [(0, legalBank o.bank), (11, legalFlag o.isLast), (14, legalFlag o.msbFirst)]
  | .decodeHash bank => [(0, legalBank bank)]
  | .evEdge | .evTimeout => []

/-- The position of the first illegal operand (R107, R274). -/
def firstBadOperand (numTimers : Nat) (i : Instr) : Option Nat :=
  ((operandChecks numTimers i).find? (fun c => !c.2)).map Prod.fst

/-- A command is first checked for refusal, and only then has its effect (60_exceptions.md R274). -/
def accept (i : Instr) (s : State) (body : Outcome) : Outcome :=
  match firstBadOperand s.params.numTimers i with
  | some position => .next (refuse .badOperand position s)
  | none => body

end Sys2Proof.Machine
end

