-- ==== Sys2Proof/Machine/Matcher.lean ====
section
/-! DEFINITION. The tolerance matching engine: TICKS_LOW, TICKS_HIGH, MATCH, MATCH_MARK, MATCH_SPACE and
MATCH_AT_LEAST (spec/45_matcher.md), on exact integers with `T = P_TICK_US`. -/

namespace Sys2Proof.Machine

/-- `max(0, floor(usecs * (100 - tol) / (100 * T)))` (R220; log 10). -/
def ticksLow (T : Nat) (usecs : Int) (tol : Nat) : Int :=
  max 0 (floorDiv (usecs * (100 - (tol : Int))) (100 * (T : Int)))

/-- `ceil(usecs * (100 + tol) / (100 * T)) + 1` (R221). -/
def ticksHigh (T : Nat) (usecs : Int) (tol : Nat) : Int :=
  ceilDiv (usecs * (100 + (tol : Int))) (100 * (T : Int)) + 1

/-- A measured tick count lies within the bounds of a target (R222, R223, R224), which is not negative: "a
negative target matches nothing" (92_eei_decisions.md D23, R223, R224). The pseudocode alone would accept a few
counts for a target just below 0; that the ruling is followed there is log 29. -/
def withinBounds (T : Nat) (measured : Nat) (target : Int) (tol : Nat) : Bool :=
  decide (0 ≤ target) &&
    (decide (ticksLow T target tol ≤ (measured : Int)) && decide ((measured : Int) ≤ ticksHigh T target tol))

/-- MATCH (R222). -/
def matchesTicks (T measured desired tol : Nat) : Bool := withinBounds T measured (desired : Int) tol

/-- MATCH_MARK (R223): the target is `desired + excess`, never truncated. -/
def matchesMark (T measured desired tol : Nat) (excess : Int) : Bool :=
  withinBounds T measured ((desired : Int) + excess) tol

/-- MATCH_SPACE (R224): the target is `desired - excess`, never truncated. -/
def matchesSpace (T measured desired tol : Nat) (excess : Int) : Bool :=
  withinBounds T measured ((desired : Int) - excess) tol

/-- MATCH_AT_LEAST (R225): the low bound only, of a negative target too (log 10). -/
def matchesAtLeast (T measured desired tol : Nat) (excess : Int) : Bool :=
  decide (ticksLow T ((desired : Int) - excess) tol ≤ (measured : Int))

/-- A tick bound fits its s64 result field. -/
def fitsS64 (v : Int) : Bool := decide (-(2 : Int) ^ 63 ≤ v) && decide (v < (2 : Int) ^ 63)

/-- Return a tick bound as an s64. The spec states no result for a bound outside s64: a free value (log 9). -/
def respondTicks (v : Int) (s : State) : Outcome :=
  if fitsS64 v then respond (.ticks (BitVec.ofInt 64 v)) s
  else respond (.ticks (Config.freeBits 64 s.draws)) (spendDraw s)

/-- TICKS_LOW (R220). -/
def execTicksLow (usecs : S64) (tol : Byte) (s : State) : Outcome :=
  accept (.ticksLow usecs tol) s <| respondTicks (ticksLow s.params.tickUs (sext usecs) tol.toNat) s

/-- TICKS_HIGH (R221). -/
def execTicksHigh (usecs : S64) (tol : Byte) (s : State) : Outcome :=
  accept (.ticksHigh usecs tol) s <| respondTicks (ticksHigh s.params.tickUs (sext usecs) tol.toNat) s

/-- MATCH (R222). -/
def execMatchTicks (measured desired : U32) (tol : Byte) (s : State) : Outcome :=
  accept (.matchTicks measured desired tol) s <|
    respond (.verdict (matchesTicks s.params.tickUs measured.toNat desired.toNat tol.toNat)) s

/-- MATCH_MARK (R223). -/
def execMatchMark (measured desired : U32) (tol : Byte) (excess : S16) (s : State) : Outcome :=
  accept (.matchMark measured desired tol excess) s <|
    respond (.verdict (matchesMark s.params.tickUs measured.toNat desired.toNat tol.toNat (sext excess))) s

/-- MATCH_SPACE (R224). -/
def execMatchSpace (measured desired : U32) (tol : Byte) (excess : S16) (s : State) : Outcome :=
  accept (.matchSpace measured desired tol excess) s <|
    respond (.verdict (matchesSpace s.params.tickUs measured.toNat desired.toNat tol.toNat (sext excess))) s

/-- MATCH_AT_LEAST (R225). -/
def execMatchAtLeast (measured desired : U32) (tol : Byte) (excess : S16) (s : State) : Outcome :=
  accept (.matchAtLeast measured desired tol excess) s <|
    respond (.verdict (matchesAtLeast s.params.tickUs measured.toNat desired.toNat tol.toNat (sext excess))) s

end Sys2Proof.Machine
end

