-- ==== Sys2Proof/Machine/BitDecoder.lean ====
section
/-! DEFINITION. The generic bitstream decoder and the hash decoder: MATCH_DATA, MATCH_GENERIC,
MATCH_GENERIC_INT and DECODE_HASH (spec/46_decoder.md). `E` is the view's entries; its length is `L`. -/

namespace Sys2Proof.Machine

/-! ## MATCH_DATA -/

/-- A bit from one mark/space pair: the one symbol is tried first (R240). -/
def classify (T : Nat) (t : BitTimings) (tol : Nat) (excess : Int) (m s : Nat) : Option Bool :=
  if matchesMark T m t.oneMark.toNat tol excess && matchesSpace T s t.oneSpace.toNat tol excess then some true
  else if matchesMark T m t.zeroMark.toNat tol excess && matchesSpace T s t.zeroSpace.toNat tol excess then
    some false
  else none

/-- Place bit number `i` in the value, modulo 2^64 (R241, R242). -/
def placeBit (msbFirst : Bool) (i : Nat) (v : U64) (b : Bool) : U64 :=
  let bit : U64 := if b then 1 else 0
  if msbFirst then (v <<< 1) ||| bit else v ||| (bit <<< i)

/-- Read `n` pairs from the front of a view's rest, as bits `i`, `i + 1`, …; none at the first pair that is
no symbol (R241, R244). -/
def matchPairs (T : Nat) (t : BitTimings) (tol : Nat) (excess : Int) (msbFirst : Bool) :
    Nat → Nat → U64 → List Nat → Option U64
  | 0, _, v, _ => some v
  | n + 1, i, v, m :: s :: rest =>
    match classify T t tol excess m s with
    | some b => matchPairs T t tol excess msbFirst n (i + 1) (placeBit msbFirst i v b) rest
    | none => none
  | _ + 1, _, _, _ => none

/-- `matchData` (R241): the value of `nbits` pairs from `offset` on, or none on failure; on success
`2 * nbits` entries are used (R243). The length is checked before any read, and before `nbits = 0` too: R241's
pseudocode fails an `offset` past the view's end where its corner case says that `nbits = 0` succeeds; the model
follows the pseudocode, which is its choice (log 30). -/
def matchData (T : Nat) (t : BitTimings) (tol : Nat) (excess : Int) (msbFirst : Bool)
    (E : List Nat) (offset nbits : Nat) : Option U64 :=
  if E.length < offset + 2 * nbits then none
  else matchPairs T t tol excess msbFirst nbits 0 0 (E.drop offset)

/-- MATCH_DATA (R241). On failure `used` and `value` are free values (R244). -/
def execMatchData (o : MatchDataOps) (s : State) : Outcome :=
  accept (.matchData o) s <| withView o.bank s fun E =>
    match matchData s.params.tickUs o.timings o.tol.toNat (sext o.excess) (isSet o.msbFirst) E o.offset.toNat
        o.nbits.toNat with
    | some v => respond (.matchedData true (BitVec.ofNat 16 (2 * o.nbits.toNat)) v) s
    | none =>
      respond (.matchedData false (Config.freeBits 16 s.draws) (Config.freeBits 64 s.draws)) (spendDraw s)

/-! ## MATCH_GENERIC and MATCH_GENERIC_INT -/

/-- `[c]`: 1 for a part that is present (00_scope.md R12). -/
def present (d : U32) : Nat := if d = 0 then 0 else 1

/-- The entries a section needs (R246). -/
def requiredEntries (o : SectionOps) : Nat :=
  present o.hdrMark + present o.hdrSpace + 2 * o.nbits.toNat + present o.footerMark

/-- Match one header or footer part at `p` if it is present; the position after it (R245). -/
def matchPart (test : Nat → Bool) (d : U32) (E : List Nat) (p : Nat) : Option Nat :=
  if d = 0 then some p else if test (E.getD p 0) then some (p + 1) else none

/-- The gap entry (R248): consumed when `gap != 0` and an entry remains, checked only when `isLast`. -/
def matchGap (T : Nat) (o : SectionOps) (E : List Nat) (p : Nat) : Option Nat :=
  if o.gap ≠ 0 ∧ p < E.length then
    if isSet o.isLast && !matchesAtLeast T (E.getD p 0) o.gap.toNat o.tol.toNat (sext o.excess) then none
    else some (p + 1)
  else some p

/-- One framed section (R245, R249): the length check, header, data, footer and gap. `data p` matches the data
at `p` and gives it with the position after it. Answers the entries consumed and the data. -/
def matchSection {α : Type} (T : Nat) (o : SectionOps) (E : List Nat) (data : Nat → Option (α × Nat)) :
    Option (Nat × α) :=
  if E.length - o.offset.toNat < requiredEntries o then none
  else do
    let p ← matchPart (matchesMark T · o.hdrMark.toNat o.tol.toNat (sext o.excess)) o.hdrMark E o.offset.toNat
    let p ← matchPart (matchesSpace T · o.hdrSpace.toNat o.tol.toNat (sext o.excess)) o.hdrSpace E p
    let (out, p) ← data p
    let p ← matchPart (matchesMark T · o.footerMark.toNat o.tol.toNat (sext o.excess)) o.footerMark E p
    let p ← matchGap T o E p
    some (p - o.offset.toNat, out)

/-- The byte loop of MATCH_GENERIC (R245, R247): `k` bytes of 8 pairs each. -/
def matchBytes (T : Nat) (o : SectionOps) (E : List Nat) : Nat → Nat → Option (List Byte × Nat)
  | 0, p => some ([], p)
  | k + 1, p =>
    match matchData T o.timings o.tol.toNat (sext o.excess) (isSet o.msbFirst) E p 8 with
    | none => none
    | some v =>
      match matchBytes T o E k (p + 16) with
      | none => none
      | some (bs, q) => some (v.setWidth 8 :: bs, q)

/-- MATCH_GENERIC on a view (R245). -/
def matchGeneric (T : Nat) (o : SectionOps) (E : List Nat) : Option (Nat × List Byte) :=
  if o.nbits.toNat % 8 ≠ 0 then none
  else matchSection T o E fun p => matchBytes T o E (o.nbits.toNat / 8) p

/-- MATCH_GENERIC_INT on a view (R249). -/
def matchGenericInt (T : Nat) (o : SectionOps) (E : List Nat) : Option (Nat × U64) :=
  matchSection T o E fun p =>
    (matchData T o.timings o.tol.toNat (sext o.excess) (isSet o.msbFirst) E p o.nbits.toNat).map
      fun v => (v, p + 2 * o.nbits.toNat)

/-- MATCH_GENERIC (R245). On failure `consumed = 0` and `bytes` is a free value. -/
def execMatchGeneric (o : SectionOps) (s : State) : Outcome :=
  accept (.matchGeneric o) s <| withView o.bank s fun E =>
    match matchGeneric s.params.tickUs o E with
    | some (consumed, bytes) => respond (.matchedBytes (BitVec.ofNat 16 consumed) bytes) s
    | none => respond (.matchedBytes 0 (Config.freeBytes s.draws)) (spendDraw s)

/-- MATCH_GENERIC_INT (R249). On failure `consumed = 0` and `value` is a free value. -/
def execMatchGenericInt (o : SectionOps) (s : State) : Outcome :=
  accept (.matchGenericInt o) s <| withView o.bank s fun E =>
    match matchGenericInt s.params.tickUs o E with
    | some (consumed, value) => respond (.matchedInt (BitVec.ofNat 16 consumed) value) s
    | none => respond (.matchedInt 0 (Config.freeBits 64 s.draws)) (spendDraw s)

/-! ## DECODE_HASH -/

/-- `cmp(old, new)`: 0 shorter, 2 longer, 1 equal within 20% (R254). -/
def compareTicks (old new : Nat) : Nat :=
  if 5 * new < 4 * old then 0 else if 5 * old < 4 * new then 2 else 1

/-- The comparison of entries `i` and `i + 2` for `i` = 1 .. L-3 (R253). -/
def compareSequence (E : List Nat) : List Nat :=
  (List.range (E.length - 3)).map fun k => compareTicks (E.getD (k + 1) 0) (E.getD (k + 3) 0)

/-- One fold step, modulo 2^32 (R255). -/
def foldHash : HashFold → U32 → Nat → U32
  | .xorThenMul, h, v => (h ^^^ BitVec.ofNat 32 v) * Config.fnvPrime
  | .mulThenXor, h, v => (h * Config.fnvPrime) ^^^ BitVec.ofNat 32 v

/-- `hashCore` (R253): the hash and its bit count, for a view of at least 6 entries. -/
def hashCore (fold : HashFold) (E : List Nat) : Option (U32 × U16) :=
  if E.length < Config.hashMinLength then none
  else some ((compareSequence E).foldl (foldHash fold) Config.fnvBasis, BitVec.ofNat 16 (E.length / 2))

/-- DECODE_HASH (R253). On failure `value` and `bits` are free values. -/
def execDecodeHash (bank : Byte) (s : State) : Outcome :=
  accept (.decodeHash bank) s <| withView bank s fun E =>
    match hashCore s.params.hashFold E with
    | some (h, bits) => respond (.hash true h bits) s
    | none => respond (.hash false (Config.freeBits 32 s.draws) (Config.freeBits 16 s.draws)) (spendDraw s)

end Sys2Proof.Machine
end

