-- ==== Sys2Proof/Machine/Flags.lean ====
section
/-! DEFINITION. IRCODEC's one sticky status flag, OVERFLOW (spec/10_state.md R35, R45), and when the edge
handler sets it (44_capture.md R182 steps 2 and 6, R185). Its clearing is `resumeCapture`. -/

namespace Sys2Proof.Machine

/-- `RAWLEN >= P_RAWBUF_SIZE`. -/
def bankFull (s : State) : Bool := decide (s.params.rawBufSize ≤ s.rawLen.toNat)

/-- Step 2 of R182: with P_OVERFLOW_ON_FILL false, an edge that arrives at a full bank overflows instead of
writing. -/
def overflowsOnArrival (s : State) : Bool :=
  !s.params.overflowOnFill && s.rcvState != .stop && bankFull s

/-- Step 6 of R182: with P_OVERFLOW_ON_FILL true, the edge that fills the bank overflows it. -/
def overflowsOnFill (s : State) : Bool := s.params.overflowOnFill && bankFull s

/-- `OVERFLOW <- 1; RCVSTATE <- STOP` (R185). -/
def setOverflow (s : State) : State := { s with overflow := true, rcvState := .stop }

end Sys2Proof.Machine
end

