-- ==== Sys2Proof/Machine/Capture.lean ====
section
/-! DEFINITION. The raw capture state machine and the dispatcher: RX_ENABLE, RX_DISABLE, RESUME, RX_STATUS,
DECODE, EV_EDGE and EV_TIMEOUT (spec/44_capture.md). -/

namespace Sys2Proof.Machine

/-! ## Capture control -/

/-- RX_ENABLE (R189). -/
def execRxEnable (s : State) : Outcome :=
  accept .rxEnable s <| respond .done (disarm (resumeCapture { s with rxEn := true }))

/-- RX_DISABLE (R190). -/
def execRxDisable (s : State) : Outcome :=
  accept .rxDisable s <| respond .done (disarm { s with rxEn := false })

/-- RESUME (R191). -/
def execResume (s : State) : Outcome :=
  accept .resume s <| respond .done (resumeCapture s)

/-- RX_STATUS (R192): one atomic snapshot. -/
def execRxStatus (s : State) : Outcome :=
  accept .rxStatus s <|
    respond (.status s.rxEn (BitVec.ofNat 8 s.rcvState.code) s.rawLen s.overflow) s

/-! ## DECODE -/

/-- The copy of R195 and the RESUME after it. -/
def copyAndResume (s : State) : State :=
  resumeCapture
    { s with
      save := bankCopy s.params s.live s.rawLen.toNat s.save
      saveLen := s.rawLen
      saveOvf := s.overflow
      saveValid := true }

/-- The first protocol decoder of the list that knows the view (R196). -/
def firstMessage (decoders : List Nat) (E : List Nat) : Option Message :=
  decoders.findSome? fun n => Config.protocolDecoder n E

/-- `hashResult(h, bits)` (R198). -/
def hashMessage (h : U32) (bits : U16) : Message :=
  ⟨Config.unknownTag, bits, .int (h.setWidth 64), 0, 0, false⟩

/-- The protocol decoders in order, the hash strictly last (R193, R196, R197). -/
def dispatchView (p : Params) (E : List Nat) : Option Message :=
  match firstMessage p.decoders E with
  | some m => some m
  | none => (hashCore p.hashFold E).map fun r => hashMessage r.1 r.2

/-- DECODE (R193): not ready unless STOP; `save = 1` copies and resumes (R195), `save = 0` decodes in place
(R194). -/
def execDecode (save : Byte) (s : State) : Outcome :=
  accept (.decode save) s <|
    if s.rcvState = .stop then
      if isSet save then
        let t := copyAndResume s
        respond (.decoded ((dispatchView t.params (bankPrefix t.save t.saveLen.toNat)).map
          fun m => ⟨m, t.saveOvf, t.saveLen, 1⟩)) t
      else
        respond (.decoded ((dispatchView s.params (bankPrefix s.live s.rawLen.toNat)).map
          fun m => ⟨m, s.overflow, s.rawLen, 0⟩)) s
    else respond (.decoded none) s

/-! ## The handlers -/

/-- `interval(n, last)` in ticks, kept to P_ENTRY_BITS bits (R183). -/
def interval (p : Params) (n last : Nat) : Nat := trunc p.entryBits (subMod p.clockBits n last / p.tickUs)

/-- Steps 4 and 5 of R182: write the sentinel (first edge, R184) or the interval, count it, and remember the
edge. -/
def recordEdge (s : State) : State :=
  { s with
    rcvState := .mark
    live := bankWrite s.params s.live s.rawLen.toNat
      (if s.rcvState = .idle then Config.sentinel else interval s.params s.now s.lastEdge)
    rawLen := s.rawLen + 1
    lastEdge := s.now
    lastEdgeSet := true }

/-- The edge handler (R182), its seven steps in order. -/
def edgeHandler (s : State) : State :=
  let s := disarm s
  if overflowsOnArrival s then setOverflow s
  else if s.rcvState = .stop then s
  else
    let s := recordEdge s
    rearm (if overflowsOnFill s then setOverflow s else s)

/-- EV_EDGE (R182): while RX_EN = 0 a pin change causes no step and is lost (R180). -/
def execEvEdge (s : State) : Outcome :=
  if s.rxEn then .next (edgeHandler s) else .next s

/-- The idle-timeout handler (R186). -/
def timeoutHandler (s : State) : State :=
  let s := disarm s
  if s.rawLen = 0 then s else { s with rcvState := .stop }

/-- EV_TIMEOUT (R186): a turn at which the timeout is not enabled passes with no effect (R187, log 13). -/
def execEvTimeout (s : State) : Outcome :=
  if timeoutDue s then .next (timeoutHandler s) else .next s

end Sys2Proof.Machine
end

