-- ==== Sys2Proof/Machine/Carrier.lean ====
section
/-! DEFINITION. The carrier-modulated mark driver: ENABLE_IR_OUT, MARK, SPACE, LED_OFF and the output
waveform (spec/42_carrier_driver.md). -/

namespace Sys2Proof.Machine

/-! ## Carrier configuration -/

/-- The frequency in Hz: a value below 1000 is in kHz (R140). -/
def carrierHzOf (freq : Nat) : Nat := if freq < Config.khzSwitch then freq * 1000 else freq

/-- `round(1e6/hz)`, half up, raised to at least 1 (R141). -/
def carrierPeriod (hz : Nat) : Nat := max 1 ((2 * 1000000 + hz) / (2 * hz))

/-- `floor(period * dc / 100)` (R142). -/
def carrierOn (period dc : Nat) : Nat := period * dc / 100

/-- ENABLE_IR_OUT's writes, for a frequency that is not 0 (R140). -/
def configureCarrier (freq : U32) (duty : Byte) (s : State) : State :=
  let hz := carrierHzOf freq.toNat
  let dc := min duty.toNat 100
  let period := carrierPeriod hz
  let on := carrierOn period dc
  { s with
    carrierHz := BitVec.ofNat 32 hz
    duty := BitVec.ofNat 8 dc
    periodUs := BitVec.ofNat 32 period
    onUs := BitVec.ofNat 32 on
    offUs := BitVec.ofNat 32 (period - on)
    carrierValid := true }

/-- ENABLE_IR_OUT (R140). -/
def execEnableIrOut (freq : U32) (duty : Byte) (s : State) : Outcome :=
  accept (.enableIrOut freq duty) s <|
    if freq = 0 then .next (raiseFault .carrierFreqZero 0 s)
    else respond .done (configureCarrier freq duty s)

/-! ## The output waveform (R147) -/

/-- One MARK or SPACE call of a send; a send's envelope is the list of its calls (43_encoder.md). -/
inductive Pulse where
  | mark (us : Nat)
  | space (us : Nat)
deriving DecidableEq, Repr

/-- The duration of a MARK or SPACE call, in microseconds. -/
def Pulse.us : Pulse → Nat
  | .mark d => d
  | .space d => d

/-- OUT_WAVE, newest segment first, and how many microseconds the send in progress has emitted. -/
structure Output where
  wave : List Segment
  spent : Nat
deriving DecidableEq, Repr

/-- Append a segment that is not empty, merging it with an equal neighbour (R147). `opening` says that it is the
first segment of its command: a HIGH one then starts a segment of its own, since "no HIGH segment of one command
merges with a HIGH of another". R147's pseudocode would merge the two; that its prose is followed there is the
model's choice (log 28). A LOW one merges, as R145's example says. -/
def pushSegment (opening : Bool) (level : Level) (d : Nat) : List Segment → List Segment
  | [] => [⟨level, d⟩]
  | last :: older =>
    if last.level = level ∧ ¬(opening = true ∧ level = .high) then ⟨level, last.us + d⟩ :: older
    else ⟨level, d⟩ :: last :: older

/-- `emit(level, d)` (R147): a zero-length segment is not recorded. A command that has spent no time yet has
emitted nothing yet. -/
def emit (level : Level) (d : Nat) (o : Output) : Output :=
  if d = 0 then o else ⟨pushSegment (o.spent == 0) level d o.wave, o.spent + d⟩

/-- The loop of MARK (R144) with `left = d - t` microseconds to go: HIGH for ON_US, LOW for OFF_US, the final
cycle cut at the boundary. `fuel` bounds the passes; each pass of a configured carrier takes at least one
microsecond, so `fuel = d` runs the whole loop (log 20). -/
def markLoop (on off : Nat) : Nat → Nat → Output → Output
  | 0, _, o => o
  | fuel + 1, left, o =>
    if left = 0 then o
    else
      let h := min on left
      let o := emit .high h o
      if left - h = 0 then o
      else
        let l := min off (left - h)
        markLoop on off fuel (left - h - l) (emit .low l o)

/-- The waveform of one MARK or SPACE call (R144, R145). -/
def playPulse (on off : Nat) (o : Output) : Pulse → Output
  | .mark d => markLoop on off d d o
  | .space d => emit .low d o

/-- The waveform of an envelope. -/
def play (on off : Nat) (pulses : List Pulse) (o : Output) : Output := pulses.foldl (playPulse on off) o

/-- Send an envelope: its segments go to OUT_WAVE, the pin ends LOW (R144, R145), and the port is busy for the
sum of the durations emitted (R150). -/
def sendEnvelope (pulses : List Pulse) (s : State) : State :=
  let o := play s.onUs.toNat s.offUs.toNat pulses ⟨s.outWave, 0⟩
  { s with outWave := o.wave, outLevel := .low, busyUntil := s.tau + o.spent }

/-- OUT_WAVE in the order it was emitted (10_state.md R43; log 24). -/
def State.waveform (s : State) : List Segment := s.outWave.reverse

/-- MARK (R144), or CarrierUnconfigured (R143). -/
def execMark (d : U32) (s : State) : Outcome :=
  accept (.mark d) s <|
    if s.carrierValid then respond .done (sendEnvelope [.mark d.toNat] s)
    else .next (raiseFault .carrierUnconfigured 0 s)

/-- SPACE (R145): needs no carrier. -/
def execSpace (d : U32) (s : State) : Outcome :=
  accept (.space d) s <| respond .done (sendEnvelope [.space d.toNat] s)

/-- LED_OFF (R146): no segment, no time. -/
def execLedOff (s : State) : Outcome :=
  accept .ledOff s <| respond .done { s with outLevel := .low }

end Sys2Proof.Machine
end

