-- ==== Sys2Proof/Machine/Encoder.lean ====
section
/-! DEFINITION. The generic bitstream encoder: SEND_DATA and SEND_GENERIC (spec/43_encoder.md). -/

namespace Sys2Proof.Machine

/-- A bit's symbol: the mark first (R164). -/
def symbol (t : BitTimings) (b : Bool) : List Pulse :=
  if b then [.mark t.oneMark.toNat, .space t.oneSpace.toNat]
  else [.mark t.zeroMark.toNat, .space t.zeroSpace.toNat]

/-- The bits SEND_DATA sends, first first. MSB-first: `nbits - 64` zeros, then the low `min nbits 64` bits
from the top (R160, R161). LSB-first: bit 0 first, and zeros after bit 63 (R160, R162). -/
def dataBits (data : U64) (nbits : Nat) (msbFirst : Bool) : List Bool :=
  if msbFirst then
    List.replicate (nbits - 64) false ++ (List.range (min nbits 64)).reverse.map data.getLsbD
  else (List.range nbits).map data.getLsbD

/-- The envelope of SEND_DATA (R160). -/
def dataEnvelope (t : BitTimings) (data : U64) (nbits : Nat) (msbFirst : Bool) : List Pulse :=
  (dataBits data nbits msbFirst).flatMap (symbol t)

/-- A header or footer part: skipped when its duration is 0 (R167). -/
def partPulses (mk : Nat → Pulse) (d : U32) : List Pulse := if d = 0 then [] else [mk d.toNat]

/-- One frame of SEND_GENERIC: header, bytes in ascending order, 8 bits each, footer, gap (R165, R166, R167). -/
def frameEnvelope (o : SendGenericOps) : List Pulse :=
  partPulses .mark o.hdrMark ++ partPulses .space o.hdrSpace ++
    o.bytes.flatMap (fun b => dataEnvelope o.timings (b.setWidth 64) 8 (isSet o.msbFirst)) ++
    partPulses .mark o.footerMark ++ [.space o.gap.toNat]

/-- The `repeat + 1` frames of SEND_GENERIC (R168). -/
def genericEnvelope (o : SendGenericOps) : List Pulse :=
  (List.replicate (o.repeats.toNat + 1) (frameEnvelope o)).flatten

/-- The MARK and SPACE calls of a command. -/
def envelopeOf : Instr → List Pulse
  | .mark d => [.mark d.toNat]
  | .space d => [.space d.toNat]
  | .sendData o => dataEnvelope o.timings o.data o.nbits.toNat (isSet o.msbFirst)
  | .sendGeneric o => genericEnvelope o
  | .rxEnable | .rxDisable | .resume | .rxStatus | .decode _ | .timerReset _ | .timerElapsed _ => []
  | .enableIrOut _ _ | .ledOff | .ticksLow _ _ | .ticksHigh _ _ | .matchTicks _ _ _ | .matchMark _ _ _ _ => []
  | .matchSpace _ _ _ _ | .matchAtLeast _ _ _ _ | .matchData _ | .matchGeneric _ | .matchGenericInt _ => []
  | .decodeHash _ | .evEdge | .evTimeout => []

/-- SEND_DATA (R160). `nbits = 0` sends nothing and raises nothing (R163). -/
def execSendData (o : SendDataOps) (s : State) : Outcome :=
  accept (.sendData o) s <|
    if o.nbits = 0 then respond .done s
    else if s.carrierValid then
      respond .done (sendEnvelope (dataEnvelope o.timings o.data o.nbits.toNat (isSet o.msbFirst)) s)
    else .next (raiseFault .carrierUnconfigured 0 s)

/-- SEND_GENERIC (R165): ENABLE_IR_OUT first (R169), then the frames. -/
def execSendGeneric (o : SendGenericOps) (s : State) : Outcome :=
  accept (.sendGeneric o) s <|
    if o.freq = 0 then .next (raiseFault .carrierFreqZero 0 s)
    else respond .done (sendEnvelope (genericEnvelope o) (configureCarrier o.freq o.duty s))

end Sys2Proof.Machine
end

