-- ==== Sys2Proof/Machine/Stopwatch.lean ====
section
/-! DEFINITION. The stopwatches: TIMER_RESET and TIMER_ELAPSED (spec/41_timer.md). -/

namespace Sys2Proof.Machine

/-- TSTART[t] (10_state.md R44). -/
def State.timerStart (s : State) (t : Nat) : Nat := s.tStart.read t

/-- TSET[t] (10_state.md R44). -/
def State.timerIsSet (s : State) (t : Nat) : Bool := s.tSet.read t != 0

/-- TIMER_RESET (R130): `TSTART[t] <- now()`, `TSET[t] <- 1`. -/
def execTimerReset (t : Byte) (s : State) : Outcome :=
  accept (.timerReset t) s <|
    respond .done { s with tStart := s.tStart.write t.toNat s.now, tSet := s.tSet.write t.toNat 1 }

/-- TIMER_ELAPSED (R131, R132): the elapsed clock modulo 2^P_CLOCK_BITS, or TimerUnset. -/
def execTimerElapsed (t : Byte) (s : State) : Outcome :=
  accept (.timerElapsed t) s <|
    if s.timerIsSet t.toNat then
      respond (.elapsed (BitVec.ofNat 64 (subMod s.params.clockBits s.now (s.timerStart t.toNat)))) s
    else .next (raiseFault .timerUnset t.toNat s)

end Sys2Proof.Machine
end

