-- ==== Sys2Proof/Machine/Dispatch.lean ====
section
/-! DEFINITION. One arm for each command and event (spec/30_encoding.md R103). -/

namespace Sys2Proof.Machine

def exec (i : Instr) (s : State) : Host.Outcome State Fault Refusal :=
  match i with
  | .rxEnable => Sys2Proof.Machine.execRxEnable s
  | .rxDisable => Sys2Proof.Machine.execRxDisable s
  | .resume => Sys2Proof.Machine.execResume s
  | .rxStatus => Sys2Proof.Machine.execRxStatus s
  | .decode save => Sys2Proof.Machine.execDecode save s
  | .timerReset t => Sys2Proof.Machine.execTimerReset t s
  | .timerElapsed t => Sys2Proof.Machine.execTimerElapsed t s
  | .enableIrOut freq duty => Sys2Proof.Machine.execEnableIrOut freq duty s
  | .mark d => Sys2Proof.Machine.execMark d s
  | .space d => Sys2Proof.Machine.execSpace d s
  | .ledOff => Sys2Proof.Machine.execLedOff s
  | .sendData o => Sys2Proof.Machine.execSendData o s
  | .sendGeneric o => Sys2Proof.Machine.execSendGeneric o s
  | .ticksLow usecs tol => Sys2Proof.Machine.execTicksLow usecs tol s
  | .ticksHigh usecs tol => Sys2Proof.Machine.execTicksHigh usecs tol s
  | .matchTicks measured desired tol => Sys2Proof.Machine.execMatchTicks measured desired tol s
  | .matchMark measured desired tol excess => Sys2Proof.Machine.execMatchMark measured desired tol excess s
  | .matchSpace measured desired tol excess => Sys2Proof.Machine.execMatchSpace measured desired tol excess s
  | .matchAtLeast measured desired tol excess => Sys2Proof.Machine.execMatchAtLeast measured desired tol excess s
  | .matchData o => Sys2Proof.Machine.execMatchData o s
  | .matchGeneric o => Sys2Proof.Machine.execMatchGeneric o s
  | .matchGenericInt o => Sys2Proof.Machine.execMatchGenericInt o s
  | .decodeHash bank => Sys2Proof.Machine.execDecodeHash bank s
  | .evEdge => Sys2Proof.Machine.execEvEdge s
  | .evTimeout => Sys2Proof.Machine.execEvTimeout s

end Sys2Proof.Machine
end

