-- ==== Sys2Proof/Machine/Port.lean ====
section
/-! DEFINITION. How the next step comes about: taking a turn of the schedule, its packet of bytes, the command
port's refusals, and the machine with nothing to come (spec/20_memory.md R83, 60_exceptions.md R276, R278,
42_carrier_driver.md R150). -/

namespace Sys2Proof.Machine

/-- What the next step is. -/
inductive Action where
  /-- the machine is quiescent: no step is enabled (10_state.md R51, R52) -/
  | stop (f : Fault)
  /-- the packet is no command (log 15) -/
  | reject (r : Refusal)
  /-- this is the next state, with no command or handler run -/
  | settle (s : State)
  /-- the decoded command or event runs in this state -/
  | run (i : Instr) (s : State)
deriving DecidableEq, Repr

/-- The bytes of the command or event a source brings (30_encoding.md R100, R103, R104); a power cycle
brings none. -/
def Source.packet : Source → List Byte
  | .command packet => packet
  | .edge => [0x80]
  | .timeout => [0x81]
  | .powerOn => []

/-- The state in which a turn's step happens: real time has passed, and the turn is taken off the schedule.
The command port blocks until a send in progress has ended (42_carrier_driver.md R150, log 12); handlers and
power do not wait. -/
def atTurn (turn : Turn) (rest : List Turn) (s : State) : State :=
  { s with
    schedule := rest
    tau :=
      match turn.source with
      | .command _ => max (s.tau + turn.dt) s.busyUntil
      | .edge => s.tau + turn.dt
      | .timeout => s.tau + turn.dt
      | .powerOn => s.tau + turn.dt }

/-- A command of the port: an EVENT code is refused (30_encoding.md R107, 60_exceptions.md R276). -/
def portAction (packet : List Byte) (s : State) : Action :=
  match decode packet with
  | .instr i => if i.isEvent then .settle (refuse .eventNotCommand i.opcode.toNat s) else .run i s
  | .unknownOpcode op => .settle (refuse .unknownOpcode op.toNat s)
  | .wrongLength op =>
    if op = 0x80 ∨ op = 0x81 then .settle (refuse .eventNotCommand op.toNat s)
    else .reject (.wrongLength op)
  | .empty => .reject .emptyPacket

/-- With nothing to come, an armed timeout fires at its deadline: an enabled EV_TIMEOUT eventually happens
(44_capture.md R188, 70_reset_and_hazards.md R318, log 14). Otherwise nothing happens. -/
def idleAction (s : State) : Action :=
  if s.toArmed then .run .evTimeout { s with tau := max s.tau s.toDeadline } else .settle s

/-- The next step's action. Power-on is taken even by a quiescent machine (70_reset_and_hazards.md R302);
otherwise a quiescent machine takes no step. -/
def nextAction (s : State) : Action :=
  match s.schedule with
  | [] =>
    match haltedBy s with
    | some f => .stop f
    | none => idleAction s
  | turn :: rest =>
    match turn.source with
    | .powerOn => .settle (powerOn (atTurn turn rest s))
    | .command packet =>
      match haltedBy s with
      | some f => .stop f
      | none => portAction packet (atTurn turn rest s)
    | .edge =>
      match haltedBy s with
      | some f => .stop f
      | none => .run .evEdge (atTurn turn rest s)
    | .timeout =>
      match haltedBy s with
      | some f => .stop f
      | none => .run .evTimeout (atTurn turn rest s)

/-- The turn that brings a word of the opcode table: an event code is raised by the hardware, any other is
issued on the port (30_encoding.md R100, R107; log 22). -/
def turnOfWord (nbits w : Nat) : Turn :=
  let packet := packetOfWord nbits w
  if packet = [0x80] then ⟨0, .edge⟩
  else if packet = [0x81] then ⟨0, .timeout⟩
  else ⟨0, .command packet⟩

end Sys2Proof.Machine
end

