-- ==== Sys2Proof/Machine/Step.lean ====
section
/-! DEFINITION. One step: the next turn of the schedule (spec/20_memory.md R83). -/

namespace Sys2Proof.Machine

/-- One atomic step of one agent (00_scope.md R6). -/
def step (s : State) : Host.Outcome State Fault Refusal :=
  match nextAction s with
  | .stop f => .fault f
  | .reject r => .refused r
  | .settle t => .next t
  | .run i t => exec i t

/-- The state in which the very next turn brings the instruction of a word of spec/opcode_table.json: the
host issues it on the port, or, for an event, the hardware raises it (log 2, 22). -/
def State.withFetchWord (s : State) (nbits w : Nat) : State :=
  { s with schedule := turnOfWord nbits w :: s.schedule }

end Sys2Proof.Machine
end

