-- ==== Sys2Proof/Safety.lean ====
section
/-! DEFINITION. The terms claims about runs are stated in: a running machine, the invariants of the registers,
and the durations of a waveform (spec/10_state.md R46, R51, R52, 42_carrier_driver.md R147). -/

namespace Sys2Proof.Machine

/-- Neither FAULT nor REFUSED is set: steps are enabled (10_state.md R51, R52). -/
def State.Running (s : State) : Prop := s.fault = none ∧ s.refused = none

/-- The invariants I1 to I6 of 10_state.md R46, with what they rest on: parameters in the domains of R8 and
R9, a LIVE bank in canonical form, and the timer's and SAVE's registers (R38, R39). -/
structure CaptureInv (s : State) : Prop where
  params_valid : s.params.Valid
  live_wf : s.live.wf = true
  /-- I1 -/
  idle_empty : s.rcvState = .idle → s.rawLen = 0
  /-- I2 -/
  length_le : s.rawLen.toNat ≤ s.params.rawBufSize
  /-- I3 -/
  mark_nonempty : s.rcvState = .mark → 1 ≤ s.rawLen.toNat ∧ s.lastEdgeSet = true
  /-- I3, P_OVERFLOW_ON_FILL = true -/
  mark_room : s.rcvState = .mark → s.params.overflowOnFill = true → s.rawLen.toNat < s.params.rawBufSize
  /-- I4 -/
  overflow_stops : s.overflow = true → s.rcvState = .stop
  /-- I5 -/
  sentinel_first : 1 ≤ s.rawLen.toNat → bankRead s.live 0 = Config.sentinel
  /-- I6 -/
  disabled_disarmed : s.rxEn = false → s.toArmed = false
  /-- TO_DEADLINE is read only while TO_ARMED = 1, and then it has been written (R38, 60_exceptions.md R271) -/
  armed_deadline : s.toArmed = true → s.toDeadlineSet = true
  /-- the copy fits (20_memory.md R73) -/
  save_length_le : s.saveValid = true → s.saveLen.toNat ≤ s.params.rawBufSize

/-- Every indexed store is in canonical form and within its bounds: bank indices below P_RAWBUF_SIZE, entries
of P_ENTRY_BITS bits, stopwatches below P_NUM_IRTIMERS, clock values of P_CLOCK_BITS bits (20_memory.md R70,
10_state.md R36, R37, R44). -/
structure StoreInv (s : State) : Prop where
  wf : Memory.wf s = true
  live_bounds : ∀ c ∈ s.live, c.1 < s.params.rawBufSize ∧ c.2 < 2 ^ s.params.entryBits
  save_bounds : ∀ c ∈ s.save, c.1 < s.params.rawBufSize ∧ c.2 < 2 ^ s.params.entryBits
  start_bounds : ∀ c ∈ s.tStart, c.1 < s.params.numTimers ∧ c.2 < 2 ^ s.params.clockBits
  set_bounds : ∀ c ∈ s.tSet, c.1 < s.params.numTimers ∧ c.2 = 1
  offset_bound : s.clockOffset < 2 ^ s.params.clockBits
  lastEdge_bound : s.lastEdge < 2 ^ s.params.clockBits

/-- The carrier registers and the waveform: `ON_US + OFF_US = PERIOD_US >= 1` once configured, a duty of at
most 100 (10_state.md R41), the pin LOW between commands (R42), and OUT_WAVE without empty segments or LOW
neighbours (42_carrier_driver.md R147); two HIGH neighbours are of two commands (log 28). -/
structure DriverInv (s : State) : Prop where
  on_off : s.carrierValid = true → s.onUs.toNat + s.offUs.toNat = s.periodUs.toNat
  period_pos : s.carrierValid = true → 1 ≤ s.periodUs.toNat
  duty_le : s.carrierValid = true → s.duty.toNat ≤ 100
  pin_low : s.outLevel = .low
  segments_pos : ∀ g ∈ s.outWave, 1 ≤ g.us
  low_merged : s.outWave.IsChain (fun a b => a.level = .low → b.level = .high)

/-- The stop records: FAULT holds a code 1 to 5 (UnwrittenRead, 6, is never raised: 60_exceptions.md R271),
REFUSED a code 0x81 to 0x83 (R276), and at most one of them is set. -/
structure RecordInv (s : State) : Prop where
  fault_code : ∀ r, s.fault = some r → 1 ≤ r.code.toNat ∧ r.code.toNat ≤ 5
  refusal_code : ∀ r, s.refused = some r → 0x81 ≤ r.code.toNat ∧ r.code.toNat ≤ 0x83
  one_record : s.fault = none ∨ s.refused = none

/-- The total duration of a waveform, in microseconds. -/
def waveTotal (w : List Segment) : Nat := (w.map Segment.us).sum

/-- How long a waveform is HIGH, in microseconds. -/
def waveHigh (w : List Segment) : Nat := ((w.filter fun g => g.level == .high).map Segment.us).sum

/-- A waveform, oldest segment first, microsecond by microsecond. -/
def waveLevels (w : List Segment) : List Level := w.flatMap fun g => List.replicate g.us g.level

/-- The levels of a MARK or SPACE call, microsecond by microsecond (42_carrier_driver.md R144, R145): a mark is
HIGH for the first `on` microseconds of each cycle and LOW for the `off` after them; a space is LOW. -/
def Pulse.levels (on off : Nat) : Pulse → List Level
  | .mark d => (List.range d).map fun k => if k % (on + off) < on then .high else .low
  | .space d => List.replicate d .low

/-- The entries `E` that a bank shows a matching command (20_memory.md R75): LIVE (0) in STOP, SAVE (1) once
valid. -/
def ViewIs (bank : Byte) (s : State) (E : List Nat) : Prop :=
  (bank = 0 ∧ s.rcvState = .stop ∧ E = bankPrefix s.live s.rawLen.toNat) ∨
    (bank = 1 ∧ s.saveValid = true ∧ E = bankPrefix s.save s.saveLen.toNat)

/-- The integer a sequence of received bits stands for (00_scope.md R13, 46_decoder.md R242): MSB-first, the
first bit is the highest; LSB-first, the first bit is bit 0. -/
def bitsValue (msbFirst : Bool) (bits : List Bool) : Nat :=
  if msbFirst then bits.foldl (fun v b => 2 * v + b.toNat) 0 else bits.foldr (fun b v => b.toNat + 2 * v) 0

/-- The answer of DECODE on a view (44_capture.md R196, R197, R198): the first protocol decoder that knows the
view; if none does, the hash of a view of 6 entries or more, tag UNKNOWN; else none. -/
def DecodedAs (p : Params) (E : List Nat) (overflow : Bool) (len : U16) (bank : Byte)
    (answer : Option DecodeRecord) : Prop :=
  (∀ before n after m, p.decoders = before ++ n :: after → (∀ k ∈ before, Config.protocolDecoder k E = none) →
      Config.protocolDecoder n E = some m → answer = some ⟨m, overflow, len, bank⟩) ∧
    ((∀ k ∈ p.decoders, Config.protocolDecoder k E = none) → 6 ≤ E.length →
      answer = some ⟨⟨-1, BitVec.ofNat 16 (E.length / 2),
        .int ((compareSequence E).foldl (foldHash p.hashFold) 2166136261 |>.setWidth 64), 0, 0, false⟩,
        overflow, len, bank⟩) ∧
    ((∀ k ∈ p.decoders, Config.protocolDecoder k E = none) → E.length < 6 → answer = none)

/-- A decoded bit of the view at position `p` (46_decoder.md R240). -/
def bitAt (T : Nat) (t : BitTimings) (tol : Byte) (excess : S16) (E : List Nat) (p : Nat) : Option Bool :=
  classify T t tol.toNat excess.toInt (E.getD p 0) (E.getD (p + 1) 0)

end Sys2Proof.Machine
end

