-- ==== Sys2Proof/Certificates/Slice0/Obligations.lean ====
section
/-! DEFINITION. What is to be proved of the model. The docstring of each statement says which rule of spec/ it
formalises; what it leaves to the model's choice is said there with the log entry. -/

open Sys2Proof Sys2Proof.Machine

/-! ## Encoding -/

/-- 30_encoding.md R103, R104, R108: the decoder reads every serialised command or event back, every operand at
every value its width admits. -/
def Obligations.DecodeOfEncode : Prop :=
  ∀ i : Instr, decode (encode i) = .instr i

/-- 30_encoding.md R103, R104, R111: a packet that decodes to a command is that command's serialisation, so no
bit of a packet is dropped and no two packets stand for one command. -/
def Obligations.EncodeOfDecode : Prop :=
  ∀ (packet : List Byte) (i : Instr), decode packet = .instr i → encode i = packet

/-- 30_encoding.md R107: exactly the opcodes of R107's list of reserved codes are unknown. -/
def Obligations.ReservedOpcodesAreUnknown : Prop :=
  ∀ (op : Byte) (operands : List Byte), decode (op :: operands) = .unknownOpcode op ↔
    (op.toNat = 0x00 ∨ (0x06 ≤ op.toNat ∧ op.toNat ≤ 0x0F) ∨ (0x12 ≤ op.toNat ∧ op.toNat ≤ 0x1F) ∨
      (0x24 ≤ op.toNat ∧ op.toNat ≤ 0x2F) ∨ (0x32 ≤ op.toNat ∧ op.toNat ≤ 0x3F) ∨
      (0x46 ≤ op.toNat ∧ op.toNat ≤ 0x4F) ∨ (0x54 ≤ op.toNat ∧ op.toNat ≤ 0x7F) ∨ 0x82 ≤ op.toNat)

/-- Words written out in the spec: R104's worked example, and the serialisations of 95_test_vectors.md 2.2, 2.5
and 2.10. -/
def Obligations.SpecWordsDecode : Prop :=
  decode [0x21, 0x30, 0x02, 0x00, 0x00] = .instr (.mark 560) ∧
    decode [0x43, 0x18, 0x01, 0x00, 0x00, 0x30, 0x02, 0x00, 0x00, 0x19, 0xCE, 0xFF] =
      .instr (.matchMark 280 560 25 (-50)) ∧
    decode [0x41, 0xCE, 0xFF, 0xFF, 0xFF, 0xFF, 0xFF, 0xFF, 0xFF, 0x19] = .instr (.ticksHigh (-50) 25) ∧
    decode [0x20, 0xA0, 0x8C, 0x00, 0x00, 0x19] = .instr (.enableIrOut 36000 25) ∧
    decode [0x11, 0x00] = .instr (.timerElapsed 0) ∧ decode [0x53, 0x01] = .instr (.decodeHash 1)

/-! ## The step, refusals and faults -/

/-- 20_memory.md R83, 44_capture.md R180, R188, 42_carrier_driver.md R150: a step of a running machine is `exec`
of the decoded command, at the time of its turn and not before the port is free; an edge turn is `exec` of
EV_EDGE, a timeout turn of EV_TIMEOUT; with nothing to come an armed timeout fires at its deadline (log 14) and
a disarmed machine stays as it is. The schedule is the model's own (log 2, 12). -/
def Obligations.StepRunsTheDecodedInstruction : Prop :=
  ∀ s : State, s.Running →
    (∀ dt packet rest i, s.schedule = ⟨dt, .command packet⟩ :: rest → decode packet = .instr i →
      i.isEvent = false →
      step s = exec i { s with schedule := rest, tau := max (s.tau + dt) s.busyUntil }) ∧
    (∀ dt rest, s.schedule = ⟨dt, .edge⟩ :: rest →
      step s = exec .evEdge { s with schedule := rest, tau := s.tau + dt }) ∧
    (∀ dt rest, s.schedule = ⟨dt, .timeout⟩ :: rest →
      step s = exec .evTimeout { s with schedule := rest, tau := s.tau + dt }) ∧
    (s.schedule = [] → s.toArmed = true → step s = exec .evTimeout { s with tau := max s.tau s.toDeadline }) ∧
    (s.schedule = [] → s.toArmed = false → step s = .next s)

/-- 30_encoding.md R107, 60_exceptions.md R276: a reserved opcode on the command port is refused as
UnknownOpcode (0x81) and an event code as EventNotCommand (0x82), each with the code as info; REFUSED is all
that changes but for the turn's passing (log 2, 12). -/
def Obligations.PortRefusesUnknownAndEventCodes : Prop :=
  ∀ (s : State) (dt : Nat) (op : Byte) (operands : List Byte) (rest : List Turn), s.Running →
    s.schedule = ⟨dt, .command (op :: operands)⟩ :: rest →
    (decode (op :: operands) = .unknownOpcode op →
      step s = .next { s with
        schedule := rest, tau := max (s.tau + dt) s.busyUntil, refused := some ⟨0x81, op.setWidth 32⟩ }) ∧
    (op = 0x80 ∨ op = 0x81 →
      step s = .next { s with
        schedule := rest, tau := max (s.tau + dt) s.busyUntil, refused := some ⟨0x82, op.setWidth 32⟩ })

/-- 30_encoding.md R107, 60_exceptions.md R274, R276: the first illegal operand, in the order of R103, refuses
the command as BadOperand (0x83) with the operand's position, and nothing else changes. -/
def Obligations.IllegalOperandsAreRefused : Prop :=
  ∀ s : State,
    (∀ save : Byte, save ≠ 0 → save ≠ 1 → exec (.decode save) s = .next { s with refused := some ⟨0x83, 0⟩ }) ∧
    (∀ t : Byte, s.params.numTimers ≤ t.toNat →
      exec (.timerReset t) s = .next { s with refused := some ⟨0x83, 0⟩ } ∧
        exec (.timerElapsed t) s = .next { s with refused := some ⟨0x83, 0⟩ }) ∧
    (∀ o : SendDataOps, o.msbFirst ≠ 0 → o.msbFirst ≠ 1 →
      exec (.sendData o) s = .next { s with refused := some ⟨0x83, 6⟩ }) ∧
    (∀ o : SendGenericOps,
      (o.msbFirst ≠ 0 → o.msbFirst ≠ 1 → exec (.sendGeneric o) s = .next { s with refused := some ⟨0x83, 10⟩ }) ∧
        (o.msbFirst = 0 ∨ o.msbFirst = 1 → o.nbytes.toNat ≠ o.bytes.length →
          exec (.sendGeneric o) s = .next { s with refused := some ⟨0x83, 12⟩ })) ∧
    (∀ o : MatchDataOps,
      (o.bank ≠ 0 → o.bank ≠ 1 → exec (.matchData o) s = .next { s with refused := some ⟨0x83, 0⟩ }) ∧
        (o.bank = 0 ∨ o.bank = 1 → o.msbFirst ≠ 0 → o.msbFirst ≠ 1 →
          exec (.matchData o) s = .next { s with refused := some ⟨0x83, 9⟩ })) ∧
    (∀ o : SectionOps,
      (o.bank ≠ 0 → o.bank ≠ 1 →
        exec (.matchGeneric o) s = .next { s with refused := some ⟨0x83, 0⟩ } ∧
          exec (.matchGenericInt o) s = .next { s with refused := some ⟨0x83, 0⟩ }) ∧
        (o.bank = 0 ∨ o.bank = 1 → o.isLast ≠ 0 → o.isLast ≠ 1 →
          exec (.matchGeneric o) s = .next { s with refused := some ⟨0x83, 11⟩ } ∧
            exec (.matchGenericInt o) s = .next { s with refused := some ⟨0x83, 11⟩ }) ∧
        (o.bank = 0 ∨ o.bank = 1 → o.isLast = 0 ∨ o.isLast = 1 → o.msbFirst ≠ 0 → o.msbFirst ≠ 1 →
          exec (.matchGeneric o) s = .next { s with refused := some ⟨0x83, 14⟩ } ∧
            exec (.matchGenericInt o) s = .next { s with refused := some ⟨0x83, 14⟩ })) ∧
    (∀ bank : Byte, bank ≠ 0 → bank ≠ 1 →
      exec (.decodeHash bank) s = .next { s with refused := some ⟨0x83, 0⟩ })

/-- 60_exceptions.md R272: a command that raises a fault changes the fault record and nothing else (so no
segment, no carrier register, no entry, no result), and the machine then takes no step until power-on. -/
def Obligations.FaultsArePrecise : Prop :=
  ∀ (i : Instr) (s t : State) (r : StopRecord), s.fault = none → exec i s = .next t → t.fault = some r →
    t = { s with fault := some r } ∧
      ((∀ dt rest, t.schedule ≠ ⟨dt, .powerOn⟩ :: rest) → step t = .fault (.haltedByFault r))

/-- 60_exceptions.md R276, 10_state.md R52: a meaning refuses only a command with an illegal operand, as
BadOperand, and then REFUSED is all it changes. -/
def Obligations.RefusalsArePrecise : Prop :=
  ∀ (i : Instr) (s t : State) (r : StopRecord), s.refused = none → exec i s = .next t → t.refused = some r →
    t = { s with refused := some r } ∧ r.code = 0x83 ∧ i.wf s.params.numTimers = false

/-- 10_state.md R51, R52, 70_reset_and_hazards.md R302: with FAULT or REFUSED set no step is enabled, and only a
power-on clears the records. That the stop is Lean's outcome `fault`, and that power-on is a turn, are the
model's choices (log 16, 18). -/
def Obligations.OnlyPowerOnLeavesAStop : Prop :=
  ∀ s : State,
    (∀ r, s.fault = some r → (∀ dt rest, s.schedule ≠ ⟨dt, .powerOn⟩ :: rest) →
      step s = .fault (.haltedByFault r)) ∧
    (∀ r, s.fault = none → s.refused = some r → (∀ dt rest, s.schedule ≠ ⟨dt, .powerOn⟩ :: rest) →
      step s = .fault (.haltedByRefusal r)) ∧
    (∀ dt rest, s.schedule = ⟨dt, .powerOn⟩ :: rest →
      ∃ t, step s = .next t ∧ t.fault = none ∧ t.refused = none ∧ t.rxEn = false ∧ t.rcvState = .idle ∧
        t.rawLen = 0 ∧ t.overflow = false ∧ t.toArmed = false ∧ t.saveValid = false ∧ t.carrierValid = false ∧
        t.outLevel = .low ∧ t.outWave = [] ∧ (∀ k, t.timerIsSet k = false) ∧ t.tau = s.tau + dt ∧
        t.params = s.params)

/-- 60_exceptions.md R270, R276, R277: every command and every handler answers a next state, on every state and
every operand; none of them stops the model. -/
def Obligations.EveryInstructionAnswersANextState : Prop :=
  ∀ (i : Instr) (s : State), ∃ t, exec i s = .next t

/-! ## Time -/

/-- 10_state.md R36: real time is never decreased by a step, and no command or handler writes CLOCK. That the
parameters of 00_scope.md R8 stand in the state, where no command or handler writes them, is the model's choice
(log 1). -/
def Obligations.TimeOnlyAdvances : Prop :=
  (∀ s t : State, step s = .next t → s.tau ≤ t.tau) ∧
    ∀ (i : Instr) (s t : State), exec i s = .next t →
      t.tau = s.tau ∧ t.clockOffset = s.clockOffset ∧ t.params = s.params ∧ t.now = s.now

/-- 42_carrier_driver.md R150, 70_reset_and_hazards.md R317: a command that emits makes the port busy for the sum
of the durations it emitted, and a command step never happens before the port is free. -/
def Obligations.SendsOccupyThePort : Prop :=
  (∀ (i : Instr) (s t : State), exec i s = .next t →
    (t.outWave = s.outWave ∧ (t.busyUntil = s.busyUntil ∨ t.busyUntil = s.tau)) ∨
      (waveTotal s.outWave ≤ waveTotal t.outWave ∧
        t.busyUntil = s.tau + (waveTotal t.outWave - waveTotal s.outWave))) ∧
    ∀ (s t : State) (dt : Nat) (packet : List Byte) (rest : List Turn),
      s.schedule = ⟨dt, .command packet⟩ :: rest → step s = .next t → s.busyUntil ≤ t.tau

/-! ## Capture -/

/-- 44_capture.md R191: RESUME, its encoding, its three writes, and its idempotence. -/
def Obligations.ResumeDiscardsTheCapture : Prop :=
  decode [0x03] = .instr .resume ∧
    ∀ s : State,
      exec .resume s =
        .next { s with rcvState := .idle, rawLen := 0, overflow := false, results := .done :: s.results } ∧
      ∀ t u : State, exec .resume s = .next t → exec .resume t = .next u →
        u = { t with results := .done :: t.results }

/-- 44_capture.md R189, R190: RX_ENABLE and RX_DISABLE, whole states. -/
def Obligations.ReceiverIsTurnedOnAndOff : Prop :=
  ∀ s : State,
    exec .rxEnable s =
      .next { s with
        rxEn := true, rcvState := .idle, rawLen := 0, overflow := false, toArmed := false,
        results := .done :: s.results } ∧
    exec .rxDisable s = .next { s with rxEn := false, toArmed := false, results := .done :: s.results }

/-- 44_capture.md R192, 10_state.md R33: RX_STATUS returns the four registers, RCVSTATE by its code (IDLE 0,
MARK 1, STOP 2), and writes no state. -/
def Obligations.StatusReportsTheRegisters : Prop :=
  ∀ s : State, ∃ code : Byte,
    exec .rxStatus s = .next { s with results := .status s.rxEn code s.rawLen s.overflow :: s.results } ∧
      (s.rcvState = .idle ↔ code = 0) ∧ (s.rcvState = .mark ↔ code = 1) ∧ (s.rcvState = .stop ↔ code = 2)

/-- 44_capture.md R182 (steps 1, 4, 5, 7), R184: the first edge of a message writes the sentinel 1 at entry 0,
enters MARK, remembers the edge and arms the timeout; every other entry and register is unchanged. -/
def Obligations.FirstEdgeWritesTheSentinel : Prop :=
  ∀ s : State, s.rxEn = true → s.rcvState = .idle → s.rawLen = 0 → s.params.Valid → 2 ≤ s.params.rawBufSize →
    s.live.wf = true →
    ∃ t, exec .evEdge s = .next t ∧ bankRead t.live 0 = 1 ∧
      (∀ k, k ≠ 0 → bankRead t.live k = bankRead s.live k) ∧
      t = { s with
        rcvState := .mark, rawLen := 1, live := t.live, lastEdge := s.now, lastEdgeSet := true, toArmed := true,
        toDeadline := s.tau + s.params.timeoutUs, toDeadlineSet := true }

/-- 44_capture.md R182, R183, 41_timer.md R133: a further edge writes, at index RAWLEN, the ticks since the
previous edge: the real time since then modulo 2^P_CLOCK_BITS, divided by P_TICK_US rounding down, kept to
P_ENTRY_BITS bits. It stays in MARK and re-arms; every other entry and register is unchanged. -/
def Obligations.EdgeRecordsTheInterval : Prop :=
  ∀ (s : State) (previous : Nat), s.rxEn = true → s.rcvState = .mark → s.params.Valid →
    s.rawLen.toNat + 1 < s.params.rawBufSize → s.live.wf = true →
    previous ≤ s.tau → s.lastEdge = (previous + s.clockOffset) % 2 ^ s.params.clockBits →
    ∃ t, exec .evEdge s = .next t ∧
      bankRead t.live s.rawLen.toNat =
        (s.tau - previous) % 2 ^ s.params.clockBits / s.params.tickUs % 2 ^ s.params.entryBits ∧
      (∀ k, k ≠ s.rawLen.toNat → bankRead t.live k = bankRead s.live k) ∧
      t.rawLen.toNat = s.rawLen.toNat + 1 ∧
      t = { s with
        rawLen := t.rawLen, live := t.live, lastEdge := s.now, lastEdgeSet := true, toArmed := true,
        toDeadline := s.tau + s.params.timeoutUs, toDeadlineSet := true }

/-- 44_capture.md R182 (steps 2 to 7), R184, R185: with P_OVERFLOW_ON_FILL true, the edge that fills the bank
writes the last entry and then sets OVERFLOW and STOP; with false, that edge stays in MARK, and an edge that finds
the bank full writes nothing and sets OVERFLOW and STOP. The edge that fills may be a message's first, which writes
the sentinel (a bank of one entry, 00_scope.md R8), or a further one, which writes its interval. No index past the
last entry changes. -/
def Obligations.FullBankOverflows : Prop :=
  ∀ s : State, s.rxEn = true → s.params.Valid → s.live.wf = true →
    (s.rcvState ≠ .stop → s.rawLen.toNat + 1 = s.params.rawBufSize →
      ∃ t, exec .evEdge s = .next t ∧ t.rawLen.toNat = s.params.rawBufSize ∧
        bankRead t.live s.rawLen.toNat =
          (if s.rcvState = .idle then 1 else interval s.params s.now s.lastEdge) ∧
        (∀ k, k ≠ s.rawLen.toNat → bankRead t.live k = bankRead s.live k) ∧
        t = { s with
          rawLen := t.rawLen, live := t.live, lastEdge := s.now, lastEdgeSet := true, toArmed := true,
          toDeadline := s.tau + s.params.timeoutUs, toDeadlineSet := true,
          overflow := if s.params.overflowOnFill then true else s.overflow,
          rcvState := if s.params.overflowOnFill then .stop else .mark }) ∧
    (s.params.overflowOnFill = false → s.rcvState ≠ .stop → s.params.rawBufSize ≤ s.rawLen.toNat →
      exec .evEdge s = .next { s with toArmed := false, overflow := true, rcvState := .stop })

/-- 44_capture.md R180, R182 (step 3): with the receiver off an edge is lost; in STOP it only disarms the
timeout. -/
def Obligations.EdgesAreIgnored : Prop :=
  ∀ s : State,
    (s.rxEn = false → exec .evEdge s = .next s) ∧
    (s.rxEn = true → s.rcvState = .stop → exec .evEdge s = .next { s with toArmed := false })

/-- 44_capture.md R186: EV_TIMEOUT is enabled only while TO_ARMED = 1 and tau >= TO_DEADLINE; it clears TO_ARMED
and, if an entry has been captured, sets STOP. A turn at which it is not enabled changes nothing (log 13). -/
def Obligations.TimeoutEndsTheCapture : Prop :=
  ∀ s : State,
    (s.toArmed = true → s.toDeadline ≤ s.tau → s.rawLen ≠ 0 →
      exec .evTimeout s = .next { s with toArmed := false, rcvState := .stop }) ∧
    (s.toArmed = true → s.toDeadline ≤ s.tau → s.rawLen = 0 →
      exec .evTimeout s = .next { s with toArmed := false }) ∧
    (s.toArmed = false ∨ s.tau < s.toDeadline → exec .evTimeout s = .next s)

/-- 44_capture.md R187: when an edge and a due timeout are both pending at one tau, both orders are runs of the
model. Edge first: it is recorded, re-arms, and the message goes on. Timeout first: the capture ends and the edge
is ignored. -/
def Obligations.EdgeAndTimeoutRaceBothWays : Prop :=
  ∀ (s : State) (rest : List Turn), s.Running → s.params.Valid → s.rxEn = true → s.rcvState = .mark →
    1 ≤ s.rawLen.toNat → s.rawLen.toNat + 1 < s.params.rawBufSize → s.toArmed = true → s.toDeadline ≤ s.tau →
    (∃ t, core.run 2 { s with schedule := ⟨0, .edge⟩ :: ⟨0, .timeout⟩ :: rest } = .next t ∧
      t.rcvState = .mark ∧ t.rawLen.toNat = s.rawLen.toNat + 1 ∧ t.toArmed = true) ∧
    (∃ t, core.run 2 { s with schedule := ⟨0, .timeout⟩ :: ⟨0, .edge⟩ :: rest } = .next t ∧
      t.rcvState = .stop ∧ t.rawLen = s.rawLen ∧ t.live = s.live ∧ t.toArmed = false)

/-- 70_reset_and_hazards.md R318, 44_capture.md R188: a capture with entries and an armed timeout, with no more
turns to come, reaches STOP, not before the deadline. That the model fires at once then is its choice (log 14). -/
def Obligations.AbandonedCaptureReachesStop : Prop :=
  ∀ s : State, s.Running → s.schedule = [] → s.toArmed = true → s.rawLen ≠ 0 →
    ∃ t, step s = .next t ∧ t.rcvState = .stop ∧ t.rawLen = s.rawLen ∧ s.toDeadline ≤ t.tau ∧ s.tau ≤ t.tau

/-- 10_state.md R46 (I7): in STOP nothing but RESUME, RX_ENABLE and a DECODE that copies (which runs RESUME, log
23) changes RCVSTATE, RAWLEN, OVERFLOW or an entry of LIVE. -/
def Obligations.StoppedCaptureIsStable : Prop :=
  ∀ (i : Instr) (s t : State), s.rcvState = .stop → exec i s = .next t →
    i ≠ .resume → i ≠ .rxEnable → i ≠ .decode 1 →
    t.rcvState = .stop ∧ t.rawLen = s.rawLen ∧ t.overflow = s.overflow ∧
      ∀ k, bankRead t.live k = bankRead s.live k

/-- 44_capture.md R193: DECODE outside STOP is not ready and changes nothing. -/
def Obligations.DecodeIsNotReady : Prop :=
  ∀ (s : State) (save : Byte), save = 0 ∨ save = 1 → s.rcvState ≠ .stop →
    exec (.decode save) s = .next { s with results := .decoded none :: s.results }

/-- 44_capture.md R193, R195, R196, R197, R198: DECODE with save = 1 in STOP copies entries 0 .. RAWLEN-1 to SAVE
and leaves SAVE's other entries, sets SAVE_LEN, SAVE_OVF and SAVE_VALID, resumes, and answers from the copy. LIVE
and every other register are unchanged. The tag of a hash answer, UNKNOWN = -1, is presumed: R198 marks the number
as general knowledge (log 25). -/
def Obligations.DecodeCopiesAndResumes : Prop :=
  ∀ s : State, s.rcvState = .stop → s.rawLen.toNat ≤ s.params.rawBufSize → StoreInv s →
    ∃ t answer, exec (.decode 1) s = .next t ∧
      (∀ k, k < s.rawLen.toNat → bankRead t.save k = bankRead s.live k) ∧
      (∀ k, s.rawLen.toNat ≤ k → bankRead t.save k = bankRead s.save k) ∧
      DecodedAs s.params (bankPrefix s.live s.rawLen.toNat) s.overflow s.rawLen 1 answer ∧
      t = { s with
        save := t.save, saveLen := s.rawLen, saveOvf := s.overflow, saveValid := true,
        rcvState := .idle, rawLen := 0, overflow := false, results := .decoded answer :: s.results }

/-- 44_capture.md R193, R194, R196, R197, R198: DECODE with save = 0 in STOP answers from LIVE and changes
nothing. The tag of a hash answer, UNKNOWN = -1, is presumed: R198 marks the number as general knowledge
(log 25). -/
def Obligations.DecodeInPlaceKeepsTheCapture : Prop :=
  ∀ s : State, s.rcvState = .stop →
    ∃ answer, DecodedAs s.params (bankPrefix s.live s.rawLen.toNat) s.overflow s.rawLen 0 answer ∧
      exec (.decode 0) s = .next { s with results := .decoded answer :: s.results }

/-- 10_state.md R32 to R35, R37 to R44, 20_memory.md R71, R73, R84 (a): each register is written only by the
commands and handlers the spec names as its writers; only an edge arms the timeout, and CARRIER_VALID is never
cleared by a command. That a DECODE that copies writes RCVSTATE, RAWLEN and OVERFLOW rests on its running RESUME
(44_capture.md R195), where R33 to R35 name RESUME only (log 23). -/
def Obligations.RegistersHaveOnlyTheirWriters : Prop :=
  ∀ (i : Instr) (s t : State), exec i s = .next t →
    (t.rxEn ≠ s.rxEn → i = .rxEnable ∨ i = .rxDisable) ∧
    (t.rcvState ≠ s.rcvState →
      i = .evEdge ∨ i = .evTimeout ∨ i = .resume ∨ i = .rxEnable ∨ i = .decode 1) ∧
    (t.rawLen ≠ s.rawLen → i = .evEdge ∨ i = .resume ∨ i = .rxEnable ∨ i = .decode 1) ∧
    (t.live ≠ s.live ∨ t.lastEdge ≠ s.lastEdge → i = .evEdge) ∧
    (t.toDeadline ≠ s.toDeadline → i = .evEdge) ∧
    (t.toArmed = true → s.toArmed = false → i = .evEdge) ∧
    (t.toArmed ≠ s.toArmed → i = .evEdge ∨ i = .evTimeout ∨ i = .rxEnable ∨ i = .rxDisable) ∧
    (t.overflow = true → s.overflow = false → i = .evEdge) ∧
    (t.overflow = false → s.overflow = true → i = .resume ∨ i = .rxEnable ∨ i = .decode 1) ∧
    (t.save ≠ s.save ∨ t.saveLen ≠ s.saveLen ∨ t.saveOvf ≠ s.saveOvf ∨ t.saveValid ≠ s.saveValid →
      i = .decode 1) ∧
    (t.carrierHz ≠ s.carrierHz ∨ t.duty ≠ s.duty ∨ t.periodUs ≠ s.periodUs ∨ t.onUs ≠ s.onUs ∨
        t.offUs ≠ s.offUs ∨ t.carrierValid ≠ s.carrierValid →
      (∃ freq duty, i = .enableIrOut freq duty) ∨ ∃ o, i = .sendGeneric o) ∧
    (s.carrierValid = true → t.carrierValid = true) ∧
    (t.outWave ≠ s.outWave ∨ t.busyUntil ≠ s.busyUntil →
      (∃ d, i = .mark d) ∨ (∃ d, i = .space d) ∨ (∃ o, i = .sendData o) ∨ ∃ o, i = .sendGeneric o) ∧
    (t.outLevel ≠ s.outLevel →
      i = .ledOff ∨ (∃ d, i = .mark d) ∨ (∃ d, i = .space d) ∨ (∃ o, i = .sendData o) ∨ ∃ o, i = .sendGeneric o) ∧
    (t.tStart ≠ s.tStart ∨ t.tSet ≠ s.tSet → ∃ k, i = .timerReset k) ∧
    t.schedule = s.schedule

/-- A run of edges (44_capture.md R182, R183, R184, 20_memory.md R74, R88): from an enabled, idle receiver, edges
`first`, then `later` microseconds apart, fewer than the bank holds, leave LIVE with the sentinel and the
intervals in ticks, in arrival order, the timeout armed P_TIMEOUT_US after the last edge. -/
def Obligations.CaptureRecordsTheEdges : Prop :=
  ∀ (s : State) (first : Nat) (later : List Nat) (rest : List Turn), s.Running → s.params.Valid →
    s.rxEn = true → s.rcvState = .idle → s.rawLen = 0 → s.live.wf = true →
    later.length + 1 < s.params.rawBufSize →
    s.schedule = (first :: later).map (fun dt => ⟨dt, .edge⟩) ++ rest →
    ∃ t, core.run (later.length + 1) s = .next t ∧ t.rcvState = .mark ∧ t.overflow = s.overflow ∧
      t.rawLen.toNat = later.length + 1 ∧
      bankPrefix t.live (later.length + 1) =
        1 :: later.map (fun dt =>
          dt % 2 ^ s.params.clockBits / s.params.tickUs % 2 ^ s.params.entryBits) ∧
      t.tau = s.tau + (first :: later).sum ∧ t.toArmed = true ∧ t.toDeadline = t.tau + s.params.timeoutUs ∧
      t.schedule = rest

/-! ## Invariants -/

/-- 10_state.md R46 (I1 to I6): every step keeps the capture invariants. -/
def Obligations.StepKeepsCaptureInvariants : Prop :=
  ∀ s t : State, CaptureInv s → step s = .next t → CaptureInv t

/-- 20_memory.md R70, R88, 10_state.md R36, R37, R44: every step keeps every indexed store canonical and within
its bounds. -/
def Obligations.StepKeepsStoresInBounds : Prop :=
  ∀ s t : State, StoreInv s → step s = .next t → StoreInv t

/-- 10_state.md R41, R42, 42_carrier_driver.md R147: every step keeps the carrier's arithmetic, the pin LOW, and
the waveform without empty segments or LOW neighbours. Two HIGH neighbours are of two commands: that they stay
apart is R147's prose against its pseudocode, the model's choice (log 28). -/
def Obligations.StepKeepsDriverInvariants : Prop :=
  ∀ s t : State, DriverInv s → step s = .next t → DriverInv t

/-- 60_exceptions.md R270, R271, R276: every step keeps the stop records legal. That UnwrittenRead (6) is never
raised, from unreachable states too, is the model's choice: it has no check for an unwritten register (log 6);
R271 says that no reachable rule raises it. -/
def Obligations.StepKeepsRecordsLegal : Prop :=
  ∀ s t : State, RecordInv s → step s = .next t → RecordInv t

/-- 10_state.md R48, 70_reset_and_hazards.md R300: the state after reset meets every invariant and has the values
R48 gives. -/
def Obligations.ResetMeetsTheInvariants : Prop :=
  CaptureInv State.reset ∧ StoreInv State.reset ∧ DriverInv State.reset ∧ RecordInv State.reset ∧
    State.reset.rxEn = false ∧ State.reset.rcvState = .idle ∧ State.reset.rawLen = 0 ∧
    State.reset.overflow = false ∧ State.reset.toArmed = false ∧ State.reset.saveValid = false ∧
    State.reset.carrierValid = false ∧ State.reset.outLevel = .low ∧ State.reset.outWave = [] ∧
    (∀ k, State.reset.timerIsSet k = false) ∧ State.reset.fault = none ∧ State.reset.refused = none

/-! ## Stopwatches -/

/-- 41_timer.md R130, R131, R132, R133: TIMER_RESET sets one stopwatch and nothing else, and a TIMER_ELAPSED
that sees the same stopwatches `later` microseconds after it returns `later` modulo 2^P_CLOCK_BITS. -/
def Obligations.StopwatchMeasuresElapsedTime : Prop :=
  ∀ (s : State) (k : Byte), k.toNat < s.params.numTimers → s.params.Valid → Memory.wf s = true →
    ∃ t, exec (.timerReset k) s = .next t ∧
      t.timerStart k.toNat = s.now ∧ t.timerIsSet k.toNat = true ∧
      (∀ j, j ≠ k.toNat → t.timerStart j = s.timerStart j ∧ t.timerIsSet j = s.timerIsSet j) ∧
      t = { s with tStart := t.tStart, tSet := t.tSet, results := .done :: s.results } ∧
      ∀ (u : State) (later : Nat), u.params = s.params → u.clockOffset = s.clockOffset → u.tStart = t.tStart →
        u.tSet = t.tSet → u.tau = s.tau + later →
        ∃ e : U64, exec (.timerElapsed k) u = .next { u with results := .elapsed e :: u.results } ∧
          e.toNat = later % 2 ^ s.params.clockBits

/-- 41_timer.md R131, 60_exceptions.md R270: TIMER_ELAPSED of a stopwatch that was never started raises
TimerUnset (1) with the stopwatch as info; of one that was, it returns the clock difference modulo
2^P_CLOCK_BITS and writes no state. -/
def Obligations.TimerElapsedReadsOrFaults : Prop :=
  ∀ (s : State) (k : Byte), k.toNat < s.params.numTimers → s.params.Valid →
    s.timerStart k.toNat < 2 ^ s.params.clockBits →
    (s.timerIsSet k.toNat = false →
      exec (.timerElapsed k) s = .next { s with fault := some ⟨1, k.setWidth 32⟩ }) ∧
    (s.timerIsSet k.toNat = true →
      ∃ e : U64, exec (.timerElapsed k) s = .next { s with results := .elapsed e :: s.results } ∧
        e.toNat = (s.now + (2 ^ s.params.clockBits - s.timerStart k.toNat)) % 2 ^ s.params.clockBits)

/-! ## Carrier driver -/

/-- 42_carrier_driver.md R141: the period is 10^6/hz rounded half up on exact rationals, raised to at least 1, with
the values R141 lists; and ENABLE_IR_OUT sets PERIOD_US to it for the frequency after the kHz conversion. -/
def Obligations.PeriodRoundsHalfUp : Prop :=
  (∀ hz : Nat, 1 ≤ hz →
    ((carrierPeriod hz : Nat) : Int) = max 1 ⌊(10 : ℚ) ^ 6 / (hz : ℚ) + 1 / 2⌋ ∧
      carrierPeriod hz = max 1 ((2 * 10 ^ 6 + hz) / (2 * hz)) ∧ 1 ≤ carrierPeriod hz) ∧
    carrierPeriod 38000 = 26 ∧ carrierPeriod 40000 = 25 ∧ carrierPeriod 36000 = 28 ∧ carrierPeriod 56000 = 18 ∧
    carrierPeriod 1000 = 1000 ∧ carrierPeriod 2000000 = 1 ∧ carrierPeriod 2000001 = 1 ∧
    ∀ (s : State) (freq : U32) (duty : Byte), freq ≠ 0 → ∃ t, exec (.enableIrOut freq duty) s = .next t ∧
      t.periodUs.toNat = carrierPeriod (if freq.toNat < 1000 then freq.toNat * 1000 else freq.toNat)

/-- 42_carrier_driver.md R140, R141, R142: ENABLE_IR_OUT with a frequency other than 0 sets the five carrier
registers and CARRIER_VALID: kHz below 1000, the duty clamped to 100, the rounded period, the floored on-time,
the rest off. Nothing else changes. -/
def Obligations.EnableConfiguresTheCarrier : Prop :=
  ∀ (s : State) (freq : U32) (duty : Byte), freq ≠ 0 →
    ∃ t, exec (.enableIrOut freq duty) s = .next t ∧
      t.carrierHz.toNat = (if freq.toNat < 1000 then freq.toNat * 1000 else freq.toNat) ∧
      t.duty.toNat = min duty.toNat 100 ∧
      (t.periodUs.toNat : Int) = max 1 ⌊(10 : ℚ) ^ 6 / (t.carrierHz.toNat : ℚ) + 1 / 2⌋ ∧
      t.onUs.toNat = t.periodUs.toNat * t.duty.toNat / 100 ∧
      t.onUs.toNat + t.offUs.toNat = t.periodUs.toNat ∧
      t = { s with
        carrierHz := t.carrierHz, duty := t.duty, periodUs := t.periodUs, onUs := t.onUs, offUs := t.offUs,
        carrierValid := true, results := .done :: s.results }

/-- 42_carrier_driver.md R143, 43_encoder.md R160: MARK, and SEND_DATA of one bit or more, with no carrier
configured raise CarrierUnconfigured (3) and write nothing else. -/
def Obligations.UnconfiguredCarrierFaults : Prop :=
  ∀ s : State, s.carrierValid = false →
    (∀ d : U32, exec (.mark d) s = .next { s with fault := some ⟨3, 0⟩ }) ∧
    (∀ o : SendDataOps, o.msbFirst = 0 ∨ o.msbFirst = 1 → o.nbits ≠ 0 →
      exec (.sendData o) s = .next { s with fault := some ⟨3, 0⟩ })

/-- 42_carrier_driver.md R140, 43_encoder.md R165: a frequency of 0 raises CarrierFreqZero (2) in ENABLE_IR_OUT
and SEND_GENERIC, and writes nothing else. -/
def Obligations.ZeroFrequencyFaults : Prop :=
  ∀ s : State,
    (∀ duty : Byte, exec (.enableIrOut 0 duty) s = .next { s with fault := some ⟨2, 0⟩ }) ∧
    (∀ o : SendGenericOps, o.msbFirst = 0 ∨ o.msbFirst = 1 → o.nbytes.toNat = o.bytes.length → o.freq = 0 →
      exec (.sendGeneric o) s = .next { s with fault := some ⟨2, 0⟩ })

/-- 42_carrier_driver.md R144, R148, R150, 90_conflicts.md C9: with a carrier of a positive period, MARK adds
exactly d microseconds to OUT_WAVE, in cycles one after another, each HIGH for ON_US and then LOW for OFF_US, the
last one cut: microsecond k of the mark is HIGH exactly when k mod (ON_US + OFF_US) < ON_US. The HIGH time is
ON_US of every full cycle and the cut cycle's share. The pin ends LOW and the port is busy for d; nothing else
changes. -/
def Obligations.MarkLastsExactlyItsDuration : Prop :=
  ∀ (s : State) (d : U32), s.carrierValid = true → 1 ≤ s.onUs.toNat + s.offUs.toNat →
    ∃ t, exec (.mark d) s = .next t ∧
      waveTotal t.outWave = waveTotal s.outWave + d.toNat ∧
      waveHigh t.outWave = waveHigh s.outWave +
        (d.toNat / (s.onUs.toNat + s.offUs.toNat) * s.onUs.toNat +
          min s.onUs.toNat (d.toNat % (s.onUs.toNat + s.offUs.toNat))) ∧
      waveLevels t.waveform = waveLevels s.waveform ++ (List.range d.toNat).map (fun k =>
        if k % (s.onUs.toNat + s.offUs.toNat) < s.onUs.toNat then .high else .low) ∧
      t = { s with
        outWave := t.outWave, outLevel := .low, busyUntil := s.tau + d.toNat, results := .done :: s.results }

/-- 42_carrier_driver.md R145, R150: SPACE needs no carrier; it adds d microseconds of LOW, leaves the pin LOW and
the port busy for d; nothing else changes. -/
def Obligations.SpaceHoldsThePinLow : Prop :=
  ∀ (s : State) (d : U32),
    ∃ t, exec (.space d) s = .next t ∧
      waveTotal t.outWave = waveTotal s.outWave + d.toNat ∧ waveHigh t.outWave = waveHigh s.outWave ∧
      waveLevels t.waveform = waveLevels s.waveform ++ List.replicate d.toNat .low ∧
      t = { s with
        outWave := t.outWave, outLevel := .low, busyUntil := s.tau + d.toNat, results := .done :: s.results }

/-- 42_carrier_driver.md R146: LED_OFF forces the pin LOW, with no segment and no time. -/
def Obligations.LedOffForcesThePinLow : Prop :=
  ∀ s : State, exec .ledOff s = .next { s with outLevel := .low, results := .done :: s.results }

/-- 10_state.md R43, 42_carrier_driver.md R147: OUT_WAVE is append-only: a command may lengthen the last segment
and put new ones after it, and changes no other; within one command equal neighbours merge, and a LOW one merges
with a LOW one before the command. No HIGH segment of one command merges with a HIGH of another: R147's prose,
which the model follows against the pseudocode beside it (its choice: log 28). (Newest first: log 24.) -/
def Obligations.WaveformIsAppendOnly : Prop :=
  ∀ (i : Instr) (s t : State), exec i s = .next t →
    let alternates (w : List Segment) : Prop := w.IsChain (fun a b => a.level ≠ b.level)
    (s.outWave = [] → alternates t.outWave) ∧
    ∀ last older, s.outWave = last :: older → ∃ added more,
      t.outWave = added ++ ⟨last.level, last.us + more⟩ :: older ∧
      (last.level = .high → more = 0 ∧ alternates added) ∧
      (last.level = .low → alternates (added ++ [last]))

/-! ## Encoder -/

/-- 43_encoder.md R160, R164, 00_scope.md R13: SEND_DATA with a carrier sends the symbols of exactly `nbits` bits:
MSB-first, bit nbits-1 of `data` first; LSB-first, bit 0 first; a bit at 64 or above is 0. Its state change is
that of its MARK and SPACE calls in their order: an envelope p :: ps plays p and then ps, each call at its own
levels (42_carrier_driver.md R144, R145, R147), after what OUT_WAVE held; it writes OUT_WAVE, OUT_LEVEL and the
port's busy time (R150) only. -/
def Obligations.SendDataSendsItsBits : Prop :=
  (∀ (s : State) (p : Pulse) (ps : List Pulse), 1 ≤ s.onUs.toNat + s.offUs.toNat →
    let on := s.onUs.toNat
    let off := s.offUs.toNat
    let t := sendEnvelope (p :: ps) s
    waveLevels t.waveform = waveLevels (sendEnvelope [p] s).waveform ++ ps.flatMap (Pulse.levels on off) ∧
      waveLevels (sendEnvelope [p] s).waveform = waveLevels s.waveform ++ p.levels on off ∧
      t = { s with
        outWave := t.outWave, outLevel := .low, busyUntil := s.tau + ((p :: ps).map Pulse.us).sum }) ∧
  ∀ (s : State) (o : SendDataOps) (bits : List Bool), s.carrierValid = true → o.nbits ≠ 0 →
    o.msbFirst = 0 ∨ o.msbFirst = 1 → bits.length = o.nbits.toNat →
    (∀ i (h : i < bits.length),
      bits[i] = o.data.getLsbD (if o.msbFirst = 1 then o.nbits.toNat - 1 - i else i)) →
    exec (.sendData o) s = .next (withResult .done (sendEnvelope
      (bits.flatMap fun b =>
        if b then [.mark o.timings.oneMark.toNat, .space o.timings.oneSpace.toNat]
        else [.mark o.timings.zeroMark.toNat, .space o.timings.zeroSpace.toNat]) s))

/-- 43_encoder.md R161, R162, 90_conflicts.md C5: beyond 64 bits the extra zero symbols come first MSB-first and
last LSB-first. -/
def Obligations.PaddingIsFirstOrLast : Prop :=
  ∀ (s : State) (o : SendDataOps) (extra : Nat), s.carrierValid = true → o.nbits.toNat = 64 + extra →
    let zeros := (List.replicate extra
      [Pulse.mark o.timings.zeroMark.toNat, Pulse.space o.timings.zeroSpace.toNat]).flatten
    (o.msbFirst = 1 → exec (.sendData o) s =
      .next (withResult .done (sendEnvelope (zeros ++ dataEnvelope o.timings o.data 64 true) s))) ∧
    (o.msbFirst = 0 → exec (.sendData o) s =
      .next (withResult .done (sendEnvelope (dataEnvelope o.timings o.data 64 false ++ zeros) s)))

/-- 43_encoder.md R163: nbits = 0 sends nothing and raises nothing, whatever CARRIER_VALID is. -/
def Obligations.EmptySendDataSendsNothing : Prop :=
  ∀ (s : State) (o : SendDataOps), o.msbFirst = 0 ∨ o.msbFirst = 1 → o.nbits = 0 →
    exec (.sendData o) s = .next { s with results := .done :: s.results }

/-- 43_encoder.md R165, R166, R167, R168, R169: SEND_GENERIC configures the carrier as ENABLE_IR_OUT does and sends
`repeat + 1` equal frames: header parts that are not 0, the bytes in order, 8 bits each, a footer mark that is
not 0, the gap. OUT_WAVE grows by exactly their total, which the port is busy for, and by the levels of each MARK
and SPACE call in the order of the frames. -/
def Obligations.SendGenericSendsItsFrames : Prop :=
  ∀ (s : State) (o : SendGenericOps), o.msbFirst = 0 ∨ o.msbFirst = 1 → o.nbytes.toNat = o.bytes.length →
    o.freq ≠ 0 →
    let frame : List Pulse :=
      (if o.hdrMark = 0 then [] else [.mark o.hdrMark.toNat]) ++
        (if o.hdrSpace = 0 then [] else [.space o.hdrSpace.toNat]) ++
        (o.bytes.map fun b => dataEnvelope o.timings (b.setWidth 64) 8 (o.msbFirst == 1)).flatten ++
        (if o.footerMark = 0 then [] else [.mark o.footerMark.toNat]) ++ [.space o.gap.toNat]
    let total := (o.repeats.toNat + 1) * (frame.map Pulse.us).sum
    ∃ c t, exec (.enableIrOut o.freq o.duty) s = .next c ∧ exec (.sendGeneric o) s = .next t ∧
      t.outWave = (play c.onUs.toNat c.offUs.toNat
        (List.replicate (o.repeats.toNat + 1) frame).flatten ⟨s.outWave, 0⟩).wave ∧
      waveTotal t.outWave = waveTotal s.outWave + total ∧
      waveLevels t.waveform = waveLevels s.waveform ++
        (List.replicate (o.repeats.toNat + 1) frame).flatten.flatMap (Pulse.levels c.onUs.toNat c.offUs.toNat) ∧
      t = { c with outWave := t.outWave, outLevel := .low, busyUntil := s.tau + total }

/-! ## Matcher -/

/-- 45_matcher.md R220, R221: TICKS_LOW and TICKS_HIGH return the floor and the ceiling of the document's exact
formulas whenever the bound fits its s64 result (a bound outside s64 is a free value: log 9), and write no
state. For a negative duration and a tolerance above 100, R220's corner case and R228 say that the low bound is 0
and R220's formula gives a positive one; that the formula is followed there, on which the clause about a low bound
outside s64 rests, is the model's choice (log 10). -/
def Obligations.TickBoundsAreFloorAndCeiling : Prop :=
  ∀ (s : State) (usecs : S64) (tol : Byte), 1 ≤ s.params.tickUs →
    let low : Int := max 0 ⌊(usecs.toInt : ℚ) * (1 - (tol.toNat : ℚ) / 100) / (s.params.tickUs : ℚ)⌋
    let high : Int := ⌈(usecs.toInt : ℚ) * (1 + (tol.toNat : ℚ) / 100) / (s.params.tickUs : ℚ)⌉ + 1
    (low < 2 ^ 63 → ∃ v : S64,
      exec (.ticksLow usecs tol) s = .next { s with results := .ticks v :: s.results } ∧ v.toInt = low) ∧
    (2 ^ 63 ≤ low → ∃ v : S64, exec (.ticksLow usecs tol) s =
      .next { s with results := .ticks v :: s.results, draws := s.draws + 1 }) ∧
    (-2 ^ 63 ≤ high → high < 2 ^ 63 → ∃ v : S64,
      exec (.ticksHigh usecs tol) s = .next { s with results := .ticks v :: s.results } ∧ v.toInt = high) ∧
    (high < -2 ^ 63 ∨ 2 ^ 63 ≤ high → ∃ v : S64, exec (.ticksHigh usecs tol) s =
      .next { s with results := .ticks v :: s.results, draws := s.draws + 1 })

/-- 45_matcher.md R222 to R225, R228, 92_eei_decisions.md D23: the verdicts of MATCH, MATCH_MARK, MATCH_SPACE and
MATCH_AT_LEAST as exact comparisons with no division, about the target desired, desired + excess, or desired -
excess; no state is written. The same comparisons decide the marks and spaces of a view. A negative target of
MATCH_MARK and MATCH_SPACE matches nothing: D23's ruling, which the model follows against the pseudocode of R223
and R224 (log 29). For a negative target of MATCH_AT_LEAST at a tolerance above 100, R225 and R228 say that every
count is accepted and R220's formula says otherwise; that the formula is followed there is the model's choice
(log 10). -/
def Obligations.VerdictsAreExactComparisons : Prop :=
  (∀ (s : State) (measured desired : U32) (tol : Byte) (excess : S16), 1 ≤ s.params.tickUs →
    let T : Int := 100 * (s.params.tickUs : Int)
    let m : Int := (measured.toNat : Int)
    let atLeast (target : Int) : Prop := target * (100 - (tol.toNat : Int)) < (m + 1) * T
    let atMost (target : Int) : Prop := (m - 2) * T < target * (100 + (tol.toNat : Int))
    let within (target : Int) : Prop := 0 ≤ target ∧ atLeast target ∧ atMost target
    (∃ b, exec (.matchTicks measured desired tol) s = .next { s with results := .verdict b :: s.results } ∧
      (b = true ↔ atLeast desired.toNat ∧ atMost desired.toNat)) ∧
    (∃ b, exec (.matchMark measured desired tol excess) s =
        .next { s with results := .verdict b :: s.results } ∧
      (b = true ↔ within (desired.toNat + excess.toInt))) ∧
    (∃ b, exec (.matchSpace measured desired tol excess) s =
        .next { s with results := .verdict b :: s.results } ∧
      (b = true ↔ within (desired.toNat - excess.toInt))) ∧
    (∃ b, exec (.matchAtLeast measured desired tol excess) s =
        .next { s with results := .verdict b :: s.results } ∧
      (b = true ↔ atLeast (desired.toNat - excess.toInt)))) ∧
  ∀ (T measured desired tol : Nat) (excess : Int), 1 ≤ T →
    let atLeast (target : Int) : Prop := target * (100 - (tol : Int)) < ((measured : Int) + 1) * (100 * (T : Int))
    let atMost (target : Int) : Prop := ((measured : Int) - 2) * (100 * (T : Int)) < target * (100 + (tol : Int))
    let within (target : Int) : Prop := 0 ≤ target ∧ atLeast target ∧ atMost target
    (matchesMark T measured desired tol excess = true ↔ within ((desired : Int) + excess)) ∧
      (matchesSpace T measured desired tol excess = true ↔ within ((desired : Int) - excess)) ∧
      (matchesAtLeast T measured desired tol excess = true ↔ atLeast ((desired : Int) - excess))

/-- 45_matcher.md R227: for every d > 0 and every tolerance 0 to 100, MATCH accepts both bounds and rejects one
tick outside them. -/
def Obligations.ToleranceBoundary : Prop :=
  ∀ T d t : Nat, 1 ≤ T → 0 < d → t ≤ 100 →
    ∀ low high : Nat, (low : Int) = ticksLow T d t → (high : Int) = ticksHigh T d t →
      matchesTicks T high d t = true ∧ matchesTicks T (high + 1) d t = false ∧
        matchesTicks T low d t = true ∧ (1 ≤ low → matchesTicks T (low - 1) d t = false)

/-! ## Bitstream decoder -/

/-- 20_memory.md R75, 60_exceptions.md R270, R274, 70_reset_and_hazards.md R307: the four view commands fault
before anything else: LiveBufferBusy (4, with RCVSTATE's code) outside STOP, SaveBufferEmpty (5) while
SAVE_VALID = 0. -/
def Obligations.ViewsFault : Prop :=
  ∀ (s : State) (i : Instr) (bank : Byte), i.wf s.params.numTimers = true →
    ((∃ o, i = .matchData o ∧ o.bank = bank) ∨ (∃ o, i = .matchGeneric o ∧ o.bank = bank) ∨
      (∃ o, i = .matchGenericInt o ∧ o.bank = bank) ∨ i = .decodeHash bank) →
    (bank = 0 → s.rcvState = .idle → exec i s = .next { s with fault := some ⟨4, 0⟩ }) ∧
    (bank = 0 → s.rcvState = .mark → exec i s = .next { s with fault := some ⟨4, 1⟩ }) ∧
    (bank = 1 → s.saveValid = false → exec i s = .next { s with fault := some ⟨5, 0⟩ })

/-- 46_decoder.md R240 to R243, R247: a pair of entries is a one exactly when its mark and its space match those of
the one symbol; else a zero exactly when they match those of the zero symbol; else no bit. MATCH_DATA on a view
whose `nbits` pairs from `offset` on are the symbols of `bits` succeeds, uses two entries a bit, and returns the
bits' integer modulo 2^64; no state is written. -/
def Obligations.MatchDataReadsTheBits : Prop :=
  (∀ (T : Nat) (t : BitTimings) (tol : Byte) (excess : S16) (E : List Nat) (p : Nat),
    let fits (mark space : U32) : Prop :=
      matchesMark T (E.getD p 0) mark.toNat tol.toNat excess.toInt = true ∧
        matchesSpace T (E.getD (p + 1) 0) space.toNat tol.toNat excess.toInt = true
    (bitAt T t tol excess E p = some true ↔ fits t.oneMark t.oneSpace) ∧
      (bitAt T t tol excess E p = some false ↔ ¬fits t.oneMark t.oneSpace ∧ fits t.zeroMark t.zeroSpace) ∧
      (bitAt T t tol excess E p = none ↔ ¬fits t.oneMark t.oneSpace ∧ ¬fits t.zeroMark t.zeroSpace)) ∧
  ∀ (s : State) (o : MatchDataOps) (E : List Nat) (bits : List Bool), ViewIs o.bank s E →
    o.msbFirst = 0 ∨ o.msbFirst = 1 → bits.length = o.nbits.toNat → o.offset.toNat + 2 * o.nbits.toNat ≤ E.length →
    (∀ i (h : i < bits.length),
      bitAt s.params.tickUs o.timings o.tol o.excess E (o.offset.toNat + 2 * i) = some bits[i]) →
    ∃ used : U16, used.toNat = 2 * o.nbits.toNat ∧
      exec (.matchData o) s = .next { s with
        results := .matchedData true used (BitVec.ofNat 64 (bitsValue (o.msbFirst == 1) bits)) :: s.results }

/-- 46_decoder.md R241, R244: MATCH_DATA on a view that is too short, or one of whose pairs is no symbol, fails
with success = 0; `used` and `value` are free values (log 8), and no state of the block is written. That `nbits` = 0
with an `offset` past the view's end is too short, as R241's pseudocode says against its corner case, is the model's
choice (log 30). -/
def Obligations.MatchDataFails : Prop :=
  ∀ (s : State) (o : MatchDataOps) (E : List Nat), ViewIs o.bank s E → o.msbFirst = 0 ∨ o.msbFirst = 1 →
    (E.length < o.offset.toNat + 2 * o.nbits.toNat ∨
      ∃ i, i < o.nbits.toNat ∧
        bitAt s.params.tickUs o.timings o.tol o.excess E (o.offset.toNat + 2 * i) = none) →
    ∃ used value, exec (.matchData o) s = .next { s with
      results := .matchedData false used value :: s.results, draws := s.draws + 1 }

/-- 46_decoder.md R245 to R249: a section whose header, bits, footer and (when checked) gap match is consumed from
its offset to its footer, and one entry more when there is a gap and an entry for it; MATCH_GENERIC returns its
bytes, 8 bits each in arrival order, MATCH_GENERIC_INT its integer modulo 2^64. No state is written. -/
def Obligations.SectionIsMatched : Prop :=
  ∀ (s : State) (o : SectionOps) (E : List Nat) (bits : List Bool), ViewIs o.bank s E →
    o.msbFirst = 0 ∨ o.msbFirst = 1 → o.isLast = 0 ∨ o.isLast = 1 → bits.length = o.nbits.toNat →
    let T := s.params.tickUs
    let p₁ := o.offset.toNat + present o.hdrMark
    let p₂ := p₁ + present o.hdrSpace
    let p₃ := p₂ + 2 * o.nbits.toNat
    let p₄ := p₃ + present o.footerMark
    let p₅ := p₄ + if o.gap ≠ 0 ∧ p₄ < E.length then 1 else 0
    p₄ ≤ E.length →
    (o.hdrMark ≠ 0 →
      matchesMark T (E.getD o.offset.toNat 0) o.hdrMark.toNat o.tol.toNat o.excess.toInt = true) →
    (o.hdrSpace ≠ 0 → matchesSpace T (E.getD p₁ 0) o.hdrSpace.toNat o.tol.toNat o.excess.toInt = true) →
    (∀ i (h : i < bits.length), bitAt T o.timings o.tol o.excess E (p₂ + 2 * i) = some bits[i]) →
    (o.footerMark ≠ 0 → matchesMark T (E.getD p₃ 0) o.footerMark.toNat o.tol.toNat o.excess.toInt = true) →
    (o.gap ≠ 0 → p₄ < E.length → o.isLast = 1 →
      matchesAtLeast T (E.getD p₄ 0) o.gap.toNat o.tol.toNat o.excess.toInt = true) →
    ∃ consumed : U16, consumed.toNat = p₅ - o.offset.toNat ∧
      (o.nbits.toNat % 8 = 0 → exec (.matchGeneric o) s = .next { s with
        results := .matchedBytes consumed ((List.range (o.nbits.toNat / 8)).map fun k =>
          BitVec.ofNat 8 (bitsValue (o.msbFirst == 1) ((bits.drop (8 * k)).take 8))) :: s.results }) ∧
      exec (.matchGenericInt o) s = .next { s with
        results := .matchedInt consumed (BitVec.ofNat 64 (bitsValue (o.msbFirst == 1) bits)) :: s.results }

/-- 46_decoder.md R244, R245, R246, R248, R249: a section that is too short for its view, whose header, bits or
footer do not match, or whose gap is too short when it is checked, is not matched: consumed = 0, the data a free
value (log 8), no state of the block written. MATCH_GENERIC also fails for a bit count that is no multiple of
8. -/
def Obligations.SectionIsNotMatched : Prop :=
  ∀ (s : State) (o : SectionOps) (E : List Nat), ViewIs o.bank s E →
    o.msbFirst = 0 ∨ o.msbFirst = 1 → o.isLast = 0 ∨ o.isLast = 1 →
    let T := s.params.tickUs
    let p₁ := o.offset.toNat + present o.hdrMark
    let p₂ := p₁ + present o.hdrSpace
    let p₃ := p₂ + 2 * o.nbits.toNat
    let p₄ := p₃ + present o.footerMark
    let mismatch : Prop :=
      E.length - o.offset.toNat < p₄ - o.offset.toNat ∨
      (o.hdrMark ≠ 0 ∧
        matchesMark T (E.getD o.offset.toNat 0) o.hdrMark.toNat o.tol.toNat o.excess.toInt = false) ∨
      (o.hdrSpace ≠ 0 ∧
        matchesSpace T (E.getD p₁ 0) o.hdrSpace.toNat o.tol.toNat o.excess.toInt = false) ∨
      (∃ i, i < o.nbits.toNat ∧ bitAt T o.timings o.tol o.excess E (p₂ + 2 * i) = none) ∨
      (o.footerMark ≠ 0 ∧
        matchesMark T (E.getD p₃ 0) o.footerMark.toNat o.tol.toNat o.excess.toInt = false) ∨
      (o.gap ≠ 0 ∧ p₄ < E.length ∧ o.isLast = 1 ∧
        matchesAtLeast T (E.getD p₄ 0) o.gap.toNat o.tol.toNat o.excess.toInt = false)
    (o.nbits.toNat % 8 ≠ 0 ∨ mismatch → ∃ bytes, exec (.matchGeneric o) s = .next { s with
      results := .matchedBytes 0 bytes :: s.results, draws := s.draws + 1 }) ∧
    (mismatch → ∃ value, exec (.matchGenericInt o) s = .next { s with
      results := .matchedInt 0 value :: s.results, draws := s.draws + 1 })

/-- 46_decoder.md R245 (c), R246, R250: a match consumes at least the required entries, so at least one when any
of hdrMark, hdrSpace, nbits and footerMark is not 0, and never more than the view holds after the offset. -/
def Obligations.MatchConsumesWithinTheView : Prop :=
  ∀ (T : Nat) (o : SectionOps) (E : List Nat) (consumed : Nat),
    ((∃ bytes, matchGeneric T o E = some (consumed, bytes)) ∨
      ∃ value, matchGenericInt T o E = some (consumed, value)) →
    present o.hdrMark + present o.hdrSpace + 2 * o.nbits.toNat + present o.footerMark ≤ consumed ∧
      consumed ≤ E.length - o.offset.toNat ∧
      (o.hdrMark ≠ 0 ∨ o.hdrSpace ≠ 0 ∨ o.nbits ≠ 0 ∨ o.footerMark ≠ 0 → 1 ≤ consumed)

/-- The decoder inverts the encoder (43_encoder.md R166, R171 (d) and (e), 46_decoder.md R247): on a view that
holds, after entry 0, the ticks of a frame's marks and spaces up to its footer, each of which matches its own
duration, with zero symbols that are no one symbols, MATCH_GENERIC at offset 1 returns the bytes sent and
consumes every entry after entry 0. The view holds an entry for every mark and space up to the footer: R171
does not hold of a captured frame without a footer mark, whose last space has no closing edge, and that the
statement is about such a view is the model's reading (log 26). -/
def Obligations.MatchInvertsSend : Prop :=
  ∀ (s : State) (g : SendGenericOps) (o : SectionOps) (entry₀ : Nat),
    let T := s.params.tickUs
    let fits (mark space : U32) : Prop :=
      matchesMark T (mark.toNat / T) mark.toNat o.tol.toNat o.excess.toInt = true ∧
        matchesSpace T (space.toNat / T) space.toNat o.tol.toNat o.excess.toInt = true
    let pulses : List Pulse := partPulses .mark g.hdrMark ++ partPulses .space g.hdrSpace ++
      (g.bytes.flatMap fun b => dataEnvelope g.timings (b.setWidth 64) 8 (g.msbFirst == 1)) ++
      partPulses .mark g.footerMark
    let E : List Nat := entry₀ :: pulses.map fun p => p.us / T
    ViewIs o.bank s E →
    g.msbFirst = 0 ∨ g.msbFirst = 1 → o.isLast = 0 ∨ o.isLast = 1 →
    o.offset = 1 → o.nbits.toNat = 8 * g.bytes.length → o.msbFirst = g.msbFirst →
    o.hdrMark = g.hdrMark → o.hdrSpace = g.hdrSpace → o.timings = g.timings → o.footerMark = g.footerMark →
    (g.hdrMark ≠ 0 →
      matchesMark T (g.hdrMark.toNat / T) g.hdrMark.toNat o.tol.toNat o.excess.toInt = true) →
    (g.hdrSpace ≠ 0 →
      matchesSpace T (g.hdrSpace.toNat / T) g.hdrSpace.toNat o.tol.toNat o.excess.toInt = true) →
    (g.footerMark ≠ 0 →
      matchesMark T (g.footerMark.toNat / T) g.footerMark.toNat o.tol.toNat o.excess.toInt = true) →
    fits g.timings.oneMark g.timings.oneSpace → fits g.timings.zeroMark g.timings.zeroSpace →
    (matchesMark T (g.timings.zeroMark.toNat / T) g.timings.oneMark.toNat o.tol.toNat o.excess.toInt = false ∨
      matchesSpace T (g.timings.zeroSpace.toNat / T) g.timings.oneSpace.toNat o.tol.toNat o.excess.toInt =
        false) →
    ∃ consumed : U16, consumed.toNat = E.length - 1 ∧
      exec (.matchGeneric o) s = .next { s with results := .matchedBytes consumed g.bytes :: s.results }

/-! ## Hash decoder -/

/-- 46_decoder.md R253 to R256: DECODE_HASH of a view of 6 entries or more folds the comparison of entries i and
i + 2, i = 1 .. L-3, into the basis, modulo 2^32, in the order P_HASH_FOLD gives, and returns L div 2 bits; of a
shorter view it fails with free values (log 8). No state of the block is written. -/
def Obligations.HashFoldsTheComparisons : Prop :=
  ∀ (s : State) (bank : Byte) (E : List Nat), ViewIs bank s E →
    (6 ≤ E.length → ∃ h : U32,
      exec (.decodeHash bank) s =
        .next { s with results := .hash true h (BitVec.ofNat 16 (E.length / 2)) :: s.results } ∧
      h.toNat = ((List.range (E.length - 3)).map fun k =>
        if 5 * E.getD (k + 3) 0 < 4 * E.getD (k + 1) 0 then 0
        else if 5 * E.getD (k + 1) 0 < 4 * E.getD (k + 3) 0 then 2 else 1).foldl
          (fun h v => match s.params.hashFold with
            | .xorThenMul => (h ^^^ v) * 16777619 % 2 ^ 32
            | .mulThenXor => (h * 16777619 % 2 ^ 32) ^^^ v) 2166136261) ∧
    (E.length < 6 → ∃ h bits, exec (.decodeHash bank) s =
      .next { s with results := .hash false h bits :: s.results, draws := s.draws + 1 })

/-- 46_decoder.md R257 (a) to (c): the hash exists exactly for 6 entries or more, depends only on the length and
the comparison sequence, and is unchanged when every entry is multiplied by the same positive integer. -/
def Obligations.HashIgnoresScale : Prop :=
  ∀ (fold : HashFold) (E : List Nat),
    ((hashCore fold E).isSome = true ↔ 6 ≤ E.length) ∧
    (∀ E' : List Nat, E'.length = E.length → compareSequence E' = compareSequence E →
      hashCore fold E' = hashCore fold E) ∧
    ∀ k : Nat, 1 ≤ k → hashCore fold (E.map (k * ·)) = hashCore fold E
end

