-- ==== Sys2Proof/Machine/Assembler.lean ====
section
/-! DEFINITION. The assembler notation (spec/30_encoding.md R106, R109, R110, 44_capture.md's environment
lines): one line of text to the commands, or the environment event, it stands for. It is table-driven: a line
becomes the bytes of R104, which the decoder of Decode.lean reads. -/

namespace Sys2Proof.Machine

/-- The operand types of R102. -/
inductive OperandType where
  | u8
  | u16
  | u32
  | u64
  | s16
  | s64
  | flag
  | bankid
  | bytes
deriving DecidableEq, Repr

/-- An operand as written: a number or a byte list. -/
inductive Value where
  | num (v : Int)
  | list (bs : List Int)
deriving DecidableEq, Repr

/-- What a line stands for. -/
inductive Line where
  /-- an empty or comment line -/
  | blank
  /-- `@tau EDGE` -/
  | edge (tau : Nat)
  /-- `@tau TIMEOUT` -/
  | timeout (tau : Nat)
  /-- commands, at the prefixed tau if there is one -/
  | commands (tau : Option Nat) (is : List Instr)
deriving DecidableEq, Repr

/-- The tokens of a line. -/
inductive Token where
  | word (w : List Char)
  | comma
  | equals
  | openList
  | closeList
  | at
deriving DecidableEq, Repr

/-! ## Tables -/

/-- The named operands of a command, in order. -/
abbrev OperandNames := List (String × OperandType)

/-- The four symbol operands (R103). -/
def timingNames : OperandNames :=
  [("oneMark", .u32), ("oneSpace", .u32), ("zeroMark", .u32), ("zeroSpace", .u32)]

/-- Operands before and after the four symbol operands. -/
def aroundTimings (front rest : OperandNames) : OperandNames := front ++ timingNames ++ rest

/-- The operands of SEND_DATA (R103). -/
def sendDataNames : OperandNames :=
  aroundTimings [] [("data", .u64), ("nbits", .u16), ("msbFirst", .flag)]

/-- The operands of SEND_GENERIC (R103); `nbytes` is implied by `bytes` (R109). -/
def sendGenericNames : OperandNames :=
  aroundTimings [("hdrMark", .u32), ("hdrSpace", .u32)]
    [("footerMark", .u32), ("gap", .u32), ("freq", .u32), ("duty", .u8), ("msbFirst", .flag), ("repeat", .u16),
     ("bytes", .bytes)]

/-- The operands of a corrected match (R103). -/
def matchNames : OperandNames := [("measured", .u32), ("desired", .u32), ("tol", .u8), ("excess", .s16)]

/-- The operands of MATCH_DATA (R103). -/
def matchDataNames : OperandNames :=
  aroundTimings [("bank", .bankid), ("offset", .u16), ("nbits", .u16)]
    [("tol", .u8), ("excess", .s16), ("msbFirst", .flag)]

/-- The operands of a section match (R103). -/
def sectionNames : OperandNames :=
  aroundTimings [("bank", .bankid), ("offset", .u16), ("nbits", .u16), ("hdrMark", .u32), ("hdrSpace", .u32)]
    [("footerMark", .u32), ("gap", .u32), ("isLast", .flag), ("tol", .u8), ("excess", .s16), ("msbFirst", .flag)]

/-- The operands of SEND_FRAME (R110). -/
def sendFrameNames : OperandNames :=
  aroundTimings [("hdrMark", .u32), ("hdrSpace", .u32)]
    [("footerMark", .u32), ("gap", .u32), ("data", .u64), ("nbits", .u16), ("msbFirst", .flag)]

/-- The commands of R103: mnemonic, opcode, operands in order. -/
def commandTable : List (String × Nat × OperandNames) :=
  [("RX_ENABLE", 0x01, []), ("RX_DISABLE", 0x02, []), ("RESUME", 0x03, []), ("RX_STATUS", 0x04, []),
   ("DECODE", 0x05, [("save", .flag)]),
   ("TIMER_RESET", 0x10, [("t", .u8)]), ("TIMER_ELAPSED", 0x11, [("t", .u8)]),
   ("ENABLE_IR_OUT", 0x20, [("freq", .u32), ("duty", .u8)]),
   ("MARK", 0x21, [("d", .u32)]), ("SPACE", 0x22, [("d", .u32)]), ("LED_OFF", 0x23, []),
   ("SEND_DATA", 0x30, sendDataNames), ("SEND_GENERIC", 0x31, sendGenericNames),
   ("TICKS_LOW", 0x40, [("usecs", .s64), ("tol", .u8)]), ("TICKS_HIGH", 0x41, [("usecs", .s64), ("tol", .u8)]),
   ("MATCH", 0x42, [("measured", .u32), ("desired", .u32), ("tol", .u8)]),
   ("MATCH_MARK", 0x43, matchNames), ("MATCH_SPACE", 0x44, matchNames), ("MATCH_AT_LEAST", 0x45, matchNames),
   ("MATCH_DATA", 0x50, matchDataNames), ("MATCH_GENERIC", 0x51, sectionNames),
   ("MATCH_GENERIC_INT", 0x52, sectionNames), ("DECODE_HASH", 0x53, [("bank", .bankid)])]

/-- The pseudo-commands of R110 and their operands. -/
def pseudoTable : List (String × OperandNames) :=
  [("DECODE_COPY", []), ("DECODE_INPLACE", []), ("SEND_FRAME", sendFrameNames),
   ("MATCH_BIT_MARK", [("m", .u32), ("d", .u32)])]

/-- The default of an omitted operand (R106); every other operand must be given. -/
def defaultOperand (p : Params) (name : String) : Option Value :=
  if name = "tol" then some (.num (zext p.defaultTolerance))
  else if name = "excess" then some (.num (sext p.defaultExcess))
  else if name = "t" then some (.num 0)
  else if name = "repeat" then some (.num 0)
  else none

/-! ## Text to values -/

/-- Put a finished word before the tokens that follow it. -/
def flushWord (w : List Char) (rest : List Token) : List Token :=
  if w.isEmpty then rest else .word w.reverse :: rest

/-- The tokens of a line; `w` is the word being read, last character first; `;` starts a comment (R109). -/
def tokenize : List Char → List Char → List Token
  | [], w => flushWord w []
  | c :: cs, w =>
    if c = ';' then flushWord w []
    else if c = ' ' then flushWord w (tokenize cs [])
    else if c = ',' then flushWord w (.comma :: tokenize cs [])
    else if c = '=' then flushWord w (.equals :: tokenize cs [])
    else if c = '[' then flushWord w (.openList :: tokenize cs [])
    else if c = ']' then flushWord w (.closeList :: tokenize cs [])
    else if c = '@' then flushWord w (.at :: tokenize cs [])
    else tokenize cs (c :: w)

/-- The value of a digit in a base up to 16. -/
def digitValue (base : Nat) (c : Char) : Option Nat :=
  let n := c.toNat
  let v := if 48 ≤ n ∧ n ≤ 57 then n - 48 else if 65 ≤ n ∧ n ≤ 70 then n - 55 else if 97 ≤ n ∧ n ≤ 102 then n - 87 else 99
  if v < base then some v else none

/-- A number from its digits; none if one is no digit of the base. -/
def digitsValue (base : Nat) : List Char → Nat → Option Nat
  | [], acc => some acc
  | c :: cs, acc =>
    match digitValue base c with
    | some v => digitsValue base cs (acc * base + v)
    | none => none

/-- A natural number: decimal, or hexadecimal with `0x` (R109), or binary with `0b` (00_scope.md R11). -/
def naturalOf : List Char → Option Nat
  | [] => none
  | ['0', 'x'] => none
  | ['0', 'b'] => none
  | '0' :: 'x' :: ds => digitsValue 16 ds 0
  | '0' :: 'b' :: ds => digitsValue 2 ds 0
  | ds => digitsValue 10 ds 0

/-- A number with an optional minus sign. -/
def integerOf : List Char → Option Int
  | '-' :: ds => (naturalOf ds).map fun n => -(n : Int)
  | ds => (naturalOf ds).map fun n => (n : Int)

/-- Split a line's operand tokens at the commas outside brackets; `part` is the part being read, last token
first. -/
def splitOperands : List Token → List Token → Bool → List (List Token)
  | [], part, _ => [part.reverse]
  | .comma :: ts, part, false => part.reverse :: splitOperands ts [] false
  | .openList :: ts, part, _ => splitOperands ts (.openList :: part) true
  | .closeList :: ts, part, _ => splitOperands ts (.closeList :: part) false
  | t :: ts, part, inList => splitOperands ts (t :: part) inList

/-- The numbers of a byte list after its opening bracket. -/
def listValue : List Token → Option (List Int)
  | [.closeList] => some []
  | [.word w, .closeList] => (integerOf w).map fun v => [v]
  | .word w :: .comma :: ts =>
    match integerOf w, listValue ts with
    | some v, some vs => some (v :: vs)
    | _, _ => none
  | _ => none

/-- One operand: an optional name and its value (R109). -/
def operandOf : List Token → Option (Option (List Char) × Value)
  | [.word v] => (integerOf v).map fun n => (none, .num n)
  | [.word name, .equals, .word v] => (integerOf v).map fun n => (some name, .num n)
  | .openList :: ts => (listValue ts).map fun vs => (none, .list vs)
  | .word name :: .equals :: .openList :: ts => (listValue ts).map fun vs => (some name, .list vs)
  | _ => none

/-- All operands of a line; a line with none has none. -/
def operandsOf (ts : List Token) : Option (List (Option (List Char) × Value)) :=
  if ts.isEmpty then some [] else (splitOperands ts [] false).mapM operandOf

/-- The value written for a name, if exactly one is. -/
def namedValue (args : List (Option (List Char) × Value)) (name : String) : Option Value :=
  match args.filter fun a => a.1 == some name.toList with
  | [a] => some a.2
  | _ => none

/-- The operand values in the order of the table: all positional, or all named, never mixed (R109); omitted
ones take their defaults (R106). R106 does not say which operands a positional line may omit: that it is the last
ones only, so that an operand before a given one is given too, is the model's choice (log 31). A named line may
omit any operand that has a default. -/
def bindOperands (p : Params) (names : OperandNames) (args : List (Option (List Char) × Value)) :
    Option (List Value) :=
  if args.all fun a => a.1 == none then
    if names.length < args.length then none
    else ((args.map fun a => some a.2) ++ (names.drop args.length).map fun n => defaultOperand p n.1).mapM id
  else if args.all fun a => names.any fun n => a.1 == some n.1.toList then
    if (args.map Prod.fst).Nodup then
      (names.map fun n => (namedValue args n.1).orElse fun _ => defaultOperand p n.1).mapM id
    else none
  else none

/-! ## Values to bytes to commands -/

/-- A value in the range of an unsigned or signed field, as its bit pattern. -/
def patternOf (bits : Nat) (signed : Bool) (v : Int) : Option Nat :=
  let lo : Int := if signed then -(2 : Int) ^ (bits - 1) else 0
  let hi : Int := if signed then (2 : Int) ^ (bits - 1) else (2 : Int) ^ bits
  if lo ≤ v ∧ v < hi then some (v % (2 : Int) ^ bits).toNat else none

/-- The bytes of one operand (R104); a byte list is preceded by its length, the implied `nbytes` (R109). -/
def operandBytes : OperandType → Value → Option (List Byte)
  | .u8, .num v => (patternOf 8 false v).map (bytesOfWord 1)
  | .flag, .num v => (patternOf 8 false v).map (bytesOfWord 1)
  | .bankid, .num v => (patternOf 8 false v).map (bytesOfWord 1)
  | .u16, .num v => (patternOf 16 false v).map (bytesOfWord 2)
  | .u32, .num v => (patternOf 32 false v).map (bytesOfWord 4)
  | .u64, .num v => (patternOf 64 false v).map (bytesOfWord 8)
  | .s16, .num v => (patternOf 16 true v).map (bytesOfWord 2)
  | .s64, .num v => (patternOf 64 true v).map (bytesOfWord 8)
  | .bytes, .list vs =>
    match patternOf 16 false vs.length, vs.mapM (patternOf 8 false) with
    | some n, some bs => some (bytesOfWord 2 n ++ bs.map (BitVec.ofNat 8))
    | _, _ => none
  | .bytes, .num _ => none
  | _, .list _ => none

/-- The packet of a command from its operand values (R104). -/
def packetOfValues (op : Nat) (names : OperandNames) (vs : List Value) : Option (List Byte) :=
  ((names.zip vs).mapM fun nv => operandBytes nv.1.2 nv.2).map fun parts => BitVec.ofNat 8 op :: parts.flatten

/-- The expansions of R110. SEND_FRAME leaves out a header mark, header space or footer mark of 0. -/
def expandPseudo (p : Params) (name : String) (vs : List Value) : Option (List Instr) :=
  let u32 (v : Int) : U32 := BitVec.ofInt 32 v
  if name = "DECODE_COPY" then some [.decode 1]
  else if name = "DECODE_INPLACE" then some [.decode 0]
  else if name = "MATCH_BIT_MARK" then
    match vs with
    | [.num m, .num d] => some [.matchMark (u32 m) (u32 d) p.defaultTolerance p.defaultExcess]
    | _ => none
  else
    match vs with
    | [.num hm, .num hs, .num om, .num os, .num zm, .num zs, .num fm, .num gap, .num data, .num nbits, .num msb] =>
      some ((if hm = 0 then [] else [.mark (u32 hm)]) ++ (if hs = 0 then [] else [.space (u32 hs)]) ++
        [.sendData ⟨⟨u32 om, u32 os, u32 zm, u32 zs⟩, BitVec.ofInt 64 data, BitVec.ofInt 16 nbits, BitVec.ofInt 8 msb⟩] ++
        (if fm = 0 then [] else [.mark (u32 fm)]) ++ [.space (u32 gap)])
    | _ => none

/-- The commands of a mnemonic with its operand tokens. -/
def assembleCommand (p : Params) (mnemonic : List Char) (ts : List Token) : Option (List Instr) := do
  let args ← operandsOf ts
  match commandTable.find? fun row => row.1.toList == mnemonic with
  | some (_, op, names) =>
    let vs ← bindOperands p names args
    let packet ← packetOfValues op names vs
    match decode packet with
    | .instr i => some [i]
    | .unknownOpcode _ => none
    | .wrongLength _ => none
    | .empty => none
  | none =>
    match pseudoTable.find? fun row => row.1.toList == mnemonic with
    | some (name, names) =>
      let vs ← bindOperands p names args
      let _ ← (names.zip vs).mapM fun nv => operandBytes nv.1.2 nv.2
      expandPseudo p name vs
    | none => none

/-- One line of a program (R109); none if it is not legal. -/
def assembleLine (p : Params) (text : List Char) : Option Line :=
  match tokenize text [] with
  | [] => some .blank
  | [.at, .word tau, .word w] =>
    match naturalOf tau with
    | none => none
    | some n =>
      if w = "EDGE".toList then some (.edge n)
      else if w = "TIMEOUT".toList then some (.timeout n)
      else (assembleCommand p w []).map (.commands (some n))
  | .at :: .word tau :: .word w :: ts =>
    match naturalOf tau with
    | none => none
    | some n => (assembleCommand p w ts).map (.commands (some n))
  | .word w :: ts => (assembleCommand p w ts).map (.commands none)
  | _ => none

/-! ## Lines to turns -/

/-- The commands and environment events of a line, each with its `@tau` if it has one. -/
def eventsOfLine : Line → List (Option Nat × Instr)
  | .blank => []
  | .edge n => [(some n, .evEdge)]
  | .timeout n => [(some n, .evTimeout)]
  | .commands _ [] => []
  | .commands tau (i :: more) => (tau, i) :: more.map fun j => (none, j)

/-- Who brings a command or an event. -/
def sourceOf (i : Instr) : Source :=
  if i = .evEdge then .edge else if i = .evTimeout then .timeout else .command (encode i)

/-- How long a completed command keeps the port busy: the sum of the durations it emits
(42_carrier_driver.md R150). -/
def sendDuration (i : Instr) : Nat := ((envelopeOf i).map Pulse.us).sum

/-- The turns of commands and events in their order, from a tau that has been `reached` and a port that is `free`
from some tau on. A command waits for the port (42_carrier_driver.md R150), and the event after it is still at
its own tau. A command without `@tau` is issued as soon as the line before it has been and the port is free: the
spec names no time for it, and this one, the earliest, is the model's choice (log 32). A tau that has passed
counts as the tau reached, since tau is never decreased (10_state.md R36). -/
def turnsFrom : Nat → Nat → List (Option Nat × Instr) → List Turn
  | _, _, [] => []
  | reached, free, (tau, i) :: rest =>
    let asked := max reached (tau.getD reached)
    let taken := if i.isEvent then asked else max asked free
    ⟨asked - reached, sourceOf i⟩ :: turnsFrom taken (if i.isEvent then free else taken + sendDuration i) rest

/-- The turns of a program's lines for a machine at `tau` whose port is free from `free` on (R109, R305;
44_capture.md's `@tau EDGE` and `@tau TIMEOUT`). -/
def turnsOfLines (tau free : Nat) (lines : List Line) : List Turn := turnsFrom tau free (lines.flatMap eventsOfLine)

end Sys2Proof.Machine
end

