-- ==== Sys2Proof/Laws/Assembler.lean ====
section
/-! SUPPORT. When the turn of a program's line happens (spec/30_encoding.md R109, 42_carrier_driver.md R150). -/

namespace Sys2Proof.Machine

@[simp] theorem turnsFrom_nil (reached free : Nat) : turnsFrom reached free [] = [] := rfl

/-- Only a command waits for the port. -/
theorem atTurn_sourceOf_tau (dt : Nat) (i : Instr) (rest : List Turn) (s : State) :
    (atTurn ⟨dt, sourceOf i⟩ rest s).tau = if i.isEvent then s.tau + dt else max (s.tau + dt) s.busyUntil := by
  cases i <;> simp [sourceOf, atTurn, Instr.isEvent]

/-- The first line of a program from a machine's own time happens at its `@tau`, or at the machine's time if that
is later or it has none; a command waits for the port as well. -/
theorem turnsFrom_first (s : State) (tau : Option Nat) (i : Instr) (rest : List (Option Nat × Instr)) :
    ∃ turn more, turnsFrom s.tau s.busyUntil ((tau, i) :: rest) = turn :: more ∧
      (atTurn turn more s).tau =
        if i.isEvent then max s.tau (tau.getD s.tau) else max (max s.tau (tau.getD s.tau)) s.busyUntil := by
  refine ⟨_, _, rfl, ?_⟩
  rw [atTurn_sourceOf_tau, Nat.add_sub_cancel' (le_max_left _ _)]

end Sys2Proof.Machine
end

