-- ==== Sys2Proof/Laws/BitDecoder.lean ====
section
/-! SUPPORT. What reading pairs and matching the parts of a section can do (spec/46_decoder.md). -/

namespace Sys2Proof.Machine

/-- The value after placing a sequence of bits, the first of them as bit number `i`. -/
def placeBits (msbFirst : Bool) : Nat → U64 → List Bool → U64
  | _, v, [] => v
  | i, v, b :: bits => placeBits msbFirst (i + 1) (placeBit msbFirst i v b) bits

/-- Pairs that are the symbols of `bits` are read as `bits`. -/
theorem matchPairs_of_bits (T : Nat) (t : BitTimings) (tol : Nat) (excess : Int) (msbFirst : Bool) :
    ∀ (bits : List Bool) (i : Nat) (v : U64) (E : List Nat), 2 * bits.length ≤ E.length →
      (∀ k (h : k < bits.length),
        classify T t tol excess (E.getD (2 * k) 0) (E.getD (2 * k + 1) 0) = some bits[k]) →
      matchPairs T t tol excess msbFirst bits.length i v E = some (placeBits msbFirst i v bits)
  | [], _, _, _, _, _ => rfl
  | b :: bits, i, v, [], hlen, _ => by simp at hlen
  | b :: bits, i, v, [_], hlen, _ => by simp at hlen; omega
  | b :: bits, i, v, m :: s :: E, hlen, hbits => by
    have h0 : classify T t tol excess m s = some b := hbits 0 (by simp)
    simp only [List.length_cons, matchPairs, h0, placeBits]
    refine matchPairs_of_bits T t tol excess msbFirst bits (i + 1) _ E ?_ ?_
    · simp only [List.length_cons] at hlen; omega
    · intro k hk
      have := hbits (k + 1) (by simp; omega)
      simpa [Nat.mul_add] using this

/-- A pair that is no symbol fails the whole match (R244). -/
theorem matchPairs_eq_none (T : Nat) (t : BitTimings) (tol : Nat) (excess : Int) (msbFirst : Bool) :
    ∀ (n k i : Nat) (v : U64) (E : List Nat), k < n →
      classify T t tol excess (E.getD (2 * k) 0) (E.getD (2 * k + 1) 0) = none →
      matchPairs T t tol excess msbFirst n i v E = none
  | 0, _, _, _, _, h, _ => by omega
  | n + 1, _, _, _, [], _, _ => rfl
  | n + 1, _, _, _, [_], _, _ => rfl
  | n + 1, 0, i, v, m :: s :: E, _, hnone => by
    have h0 : classify T t tol excess m s = none := hnone
    simp only [matchPairs, h0]
  | n + 1, k + 1, i, v, m :: s :: E, hk, hnone => by
    simp only [matchPairs]
    split
    · refine matchPairs_eq_none T t tol excess msbFirst n k _ _ E (by omega) ?_
      simpa [Nat.mul_add] using hnone
    · rfl

/-- Placing bits first to last by shifting left builds the number read most significant bit first. -/
theorem placeBits_msb : ∀ (bits : List Bool) (i : Nat) (v : U64),
    placeBits true i v bits = BitVec.ofNat 64 (bits.foldl (fun v b => 2 * v + b.toNat) v.toNat)
  | [], _, v => by simp [placeBits]
  | b :: bits, i, v => by
    rw [placeBits, placeBits_msb bits (i + 1)]
    have hp : placeBit true i v b = BitVec.ofNat 64 (2 * v.toNat + b.toNat) := by
      have hand : (v <<< 1) &&& (if b then 1 else 0 : U64) = 0#64 := by
        refine BitVec.eq_of_getLsbD_eq fun k hk => ?_
        cases b <;> simp [BitVec.getLsbD_shiftLeft, BitVec.getLsbD_one]
        intro h _; omega
      simp only [placeBit, if_true]
      rw [← BitVec.add_eq_or_of_and_eq_zero _ _ hand]
      cases b <;> refine BitVec.eq_of_toNat_eq ?_ <;>
        simp [BitVec.toNat_shiftLeft, Nat.shiftLeft_eq, Nat.mul_comm]
    rw [hp]
    refine BitVec.eq_of_toNat_eq ?_
    have key : ∀ (bits : List Bool) (a c : Nat), a % 2 ^ 64 = c % 2 ^ 64 →
        (bits.foldl (fun v b => 2 * v + b.toNat) a) % 2 ^ 64 =
          (bits.foldl (fun v b => 2 * v + b.toNat) c) % 2 ^ 64 := by
      intro bits
      induction bits with
      | nil => intro a c h; exact h
      | cons x xs ih => intro a c h; exact ih (2 * a + x.toNat) (2 * c + x.toNat) (by omega)
    simp only [BitVec.toNat_ofNat, List.foldl_cons]
    exact key bits _ _ (by omega)

/-- Placing bits first to last at rising positions builds the number read least significant bit first. -/
theorem placeBits_lsb : ∀ (bits : List Bool) (i : Nat) (v : U64), v.toNat < 2 ^ i →
    placeBits false i v bits =
      BitVec.ofNat 64 (v.toNat + 2 ^ i * bits.foldr (fun b v => b.toNat + 2 * v) 0)
  | [], _, v, _ => by simp [placeBits]
  | b :: bits, i, v, hv => by
    have hp : (placeBit false i v b) = v + BitVec.ofNat 64 (2 ^ i * b.toNat) := by
      have hand : v &&& ((if b then 1 else 0 : U64) <<< i) = 0#64 := by
        refine BitVec.eq_of_getLsbD_eq fun k hk => ?_
        cases b
        · simp
        · have hone : ((1 : U64) <<< i).getLsbD k = (decide (k < 64) && !decide (k < i) && decide (k - i = 0)) := by
            rw [BitVec.getLsbD_shiftLeft, show (1 : U64) = 1#64 from rfl, BitVec.getLsbD_one]
            simp
          rw [BitVec.getLsbD_and, if_pos rfl, hone]
          by_cases hki : k = i
          · subst hki
            have : v.getLsbD k = false := by
              rw [BitVec.getLsbD, Nat.testBit_lt_two_pow hv]
            simp [this]
          · by_cases hlt : k < i
            · simp [hlt]
            · have : ¬ (k - i = 0) := by omega
              simp [this]
      simp only [placeBit, Bool.false_eq_true, if_false]
      rw [← BitVec.add_eq_or_of_and_eq_zero _ _ hand]
      congr 1
      cases b
      · simp
      · refine BitVec.eq_of_toNat_eq ?_
        simp [Nat.shiftLeft_eq]
    have hlt : (placeBit false i v b).toNat < 2 ^ (i + 1) := by
      rw [hp, BitVec.toNat_add, BitVec.toNat_ofNat]
      have h1 : 2 ^ i * b.toNat ≤ 2 ^ i := by cases b <;> simp
      have h2 : (v.toNat + 2 ^ i * b.toNat % 2 ^ 64) % 2 ^ 64 ≤ v.toNat + 2 ^ i * b.toNat :=
        (Nat.mod_le _ _).trans (Nat.add_le_add_left (Nat.mod_le _ _) _)
      have h3 : 2 ^ (i + 1) = 2 ^ i + 2 ^ i := by ring
      omega
    rw [placeBits, placeBits_lsb bits (i + 1) _ hlt]
    refine BitVec.eq_of_toNat_eq ?_
    rw [hp]
    simp only [BitVec.toNat_ofNat, BitVec.toNat_add, List.foldr_cons]
    have h4 : 2 ^ i * (b.toNat + 2 * bits.foldr (fun b v => b.toNat + 2 * v) 0) =
        2 ^ i * b.toNat + 2 ^ (i + 1) * bits.foldr (fun b v => b.toNat + 2 * v) 0 := by ring
    rw [h4]
    omega

/-- MATCH_DATA's core on pairs that are the symbols of `bits`. -/
theorem matchData_of_bits (T : Nat) (t : BitTimings) (tol : Nat) (excess : Int) (msbFirst : Bool) (E : List Nat)
    (offset : Nat) (bits : List Bool) (hlen : offset + 2 * bits.length ≤ E.length)
    (hbits : ∀ k (h : k < bits.length),
      classify T t tol excess (E.getD (offset + 2 * k) 0) (E.getD (offset + 2 * k + 1) 0) = some bits[k]) :
    matchData T t tol excess msbFirst E offset bits.length = some (placeBits msbFirst 0 0 bits) := by
  unfold matchData
  rw [if_neg (by omega)]
  refine matchPairs_of_bits T t tol excess msbFirst bits 0 0 _ (by simp; omega) fun k hk => ?_
  have := hbits k hk
  simpa [List.getD_eq_getElem?_getD, Nat.add_assoc] using this

/-- MATCH_DATA's core fails on a view that is too short or at a pair that is no symbol. -/
theorem matchData_eq_none (T : Nat) (t : BitTimings) (tol : Nat) (excess : Int) (msbFirst : Bool) (E : List Nat)
    (offset n k : Nat) (hk : k < n)
    (hnone : classify T t tol excess (E.getD (offset + 2 * k) 0) (E.getD (offset + 2 * k + 1) 0) = none) :
    matchData T t tol excess msbFirst E offset n = none := by
  unfold matchData
  split
  · rfl
  · refine matchPairs_eq_none T t tol excess msbFirst n k 0 0 _ hk ?_
    simpa [List.getD_eq_getElem?_getD, Nat.add_assoc] using hnone

/-- A header or footer part: it advances by one entry exactly when it is present, and then it matched. -/
theorem matchPart_eq_some_iff (test : Nat → Bool) (d : U32) (E : List Nat) (p q : Nat) :
    matchPart test d E p = some q ↔ q = p + present d ∧ (d ≠ 0 → test (E.getD p 0) = true) := by
  unfold matchPart present
  by_cases hd : d = 0
  · rw [if_pos hd, if_pos hd]
    exact ⟨fun h => ⟨(Option.some.inj h).symm, fun h => absurd hd h⟩, fun h => congrArg some h.1.symm⟩
  · rw [if_neg hd, if_neg hd]
    by_cases ht : test (E.getD p 0) = true
    · rw [if_pos ht]
      exact ⟨fun h => ⟨(Option.some.inj h).symm, fun _ => ht⟩, fun h => congrArg some h.1.symm⟩
    · rw [if_neg ht]
      exact ⟨fun h => (nomatch h), fun h => absurd (h.2 hd) ht⟩

/-- The gap: one more entry exactly when there is a gap and an entry for it, which the last section checks. -/
theorem matchGap_eq_some_iff (T : Nat) (o : SectionOps) (E : List Nat) (p q : Nat) :
    matchGap T o E p = some q ↔
      q = p + (if o.gap ≠ 0 ∧ p < E.length then 1 else 0) ∧
        (o.gap ≠ 0 → p < E.length → o.isLast = 1 →
          matchesAtLeast T (E.getD p 0) o.gap.toNat o.tol.toNat o.excess.toInt = true) := by
  unfold matchGap
  by_cases hg : o.gap ≠ 0 ∧ p < E.length
  · rw [if_pos hg, if_pos hg]
    by_cases hbad : (isSet o.isLast &&
        !matchesAtLeast T (E.getD p 0) o.gap.toNat o.tol.toNat (sext o.excess)) = true
    · rw [if_pos hbad]
      obtain ⟨hlast, hshort⟩ : o.isLast = 1 ∧
          matchesAtLeast T (E.getD p 0) o.gap.toNat o.tol.toNat (sext o.excess) = false := by
        simpa only [Bool.and_eq_true, isSet, beq_iff_eq, Bool.not_eq_true'] using hbad
      refine ⟨fun h => (nomatch h), fun h => ?_⟩
      have := h.2 hg.1 hg.2 hlast
      rw [← sext, hshort] at this
      cases this
    · rw [if_neg hbad]
      refine ⟨fun h => ⟨(Option.some.inj h).symm, fun _ _ hlast => ?_⟩, fun h => congrArg some h.1.symm⟩
      by_contra hm
      exact hbad (by rw [hlast, Bool.and_eq_true, Bool.not_eq_true']; exact ⟨rfl, Bool.not_eq_true _ ▸ hm⟩)
  · rw [if_neg hg, if_neg hg]
    exact ⟨fun h => ⟨(Option.some.inj h).symm, fun h1 h2 => absurd ⟨h1, h2⟩ hg⟩, fun h => congrArg some h.1.symm⟩

/-- A section is matched exactly when the view is long enough and every present part matches (R245); the data
are matched by `data`, which says where they end. -/
theorem matchSection_eq_some_iff {α : Type} (T : Nat) (o : SectionOps) (E : List Nat)
    (data : Nat → Option (α × Nat)) (r : Nat × α) :
    matchSection T o E data = some r ↔
      requiredEntries o ≤ E.length - o.offset.toNat ∧
        (o.hdrMark ≠ 0 →
          matchesMark T (E.getD o.offset.toNat 0) o.hdrMark.toNat o.tol.toNat o.excess.toInt = true) ∧
        (o.hdrSpace ≠ 0 →
          matchesSpace T (E.getD (o.offset.toNat + present o.hdrMark) 0) o.hdrSpace.toNat o.tol.toNat
            o.excess.toInt = true) ∧
        ∃ out p, data (o.offset.toNat + present o.hdrMark + present o.hdrSpace) = some (out, p) ∧
          (o.footerMark ≠ 0 →
            matchesMark T (E.getD p 0) o.footerMark.toNat o.tol.toNat o.excess.toInt = true) ∧
          (o.gap ≠ 0 → p + present o.footerMark < E.length → o.isLast = 1 →
            matchesAtLeast T (E.getD (p + present o.footerMark) 0) o.gap.toNat o.tol.toNat o.excess.toInt =
              true) ∧
          r = (p + present o.footerMark + (if o.gap ≠ 0 ∧ p + present o.footerMark < E.length then 1 else 0) -
            o.offset.toNat, out) := by
  have hs : sext o.excess = o.excess.toInt := rfl
  unfold matchSection
  by_cases hr : E.length - o.offset.toNat < requiredEntries o
  · rw [if_pos hr]
    exact ⟨fun h => (nomatch h), fun h => absurd h.1 (by omega)⟩
  · rw [if_neg hr]
    simp only [Option.bind_eq_bind, Option.bind_eq_some_iff, matchPart_eq_some_iff, matchGap_eq_some_iff, hs,
      Prod.exists]
    constructor
    · rintro ⟨_, ⟨rfl, h₁⟩, _, ⟨rfl, h₂⟩, out, p, hd, _, ⟨rfl, h₃⟩, _, ⟨rfl, h₄⟩, h₅⟩
      exact ⟨by omega, h₁, h₂, out, p, hd, h₃, h₄, (Option.some.inj h₅).symm⟩
    · rintro ⟨_, h₁, h₂, out, p, hd, h₃, h₄, rfl⟩
      exact ⟨_, ⟨rfl, h₁⟩, _, ⟨rfl, h₂⟩, out, p, hd, _, ⟨rfl, h₃⟩, _, ⟨rfl, h₄⟩, rfl⟩

end Sys2Proof.Machine
end

