-- ==== Sys2Proof/Laws/Stores.lean ====
section
/-! SUPPORT. What the indexed stores and the banks do: read after write, and that every operation keeps the
canonical form. -/

namespace Sys2Proof.Machine

/-! ## Canonical form -/

theorem Cells.wf_cons (a v : Nat) (rest : Cells) :
    Cells.wf ((a, v) :: rest) = true ↔ v ≠ 0 ∧ (∀ c ∈ rest, a < c.1) ∧ Cells.wf rest = true := by
  simp [Cells.wf, and_assoc]

/-- Below the first listed index every read is 0. -/
theorem Cells.read_eq_zero_of_lt : ∀ (b : Cells) (i : Nat), (∀ c ∈ b, i < c.1) → b.read i = 0
  | [], _, _ => rfl
  | (a, v) :: rest, i, h => by
    have : i < a := h (a, v) (by simp)
    simp [Cells.read, this, Nat.ne_of_lt this]

/-- A written index is listed only if the value is not 0, and the other indices are those listed before. -/
theorem Cells.mem_write : ∀ (b : Cells) (i v : Nat) (c : Nat × Nat), c ∈ b.write i v → c ∈ b ∨ c = (i, v)
  | [], i, v, c, h => by
    simp only [Cells.write] at h
    split at h <;> simp_all
  | (a, w) :: rest, i, v, c, h => by
    simp only [Cells.write] at h
    split at h
    · split at h
      · exact Or.inl h
      · simp only [List.mem_cons] at h ⊢; tauto
    · split at h
      · split at h
        · exact Or.inl (List.mem_cons_of_mem _ h)
        · simp only [List.mem_cons] at h ⊢; tauto
      · rcases List.mem_cons.1 h with h | h
        · simp [h]
        · rcases Cells.mem_write rest i v c h with h | h
          · exact Or.inl (List.mem_cons_of_mem _ h)
          · exact Or.inr h

/-- A write keeps the canonical form. -/
theorem Cells.write_wf : ∀ (b : Cells) (i v : Nat), b.wf = true → (b.write i v).wf = true
  | [], i, v, _ => by
    simp only [Cells.write]
    split <;> simp_all [Cells.wf]
  | (a, w) :: rest, i, v, h => by
    have ⟨hw, hlt, hrest⟩ := (Cells.wf_cons a w rest).1 h
    simp only [Cells.write]
    split
    · rename_i hia
      split
      · exact h
      · rename_i hv
        refine (Cells.wf_cons _ _ _).2 ⟨hv, ?_, h⟩
        intro c hc
        rcases List.mem_cons.1 hc with hc | hc
        · simp [hc, hia]
        · exact hia.trans (hlt c hc)
    · split
      · rename_i hia
        split
        · exact hrest
        · rename_i hv
          exact (Cells.wf_cons _ _ _).2 ⟨hv, by simpa [hia] using hlt, hrest⟩
      · rename_i h1 h2
        refine (Cells.wf_cons _ _ _).2 ⟨hw, ?_, Cells.write_wf rest i v hrest⟩
        intro c hc
        rcases Cells.mem_write rest i v c hc with hc | hc
        · exact hlt c hc
        · simp only [hc]; omega

/-! ## Read after write -/

/-- A write to a canonical store changes the one index written. -/
theorem Cells.read_write : ∀ (b : Cells) (i v j : Nat), b.wf = true →
    (b.write i v).read j = if j = i then v else b.read j
  | [], i, v, j, _ => by
    simp only [Cells.write]
    split <;> simp_all [Cells.read]
  | (a, w) :: rest, i, v, j, h => by
    have ⟨hw, hlt, hrest⟩ := (Cells.wf_cons a w rest).1 h
    simp only [Cells.write]
    split
    · rename_i hia
      split
      · rename_i hv
        by_cases hj : j = i
        · subst hj; simp [Cells.read, hia, Nat.ne_of_lt hia, hv]
        · simp [hj]
      · by_cases hj : j = i
        · simp [Cells.read, hj]
        · simp only [Cells.read, hj, if_false]
          split
          · rename_i hji
            simp [show j ≠ a by omega, show j < a by omega]
          · rfl
    · split
      · rename_i hia
        subst hia
        split
        · rename_i hv
          by_cases hj : j = i
          · simp [hj, hv, Cells.read_eq_zero_of_lt rest i hlt]
          · by_cases hji : j < i
            · simp [Cells.read, hj, hji, Cells.read_eq_zero_of_lt rest j (fun c hc => hji.trans (hlt c hc))]
            · simp [Cells.read, hj, hji]
        · by_cases hj : j = i <;> simp [Cells.read, hj]
      · rename_i h1 h2
        simp only [Cells.read]
        by_cases hja : j = a
        · simp [hja, show a ≠ i by omega]
        · by_cases hji : j < a
          · simp [hja, hji, show j ≠ i by omega]
          · simp [hja, hji, Cells.read_write rest i v j hrest]

theorem Cells.read_write_same (b : Cells) (i v : Nat) (h : b.wf = true) : (b.write i v).read i = v := by
  simp [Cells.read_write b i v i h]

theorem Cells.read_write_other (b : Cells) (i v j : Nat) (h : b.wf = true) (hj : j ≠ i) :
    (b.write i v).read j = b.read j := by
  simp [Cells.read_write b i v j h, hj]

/-! ## Banks -/

theorem bankWrite_wf (p : Params) (b : Cells) (i v : Nat) (h : b.wf = true) : (bankWrite p b i v).wf = true := by
  unfold bankWrite
  split
  · exact Cells.write_wf _ _ _ h
  · exact h

/-- A bank write changes the one entry written, and nothing past the last entry. -/
theorem bankRead_bankWrite (p : Params) (b : Cells) (i v j : Nat) (h : b.wf = true) :
    bankRead (bankWrite p b i v) j =
      if j = i ∧ i < p.rawBufSize then trunc p.entryBits v else bankRead b j := by
  unfold bankWrite bankRead
  by_cases hi : i < p.rawBufSize
  · simp [hi, Cells.read_write b i _ j h]
  · simp [hi]

theorem mem_bankWrite (p : Params) (b : Cells) (i v : Nat) (c : Nat × Nat) (hc : c ∈ bankWrite p b i v) :
    c ∈ b ∨ (c = (i, trunc p.entryBits v) ∧ i < p.rawBufSize) := by
  unfold bankWrite at hc
  split at hc
  · rcases Cells.mem_write _ _ _ _ hc with h | h
    · exact Or.inl h
    · exact Or.inr ⟨h, by assumption⟩
  · exact Or.inl hc

theorem bankCopy_wf (p : Params) (src : Cells) : ∀ (n : Nat) (dst : Cells), dst.wf = true →
    (bankCopy p src n dst).wf = true
  | 0, _, h => h
  | n + 1, dst, h => bankWrite_wf p _ _ _ (bankCopy_wf p src n dst h)

/-- A copy of n entries changes those entries (within the bank) and no others. -/
theorem bankRead_bankCopy (p : Params) (src : Cells) : ∀ (n : Nat) (dst : Cells) (j : Nat), dst.wf = true →
    bankRead (bankCopy p src n dst) j =
      if j < n ∧ j < p.rawBufSize then trunc p.entryBits (bankRead src j) else bankRead dst j
  | 0, dst, j, _ => by simp [bankCopy]
  | n + 1, dst, j, h => by
    rw [bankCopy, bankRead_bankWrite p _ _ _ _ (bankCopy_wf p src n dst h), bankRead_bankCopy p src n dst j h]
    by_cases hj : j = n
    · subst hj; simp
    · have : (j < n + 1) ↔ j < n := by omega
      simp [hj, this]

theorem mem_bankCopy (p : Params) (src : Cells) : ∀ (n : Nat) (dst : Cells) (c : Nat × Nat),
    c ∈ bankCopy p src n dst →
      c ∈ dst ∨ (c.1 < p.rawBufSize ∧ c.2 = trunc p.entryBits (bankRead src c.1))
  | 0, _, _, h => Or.inl h
  | n + 1, dst, c, h => by
    rcases mem_bankWrite p _ _ _ c h with h | ⟨h, hn⟩
    · exact mem_bankCopy p src n dst c h
    · subst h; exact Or.inr ⟨hn, rfl⟩

@[simp] theorem length_bankPrefix (b : Cells) (n : Nat) : (bankPrefix b n).length = n := by
  simp [bankPrefix]

theorem getElem_bankPrefix (b : Cells) (n i : Nat) (h : i < (bankPrefix b n).length) :
    (bankPrefix b n)[i] = bankRead b i := by
  simp [bankPrefix]

theorem trunc_lt (bits v : Nat) : trunc bits v < 2 ^ bits := Nat.mod_lt _ (Nat.two_pow_pos bits)

theorem now_lt (s : State) : s.now < 2 ^ s.params.clockBits := Nat.mod_lt _ (Nat.two_pow_pos _)

/-- The memory right after reset is in canonical form. -/
theorem reset_memory_wf : Memory.wf State.reset = true := rfl

end Sys2Proof.Machine
end

