-- ==== Sys2Proof/Laws/Capture.lean ====
section
/-! SUPPORT. What the edge handler, the idle-timeout handler and the copy of DECODE can do
(spec/44_capture.md). -/

namespace Sys2Proof.Machine

/-- Clock values apart by `d` microseconds differ by `d` modulo 2^P_CLOCK_BITS, whatever the offset. -/
theorem subMod_clock (bits offset t₀ d : Nat) :
    subMod bits ((t₀ + d + offset) % 2 ^ bits) ((t₀ + offset) % 2 ^ bits) = d % 2 ^ bits := by
  unfold subMod
  have h : (((t₀ + d + offset) % 2 ^ bits : Nat) : Int) - (((t₀ + offset) % 2 ^ bits : Nat) : Int) =
      (((t₀ + d + offset : Nat) : Int) % (2 : Int) ^ bits) - ((t₀ + offset : Nat) : Int) % (2 : Int) ^ bits := by
    push_cast; rfl
  rw [h, ← Int.sub_emod]
  have h2 : ((t₀ + d + offset : Nat) : Int) - ((t₀ + offset : Nat) : Int) = (d : Int) := by push_cast; omega
  rw [h2]
  have h3 : ((d : Int) % (2 : Int) ^ bits) = ((d % 2 ^ bits : Nat) : Int) := by push_cast; rfl
  rw [h3, Int.toNat_natCast]

/-- The difference of two clock values in range. -/
theorem subMod_of_lt (bits a b : Nat) (h : b < 2 ^ bits) : subMod bits a b = (a + (2 ^ bits - b)) % 2 ^ bits := by
  unfold subMod
  have h1 : ((a : Int) - (b : Int)) % (2 : Int) ^ bits =
      ((a : Int) - (b : Int) + (2 : Int) ^ bits) % (2 : Int) ^ bits := by simp
  have h2 : (a : Int) - (b : Int) + (2 : Int) ^ bits = ((a + (2 ^ bits - b) : Nat) : Int) := by
    rw [Nat.cast_add, Nat.cast_sub h.le]
    push_cast
    ring
  rw [h1, h2]
  have h3 : (((a + (2 ^ bits - b) : Nat) : Int) % (2 : Int) ^ bits) =
      (((a + (2 ^ bits - b)) % 2 ^ bits : Nat) : Int) := by push_cast; rfl
  rw [h3, Int.toNat_natCast]

theorem subMod_lt (bits a b : Nat) : subMod bits a b < 2 ^ bits := by
  unfold subMod
  have hpos : (0 : Int) < (2 : Int) ^ bits := by positivity
  have h1 := Int.emod_nonneg ((a : Int) - (b : Int)) hpos.ne'
  have h2 := Int.emod_lt_of_pos ((a : Int) - (b : Int)) hpos
  have h3 : ((2 ^ bits : Nat) : Int) = (2 : Int) ^ bits := by push_cast; rfl
  omega

/-- The four ways the edge handler goes: the bank is full on arrival (R182 step 2), a message is held (step 3),
the edge fills the bank (step 6), or it is simply recorded. -/
theorem edgeHandler_cases (s : State) :
    (s.params.overflowOnFill = false ∧ s.rcvState ≠ .stop ∧ s.params.rawBufSize ≤ s.rawLen.toNat ∧
        edgeHandler s = setOverflow (disarm s)) ∨
      (s.rcvState = .stop ∧ edgeHandler s = disarm s) ∨
      (s.rcvState ≠ .stop ∧ (s.params.overflowOnFill = true ∨ s.rawLen.toNat < s.params.rawBufSize) ∧
        s.params.overflowOnFill = true ∧ s.params.rawBufSize ≤ (s.rawLen + 1).toNat ∧
        edgeHandler s = rearm (setOverflow (recordEdge (disarm s)))) ∨
      (s.rcvState ≠ .stop ∧ (s.params.overflowOnFill = true ∨ s.rawLen.toNat < s.params.rawBufSize) ∧
        (s.params.overflowOnFill = false ∨ (s.rawLen + 1).toNat < s.params.rawBufSize) ∧
        edgeHandler s = rearm (recordEdge (disarm s))) := by
  by_cases hstop : s.rcvState = .stop
  · refine Or.inr (Or.inl ⟨hstop, ?_⟩)
    simp [edgeHandler, overflowsOnArrival, disarm, hstop]
  · by_cases harr : s.params.overflowOnFill = false ∧ s.params.rawBufSize ≤ s.rawLen.toNat
    · refine Or.inl ⟨harr.1, hstop, harr.2, ?_⟩
      simp [edgeHandler, overflowsOnArrival, bankFull, disarm, hstop, harr.1, harr.2]
    · have hroom : s.params.overflowOnFill = true ∨ s.rawLen.toNat < s.params.rawBufSize := by
        cases h : s.params.overflowOnFill <;> simp_all
      have hno : overflowsOnArrival (disarm s) = false := by
        simp only [overflowsOnArrival, bankFull, disarm]
        rcases hroom with h | h
        · simp [h]
        · simp [show ¬ s.params.rawBufSize ≤ s.rawLen.toNat by omega]
      have hs : (disarm s).rcvState ≠ .stop := hstop
      by_cases hfill : s.params.overflowOnFill = true ∧ s.params.rawBufSize ≤ (s.rawLen + 1).toNat
      · refine Or.inr (Or.inr (Or.inl ⟨hstop, hroom, hfill.1, hfill.2, ?_⟩))
        have : overflowsOnFill (recordEdge (disarm s)) = true := by
          simp only [overflowsOnFill, bankFull, recordEdge, disarm, hfill.1, Bool.true_and]
          exact decide_eq_true hfill.2
        simp [edgeHandler, hno, hs, this]
      · refine Or.inr (Or.inr (Or.inr ⟨hstop, hroom, ?_, ?_⟩))
        · cases h : s.params.overflowOnFill
          · exact Or.inl rfl
          · exact Or.inr (by simp only [h, true_and] at hfill; omega)
        · have : overflowsOnFill (recordEdge (disarm s)) = false := by
            simp only [overflowsOnFill, bankFull, recordEdge, disarm, Bool.and_eq_false_iff]
            cases h : s.params.overflowOnFill
            · exact Or.inl rfl
            · exact Or.inr (decide_eq_false fun hle => hfill ⟨h, hle⟩)
          simp [edgeHandler, hno, hs, this]

/-- The two ways the idle-timeout handler goes. -/
theorem timeoutHandler_cases (s : State) :
    (s.rawLen = 0 ∧ timeoutHandler s = { s with toArmed := false }) ∨
      (s.rawLen ≠ 0 ∧ timeoutHandler s = { s with toArmed := false, rcvState := .stop }) := by
  by_cases h : s.rawLen = 0
  · exact Or.inl ⟨h, if_pos h⟩
  · exact Or.inr ⟨h, if_neg h⟩

/-- The entries of a bank whose listed entries are within P_ENTRY_BITS bits. -/
theorem Cells.read_lt (n : Nat) (hn : 0 < n) : ∀ (b : Cells) (i : Nat), (∀ c ∈ b, c.2 < n) → b.read i < n
  | [], _, _ => hn
  | (a, v) :: rest, i, h => by
    simp only [Cells.read]
    split
    · exact h (a, v) (by simp)
    · split
      · exact hn
      · exact Cells.read_lt n hn rest i fun c hc => h c (List.mem_cons_of_mem _ hc)

/-- A bank of entries in range copies exactly. -/
theorem bankPrefix_bankCopy (p : Params) (src dst : Cells) (n : Nat) (hd : dst.wf = true) (hn : n ≤ p.rawBufSize)
    (hs : ∀ c ∈ src, c.2 < 2 ^ p.entryBits) : bankPrefix (bankCopy p src n dst) n = bankPrefix src n := by
  unfold bankPrefix
  refine List.map_congr_left fun k hk => ?_
  have hk' : k < n := List.mem_range.1 hk
  rw [bankRead_bankCopy p src n dst k hd, if_pos ⟨hk', by omega⟩]
  exact Nat.mod_eq_of_lt (Cells.read_lt _ (Nat.two_pow_pos _) src k hs)

/-- What the dispatcher finds: the first protocol decoder that answers, else the hash. -/
theorem dispatchView_eq (p : Params) (E : List Nat) :
    dispatchView p E =
      ((p.decoders.findSome? fun n => Config.protocolDecoder n E).orElse fun _ =>
        (hashCore p.hashFold E).map fun r => hashMessage r.1 r.2) := by
  unfold dispatchView firstMessage
  cases p.decoders.findSome? fun n => Config.protocolDecoder n E <;> rfl

end Sys2Proof.Machine
end

