-- ==== Sys2Proof/Laws/Encoding.lean ====
section
/-! SUPPORT. Reading a little-endian field back from its bytes, and the lengths of the fields
(spec/30_encoding.md R104). -/

namespace Sys2Proof

/-- A bit of a byte field that is in range is the bit of the word. -/
theorem byte_bit {n : Nat} (w : BitVec n) (k j i : Nat) (hk : k < 8) (hj : j = i) :
    (decide (k < 8) && w.getLsbD j) = w.getLsbD i := by simp [hk, hj]

/-- The bytes of a 16-bit field, put together again, are the field. -/
theorem join16 (w : U16) : w.extractLsb' 8 8 ++ w.extractLsb' 0 8 = w := by
  refine BitVec.eq_of_getLsbD_eq fun i hi => ?_
  simp only [BitVec.getLsbD_append, BitVec.getLsbD_extractLsb']
  split_ifs <;> exact byte_bit w _ _ _ (by omega) (by omega)

theorem join32 (w : U32) :
    w.extractLsb' 24 8 ++ w.extractLsb' 16 8 ++ w.extractLsb' 8 8 ++ w.extractLsb' 0 8 = w := by
  refine BitVec.eq_of_getLsbD_eq fun i hi => ?_
  simp only [BitVec.getLsbD_append, BitVec.getLsbD_extractLsb']
  split_ifs <;> exact byte_bit w _ _ _ (by omega) (by omega)

theorem join64 (w : U64) :
    w.extractLsb' 56 8 ++ w.extractLsb' 48 8 ++ w.extractLsb' 40 8 ++ w.extractLsb' 32 8 ++ w.extractLsb' 24 8 ++
      w.extractLsb' 16 8 ++ w.extractLsb' 8 8 ++ w.extractLsb' 0 8 = w := by
  refine BitVec.eq_of_getLsbD_eq fun i hi => ?_
  simp only [BitVec.getLsbD_append, BitVec.getLsbD_extractLsb']
  split_ifs <;> exact byte_bit w _ _ _ (by omega) (by omega)

@[simp] theorem read16_le16 (w : U16) (r : List Byte) : read16 (le16 w ++ r) = some (w, r) := by
  simp only [le16, List.cons_append, List.nil_append, read16, join16]

@[simp] theorem read32_le32 (w : U32) (r : List Byte) : read32 (le32 w ++ r) = some (w, r) := by
  simp only [le32, List.cons_append, List.nil_append, read32, join32]

@[simp] theorem read64_le64 (w : U64) (r : List Byte) : read64 (le64 w ++ r) = some (w, r) := by
  simp only [le64, List.cons_append, List.nil_append, read64, join64]

/-- The bytes of a field put together from bytes are those bytes. -/
theorem le16_join (a b : Byte) : le16 (b ++ a) = [a, b] := by
  simp only [le16, List.cons.injEq, and_true]
  refine ⟨?_, ?_⟩ <;> refine BitVec.eq_of_getLsbD_eq fun i hi => ?_ <;>
    simp only [BitVec.getLsbD_extractLsb', BitVec.getLsbD_append, hi, decide_true, Bool.true_and] <;>
    split_ifs <;> first | omega | (congr 1; omega)

theorem le32_join (a b c d : Byte) : le32 (d ++ c ++ b ++ a) = [a, b, c, d] := by
  simp only [le32, List.cons.injEq, and_true]
  refine ⟨?_, ?_, ?_, ?_⟩ <;> refine BitVec.eq_of_getLsbD_eq fun i hi => ?_ <;>
    simp only [BitVec.getLsbD_extractLsb', BitVec.getLsbD_append, hi, decide_true, Bool.true_and] <;>
    split_ifs <;> first | omega | (congr 1; omega)

theorem le64_join (a b c d e f g h : Byte) :
    le64 (h ++ g ++ f ++ e ++ d ++ c ++ b ++ a) = [a, b, c, d, e, f, g, h] := by
  simp only [le64, List.cons.injEq, and_true]
  refine ⟨?_, ?_, ?_, ?_, ?_, ?_, ?_, ?_⟩ <;> refine BitVec.eq_of_getLsbD_eq fun i hi => ?_ <;>
    simp only [BitVec.getLsbD_extractLsb', BitVec.getLsbD_append, hi, decide_true, Bool.true_and] <;>
    split_ifs <;> first | omega | (congr 1; omega)

@[simp] theorem read8_cons (b : Byte) (r : List Byte) : read8 (b :: r) = some (b, r) := rfl

@[simp] theorem finish_nil {α : Type} (x : α) : finish x [] = some x := rfl

@[simp] theorem readTimings_leTimings (t : BitTimings) (r : List Byte) :
    readTimings (leTimings t ++ r) = some (t, r) := by
  simp [readTimings, leTimings, List.append_assoc]

@[simp] theorem length_le16 (w : U16) : (le16 w).length = 2 := rfl
@[simp] theorem length_le32 (w : U32) : (le32 w).length = 4 := rfl
@[simp] theorem length_le64 (w : U64) : (le64 w).length = 8 := rfl
@[simp] theorem length_leTimings (t : BitTimings) : (leTimings t).length = 16 := rfl
@[simp] theorem length_leSection (o : SectionOps) : (leSection o).length = 42 := rfl

/-- A section's operands are read back. -/
theorem readSection_leSection (f : SectionOps → Instr) (o : SectionOps) :
    readSection f (leSection o) = some (f o) := by
  unfold readSection leSection
  repeat
    (first
      | rw [read8_cons]
      | rw [read16_le16]
      | rw [read32_le32]
      | rw [readTimings_leTimings])
    dsimp only [Option.bind_eq_bind, Option.bind_some]
  rfl

/-! ## From a field that was read to the bytes it came from -/

theorem eq_of_read8 {bs r : List Byte} {b : Byte} (h : read8 bs = some (b, r)) : bs = b :: r := by
  cases bs with
  | nil => cases h
  | cons a bs => cases h; rfl

theorem eq_of_read16 {bs r : List Byte} {w : U16} (h : read16 bs = some (w, r)) : bs = le16 w ++ r := by
  match bs, h with
  | a :: b :: bs, h => cases h; simp [le16_join]

theorem eq_of_read32 {bs r : List Byte} {w : U32} (h : read32 bs = some (w, r)) : bs = le32 w ++ r := by
  match bs, h with
  | a :: b :: c :: d :: bs, h => cases h; simp [le32_join]

theorem eq_of_read64 {bs r : List Byte} {w : U64} (h : read64 bs = some (w, r)) : bs = le64 w ++ r := by
  match bs, h with
  | a :: b :: c :: d :: e :: f :: g :: i :: bs, h => cases h; simp [le64_join]

theorem eq_of_finish {α : Type} {x y : α} {bs : List Byte} (h : finish x bs = some y) : bs = [] ∧ x = y := by
  cases bs with
  | nil => cases h; exact ⟨rfl, rfl⟩
  | cons a bs => cases h

/-- A sequence of reads that answers: its first read answered, and the rest did on what that read gave. -/
theorem bind_answers {α β : Type} {x : Option α} {f : α → Option β} {y : β} (h : (x >>= f) = some y) :
    ∃ a, x = some a ∧ f a = some y := by
  cases x with
  | none => cases h
  | some a => exact ⟨a, rfl, h⟩

theorem eq_of_readTimings {bs r : List Byte} {t : BitTimings} (h : readTimings bs = some (t, r)) :
    bs = leTimings t ++ r := by
  unfold readTimings at h
  obtain ⟨⟨a, r₁⟩, h₁, h⟩ := bind_answers h
  obtain ⟨⟨b, r₂⟩, h₂, h⟩ := bind_answers h
  obtain ⟨⟨c, r₃⟩, h₃, h⟩ := bind_answers h
  obtain ⟨⟨d, r₄⟩, h₄, h⟩ := bind_answers h
  cases h
  rw [eq_of_read32 h₁, eq_of_read32 h₂, eq_of_read32 h₃, eq_of_read32 h₄]
  simp only [leTimings, List.append_assoc]

theorem eq_of_readSection {f : SectionOps → Instr} {bs : List Byte} {i : Instr} (h : readSection f bs = some i) :
    ∃ o, i = f o ∧ bs = leSection o := by
  unfold readSection at h
  obtain ⟨⟨bank, r₁⟩, h₁, h⟩ := bind_answers h
  obtain ⟨⟨offset, r₂⟩, h₂, h⟩ := bind_answers h
  obtain ⟨⟨nbits, r₃⟩, h₃, h⟩ := bind_answers h
  obtain ⟨⟨hdrMark, r₄⟩, h₄, h⟩ := bind_answers h
  obtain ⟨⟨hdrSpace, r₅⟩, h₅, h⟩ := bind_answers h
  obtain ⟨⟨timings, r₆⟩, h₆, h⟩ := bind_answers h
  obtain ⟨⟨footerMark, r₇⟩, h₇, h⟩ := bind_answers h
  obtain ⟨⟨gap, r₈⟩, h₈, h⟩ := bind_answers h
  obtain ⟨⟨isLast, r₉⟩, h₉, h⟩ := bind_answers h
  obtain ⟨⟨tol, r₁₀⟩, h₁₀, h⟩ := bind_answers h
  obtain ⟨⟨excess, r₁₁⟩, h₁₁, h⟩ := bind_answers h
  obtain ⟨⟨msbFirst, r₁₂⟩, h₁₂, h⟩ := bind_answers h
  obtain ⟨rfl, rfl⟩ := eq_of_finish h
  refine ⟨_, rfl, ?_⟩
  rw [eq_of_read8 h₁, eq_of_read16 h₂, eq_of_read16 h₃, eq_of_read32 h₄, eq_of_read32 h₅, eq_of_readTimings h₆,
    eq_of_read32 h₇, eq_of_read32 h₈, eq_of_read8 h₉, eq_of_read8 h₁₀, eq_of_read16 h₁₁, eq_of_read8 h₁₂]
  rfl

end Sys2Proof
end

