-- ==== Sys2Proof/Laws/Operands.lean ====
section
/-! SUPPORT. What the shared operations around a meaning can do: accepting a command, running it on a view,
and the action of a turn. -/

namespace Sys2Proof.Machine

/-- The first illegal operand is none exactly for a well-formed command. -/
theorem firstBadOperand_eq_none_iff (n : Nat) (i : Instr) : firstBadOperand n i = none ↔ i.wf n = true := by
  cases i <;> simp [firstBadOperand, operandChecks, Instr.wf, and_assoc]

/-- A well-formed command is accepted. -/
theorem accept_of_wf (i : Instr) (s : State) (body : Outcome) (h : i.wf s.params.numTimers = true) :
    accept i s body = body := by
  simp [accept, (firstBadOperand_eq_none_iff s.params.numTimers i).2 h]

/-- A command that is not well-formed is refused, whatever it would have done. -/
theorem accept_of_not_wf (i : Instr) (s : State) (body : Outcome) (h : i.wf s.params.numTimers = false) :
    ∃ position, firstBadOperand s.params.numTimers i = some position ∧
      accept i s body = .next (refuse .badOperand position s) := by
  cases hb : firstBadOperand s.params.numTimers i with
  | none => rw [firstBadOperand_eq_none_iff, h] at hb; cases hb
  | some position => exact ⟨position, rfl, by simp [accept, hb]⟩

/-- Accepting a command: it is refused with its bad operand, or it is well-formed and has its effect. -/
theorem accept_cases {i : Instr} {s t : State} {body : Outcome} (h : accept i s body = .next t) :
    (∃ position, t = refuse .badOperand position s) ∨ (i.wf s.params.numTimers = true ∧ body = .next t) := by
  unfold accept at h
  split at h
  · cases h; exact Or.inl ⟨_, rfl⟩
  · exact Or.inr ⟨(firstBadOperand_eq_none_iff _ _).1 (by assumption), h⟩

/-- Running on a view: the view's fault, or the body on the entries. -/
theorem withView_cases {bank : Byte} {s t : State} {body : List Nat → Outcome}
    (h : withView bank s body = .next t) :
    (∃ k info, view bank s = .error (k, info) ∧ t = raiseFault k info s) ∨
      ∃ E, view bank s = .ok E ∧ body E = .next t := by
  unfold withView at h
  split at h
  · cases h; exact Or.inl ⟨_, _, by assumption, rfl⟩
  · exact Or.inr ⟨_, by assumption, h⟩

/-- The view of a bank that may be read. -/
theorem view_live (s : State) (h : s.rcvState = .stop) : view 0 s = .ok (bankPrefix s.live s.rawLen.toNat) := by
  simp [view, h]

theorem view_save (s : State) (h : s.saveValid = true) : view 1 s = .ok (bankPrefix s.save s.saveLen.toNat) := by
  simp [view, h]

/-- A running machine is not halted. -/
theorem haltedBy_eq_none_iff (s : State) : haltedBy s = none ↔ s.fault = none ∧ s.refused = none := by
  unfold haltedBy
  split
  · simp_all
  · split <;> simp_all

end Sys2Proof.Machine
end

