-- ==== Sys2Proof/Laws/Exec.lean ====
section
/-! SUPPORT. What a command or a handler can do, said once for all of them: it is refused, it takes a fault, or
it completes, and then the state changes only as `Completion` says. -/

namespace Sys2Proof.Machine

/-- The state changes of a completed command or handler. The returned values of the matching commands, which
change no state of the block, are left open here. -/
def Completion : Instr → State → State → Prop
  | .rxEnable, s, t => t = withResult .done (disarm (resumeCapture { s with rxEn := true }))
  | .rxDisable, s, t => t = withResult .done (disarm { s with rxEn := false })
  | .resume, s, t => t = withResult .done (resumeCapture s)
  | .rxStatus, s, t =>
    t = withResult (.status s.rxEn (BitVec.ofNat 8 s.rcvState.code) s.rawLen s.overflow) s
  | .decode save, s, t =>
    (s.rcvState = .stop ∧ save = 1 ∧ ∃ answer, t = withResult (.decoded answer) (copyAndResume s)) ∨
      ∃ answer, t = withResult (.decoded answer) s
  | .timerReset k, s, t =>
    k.toNat < s.params.numTimers ∧
      t = withResult .done { s with tStart := s.tStart.write k.toNat s.now, tSet := s.tSet.write k.toNat 1 }
  | .timerElapsed _, s, t => ∃ us, t = withResult (.elapsed us) s
  | .enableIrOut freq duty, s, t => freq ≠ 0 ∧ t = withResult .done (configureCarrier freq duty s)
  | .mark d, s, t => s.carrierValid = true ∧ t = withResult .done (sendEnvelope [.mark d.toNat] s)
  | .space d, s, t => t = withResult .done (sendEnvelope [.space d.toNat] s)
  | .ledOff, s, t => t = withResult .done { s with outLevel := .low }
  | .sendData _, s, t =>
    t = withResult .done s ∨
      (s.carrierValid = true ∧ ∃ pulses, t = withResult .done (sendEnvelope pulses s))
  | .sendGeneric o, s, t =>
    o.freq ≠ 0 ∧ ∃ pulses, t = withResult .done (sendEnvelope pulses (configureCarrier o.freq o.duty s))
  | .ticksLow _ _, s, t => ∃ v, t = withResult (.ticks v) s ∨ t = withResult (.ticks v) (spendDraw s)
  | .ticksHigh _ _, s, t => ∃ v, t = withResult (.ticks v) s ∨ t = withResult (.ticks v) (spendDraw s)
  | .matchTicks _ _ _, s, t => ∃ b, t = withResult (.verdict b) s
  | .matchMark _ _ _ _, s, t => ∃ b, t = withResult (.verdict b) s
  | .matchSpace _ _ _ _, s, t => ∃ b, t = withResult (.verdict b) s
  | .matchAtLeast _ _ _ _, s, t => ∃ b, t = withResult (.verdict b) s
  | .matchData _, s, t => ∃ r, t = withResult r s ∨ t = withResult r (spendDraw s)
  | .matchGeneric _, s, t => ∃ r, t = withResult r s ∨ t = withResult r (spendDraw s)
  | .matchGenericInt _, s, t => ∃ r, t = withResult r s ∨ t = withResult r (spendDraw s)
  | .decodeHash _, s, t => ∃ r, t = withResult r s ∨ t = withResult r (spendDraw s)
  | .evEdge, s, t => (s.rxEn = false ∧ t = s) ∨ (s.rxEn = true ∧ t = edgeHandler s)
  | .evTimeout, s, t => (timeoutDue s = false ∧ t = s) ∨ (timeoutDue s = true ∧ t = timeoutHandler s)

/-- A command that faults does so on a well-formed operand list, with one of the codes 1 to 5. -/
def FaultsWith (i : Instr) (s t : State) : Prop :=
  ∃ kind info, kind ≠ .unwrittenRead ∧ i.wf s.params.numTimers = true ∧ t = raiseFault kind info s

/-- A command is refused for an illegal operand only. -/
def RefusedFor (i : Instr) (s t : State) : Prop :=
  ∃ position, i.wf s.params.numTimers = false ∧ t = refuse .badOperand position s

theorem accept_refusedFor {i : Instr} {s t : State} {body : Outcome} (h : accept i s body = .next t) :
    RefusedFor i s t ∨ (i.wf s.params.numTimers = true ∧ body = .next t) := by
  cases hw : i.wf s.params.numTimers with
  | true => exact Or.inr ⟨rfl, by rwa [accept_of_wf i s body hw] at h⟩
  | false =>
    obtain ⟨position, _, hb⟩ := accept_of_not_wf i s body hw
    rw [hb] at h
    cases h
    exact Or.inl ⟨position, hw, rfl⟩

theorem view_error_kind {bank : Byte} {s : State} {kind : FaultKind} {info : Nat}
    (h : view bank s = .error (kind, info)) : kind ≠ .unwrittenRead := by
  unfold view at h
  split at h <;> split at h <;> cases h <;> exact fun e => nomatch e

theorem respond_next {r : Result} {s t : State} (h : respond r s = .next t) : t = withResult r s := by
  cases h; rfl

theorem respondTicks_next {v : Int} {s t : State} (h : respondTicks v s = .next t) :
    ∃ v, t = withResult (.ticks v) s ∨ t = withResult (.ticks v) (spendDraw s) := by
  unfold respondTicks at h
  split at h
  · exact ⟨_, Or.inl (respond_next h)⟩
  · exact ⟨_, Or.inr (respond_next h)⟩

/-- A matching command on a view: the view's fault, or an answer that changes no state of the block. -/
theorem withView_respond {i : Instr} {bank : Byte} {s t : State} {body : List Nat → Outcome}
    (hw : i.wf s.params.numTimers = true)
    (hbody : ∀ E u, body E = .next u → ∃ r, u = withResult r s ∨ u = withResult r (spendDraw s))
    (h : withView bank s body = .next t) :
    FaultsWith i s t ∨ ∃ r, t = withResult r s ∨ t = withResult r (spendDraw s) := by
  rcases withView_cases h with ⟨kind, info, hv, rfl⟩ | ⟨E, _, hE⟩
  · exact Or.inl ⟨kind, info, view_error_kind hv, hw, rfl⟩
  · exact Or.inr (hbody E t hE)

/-- Every command and handler is refused, faults, or completes. -/
theorem exec_cases {i : Instr} {s t : State} (h : exec i s = .next t) :
    RefusedFor i s t ∨ FaultsWith i s t ∨ (i.wf s.params.numTimers = true ∧ Completion i s t) := by
  cases i with
  | rxEnable =>
    simp only [exec, execRxEnable] at h
    rcases accept_refusedFor h with h | ⟨hw, h⟩
    · exact Or.inl h
    · exact Or.inr (Or.inr ⟨hw, respond_next h⟩)
  | rxDisable =>
    simp only [exec, execRxDisable] at h
    rcases accept_refusedFor h with h | ⟨hw, h⟩
    · exact Or.inl h
    · exact Or.inr (Or.inr ⟨hw, respond_next h⟩)
  | resume =>
    simp only [exec, execResume] at h
    rcases accept_refusedFor h with h | ⟨hw, h⟩
    · exact Or.inl h
    · exact Or.inr (Or.inr ⟨hw, respond_next h⟩)
  | rxStatus =>
    simp only [exec, execRxStatus] at h
    rcases accept_refusedFor h with h | ⟨hw, h⟩
    · exact Or.inl h
    · exact Or.inr (Or.inr ⟨hw, respond_next h⟩)
  | decode save =>
    simp only [exec, execDecode] at h
    rcases accept_refusedFor h with h | ⟨hw, h⟩
    · exact Or.inl h
    · refine Or.inr (Or.inr ⟨hw, ?_⟩)
      split at h
      · rename_i hstop
        split at h
        · rename_i hsave
          exact Or.inl ⟨hstop, eq_of_beq hsave, _, respond_next h⟩
        · exact Or.inr ⟨_, respond_next h⟩
      · exact Or.inr ⟨_, respond_next h⟩
  | timerReset k =>
    simp only [exec, execTimerReset] at h
    rcases accept_refusedFor h with h | ⟨hw, h⟩
    · exact Or.inl h
    · exact Or.inr (Or.inr ⟨hw, of_decide_eq_true hw, respond_next h⟩)
  | timerElapsed k =>
    simp only [exec, execTimerElapsed] at h
    rcases accept_refusedFor h with h | ⟨hw, h⟩
    · exact Or.inl h
    · split at h
      · exact Or.inr (Or.inr ⟨hw, _, respond_next h⟩)
      · cases h; exact Or.inr (Or.inl ⟨.timerUnset, _, by decide, hw, rfl⟩)
  | enableIrOut freq duty =>
    simp only [exec, execEnableIrOut] at h
    rcases accept_refusedFor h with h | ⟨hw, h⟩
    · exact Or.inl h
    · split at h
      · cases h; exact Or.inr (Or.inl ⟨.carrierFreqZero, _, by decide, hw, rfl⟩)
      · exact Or.inr (Or.inr ⟨hw, by assumption, respond_next h⟩)
  | mark d =>
    simp only [exec, execMark] at h
    rcases accept_refusedFor h with h | ⟨hw, h⟩
    · exact Or.inl h
    · split at h
      · exact Or.inr (Or.inr ⟨hw, by assumption, respond_next h⟩)
      · cases h; exact Or.inr (Or.inl ⟨.carrierUnconfigured, _, by decide, hw, rfl⟩)
  | space d =>
    simp only [exec, execSpace] at h
    rcases accept_refusedFor h with h | ⟨hw, h⟩
    · exact Or.inl h
    · exact Or.inr (Or.inr ⟨hw, respond_next h⟩)
  | ledOff =>
    simp only [exec, execLedOff] at h
    rcases accept_refusedFor h with h | ⟨hw, h⟩
    · exact Or.inl h
    · exact Or.inr (Or.inr ⟨hw, respond_next h⟩)
  | sendData o =>
    simp only [exec, execSendData] at h
    rcases accept_refusedFor h with h | ⟨hw, h⟩
    · exact Or.inl h
    · split at h
      · exact Or.inr (Or.inr ⟨hw, Or.inl (respond_next h)⟩)
      · split at h
        · exact Or.inr (Or.inr ⟨hw, Or.inr ⟨by assumption, _, respond_next h⟩⟩)
        · cases h; exact Or.inr (Or.inl ⟨.carrierUnconfigured, _, by decide, hw, rfl⟩)
  | sendGeneric o =>
    simp only [exec, execSendGeneric] at h
    rcases accept_refusedFor h with h | ⟨hw, h⟩
    · exact Or.inl h
    · split at h
      · cases h; exact Or.inr (Or.inl ⟨.carrierFreqZero, _, by decide, hw, rfl⟩)
      · exact Or.inr (Or.inr ⟨hw, by assumption, _, respond_next h⟩)
  | ticksLow usecs tol =>
    simp only [exec, execTicksLow] at h
    rcases accept_refusedFor h with h | ⟨hw, h⟩
    · exact Or.inl h
    · exact Or.inr (Or.inr ⟨hw, respondTicks_next h⟩)
  | ticksHigh usecs tol =>
    simp only [exec, execTicksHigh] at h
    rcases accept_refusedFor h with h | ⟨hw, h⟩
    · exact Or.inl h
    · exact Or.inr (Or.inr ⟨hw, respondTicks_next h⟩)
  | matchTicks measured desired tol =>
    simp only [exec, execMatchTicks] at h
    rcases accept_refusedFor h with h | ⟨hw, h⟩
    · exact Or.inl h
    · exact Or.inr (Or.inr ⟨hw, _, respond_next h⟩)
  | matchMark measured desired tol excess =>
    simp only [exec, execMatchMark] at h
    rcases accept_refusedFor h with h | ⟨hw, h⟩
    · exact Or.inl h
    · exact Or.inr (Or.inr ⟨hw, _, respond_next h⟩)
  | matchSpace measured desired tol excess =>
    simp only [exec, execMatchSpace] at h
    rcases accept_refusedFor h with h | ⟨hw, h⟩
    · exact Or.inl h
    · exact Or.inr (Or.inr ⟨hw, _, respond_next h⟩)
  | matchAtLeast measured desired tol excess =>
    simp only [exec, execMatchAtLeast] at h
    rcases accept_refusedFor h with h | ⟨hw, h⟩
    · exact Or.inl h
    · exact Or.inr (Or.inr ⟨hw, _, respond_next h⟩)
  | matchData o =>
    simp only [exec, execMatchData] at h
    rcases accept_refusedFor h with h | ⟨hw, h⟩
    · exact Or.inl h
    · refine Or.inr ((withView_respond hw (fun E u hu => ?_) h).imp_right fun h => ⟨hw, h⟩)
      split at hu
      · exact ⟨_, Or.inl (respond_next hu)⟩
      · exact ⟨_, Or.inr (respond_next hu)⟩
  | matchGeneric o =>
    simp only [exec, execMatchGeneric] at h
    rcases accept_refusedFor h with h | ⟨hw, h⟩
    · exact Or.inl h
    · refine Or.inr ((withView_respond hw (fun E u hu => ?_) h).imp_right fun h => ⟨hw, h⟩)
      split at hu
      · exact ⟨_, Or.inl (respond_next hu)⟩
      · exact ⟨_, Or.inr (respond_next hu)⟩
  | matchGenericInt o =>
    simp only [exec, execMatchGenericInt] at h
    rcases accept_refusedFor h with h | ⟨hw, h⟩
    · exact Or.inl h
    · refine Or.inr ((withView_respond hw (fun E u hu => ?_) h).imp_right fun h => ⟨hw, h⟩)
      split at hu
      · exact ⟨_, Or.inl (respond_next hu)⟩
      · exact ⟨_, Or.inr (respond_next hu)⟩
  | decodeHash bank =>
    simp only [exec, execDecodeHash] at h
    rcases accept_refusedFor h with h | ⟨hw, h⟩
    · exact Or.inl h
    · refine Or.inr ((withView_respond hw (fun E u hu => ?_) h).imp_right fun h => ⟨hw, h⟩)
      split at hu
      · exact ⟨_, Or.inl (respond_next hu)⟩
      · exact ⟨_, Or.inr (respond_next hu)⟩
  | evEdge =>
    refine Or.inr (Or.inr ⟨rfl, ?_⟩)
    cases hrx : s.rxEn with
    | true => exact Or.inr ⟨hrx, by simpa [exec, execEvEdge, hrx] using h.symm⟩
    | false => exact Or.inl ⟨hrx, by simpa [exec, execEvEdge, hrx] using h.symm⟩
  | evTimeout =>
    refine Or.inr (Or.inr ⟨rfl, ?_⟩)
    cases hdue : timeoutDue s with
    | true => exact Or.inr ⟨hdue, by simpa [exec, execEvTimeout, hdue] using h.symm⟩
    | false => exact Or.inl ⟨hdue, by simpa [exec, execEvTimeout, hdue] using h.symm⟩

end Sys2Proof.Machine
end

