-- ==== Sys2Proof/Laws/Matcher.lean ====
section
/-! SUPPORT. The tick bounds as exact comparisons without division, and what returning a bound can do
(spec/45_matcher.md R220 to R225). -/

namespace Sys2Proof.Machine

theorem floorDiv_le_iff (a b m : Int) (hb : 0 < b) : floorDiv a b ≤ m ↔ a < (m + 1) * b := by
  unfold floorDiv
  rw [← Int.lt_add_one_iff, Int.ediv_lt_iff_lt_mul hb]

theorem le_ceilDiv_iff (a b m : Int) (hb : 0 < b) : m ≤ ceilDiv a b ↔ (m - 1) * b < a := by
  unfold ceilDiv
  have h := floorDiv_le_iff (-a) b (-m) hb
  constructor
  · intro hm
    have := h.1 (by omega)
    linarith
  · intro hm
    have := h.2 (by linarith)
    omega

/-- A measured count reaches the low bound of a target. -/
theorem ticksLow_le_iff (T : Nat) (hT : 1 ≤ T) (target : Int) (tol m : Nat) :
    ticksLow T target tol ≤ (m : Int) ↔ target * (100 - (tol : Int)) < ((m : Int) + 1) * (100 * (T : Int)) := by
  have hb : (0 : Int) < 100 * (T : Int) := by omega
  rw [ticksLow, max_le_iff, floorDiv_le_iff _ _ _ hb]
  exact ⟨fun h => h.2, fun h => ⟨by omega, h⟩⟩

/-- A measured count does not pass the high bound of a target. -/
theorem le_ticksHigh_iff (T : Nat) (hT : 1 ≤ T) (target : Int) (tol m : Nat) :
    (m : Int) ≤ ticksHigh T target tol ↔ ((m : Int) - 2) * (100 * (T : Int)) < target * (100 + (tol : Int)) := by
  have hb : (0 : Int) < 100 * (T : Int) := by omega
  have h := le_ceilDiv_iff (target * (100 + (tol : Int))) (100 * (T : Int)) ((m : Int) - 1) hb
  have he : ((m : Int) - 1 - 1) = (m : Int) - 2 := by omega
  rw [he] at h
  rw [ticksHigh, ← h]
  omega

theorem withinBounds_iff (T : Nat) (hT : 1 ≤ T) (m : Nat) (target : Int) (tol : Nat) :
    withinBounds T m target tol = true ↔
      0 ≤ target ∧ target * (100 - (tol : Int)) < ((m : Int) + 1) * (100 * (T : Int)) ∧
        ((m : Int) - 2) * (100 * (T : Int)) < target * (100 + (tol : Int)) := by
  simp [withinBounds, ticksLow_le_iff T hT, le_ticksHigh_iff T hT]

/-- Returning a tick bound: itself when it fits an s64, else a free value. -/
theorem respondTicks_cases (v : Int) (s : State) :
    (-2 ^ 63 ≤ v ∧ v < 2 ^ 63 ∧ respondTicks v s = respond (.ticks (BitVec.ofInt 64 v)) s ∧
        (BitVec.ofInt 64 v).toInt = v) ∨
      ((v < -2 ^ 63 ∨ 2 ^ 63 ≤ v) ∧
        respondTicks v s = respond (.ticks (Config.freeBits 64 s.draws)) (spendDraw s)) := by
  by_cases h : -(2 : Int) ^ 63 ≤ v ∧ v < (2 : Int) ^ 63
  · have hfit : fitsS64 v = true := by
      simp only [fitsS64, Bool.and_eq_true, decide_eq_true_eq]
      exact h
    refine Or.inl ⟨h.1, h.2, by simp [respondTicks, hfit], ?_⟩
    rw [BitVec.toInt_ofInt]
    apply Int.bmod_eq_of_le <;> omega
  · refine Or.inr ⟨by omega, ?_⟩
    have : fitsS64 v = false := by
      simp only [fitsS64, Bool.and_eq_false_iff, decide_eq_false_iff_not]
      tauto
    simp [respondTicks, this]

end Sys2Proof.Machine
end

