-- ==== Sys2Proof/Laws/PerInstr.lean ====
section
/-! SUPPORT. Statements made instruction by instruction: the length of every serialised command is the one its
opcode fixes, plus the bytes of SEND_GENERIC (spec/30_encoding.md R104, R108). -/

namespace Sys2Proof.Laws

/-- The elements of a command's byte sequence; 0 for every command but SEND_GENERIC. -/
def byteElements : Instr → Nat
  | .sendGeneric o => o.bytes.length
  | .rxEnable | .rxDisable | .resume | .rxStatus | .decode _ => 0
  | .timerReset _ | .timerElapsed _ | .enableIrOut _ _ | .mark _ | .space _ | .ledOff | .sendData _ => 0
  | .ticksLow _ _ | .ticksHigh _ _ | .matchTicks _ _ _ => 0
  | .matchMark _ _ _ _ | .matchSpace _ _ _ _ | .matchAtLeast _ _ _ _ => 0
  | .matchData _ | .matchGeneric _ | .matchGenericInt _ | .decodeHash _ | .evEdge | .evTimeout => 0

def EncodedLength.Statement (i : Instr) : Prop :=
  (encode i).length = commandLength i.opcode.toNat + byteElements i

theorem EncodedLength.rxEnable : Statement .rxEnable := rfl
theorem EncodedLength.rxDisable : Statement .rxDisable := rfl
theorem EncodedLength.resume : Statement .resume := rfl
theorem EncodedLength.rxStatus : Statement .rxStatus := rfl
theorem EncodedLength.decode (save : Byte) : Statement (.decode save) := rfl
theorem EncodedLength.timerReset (t : Byte) : Statement (.timerReset t) := rfl
theorem EncodedLength.timerElapsed (t : Byte) : Statement (.timerElapsed t) := rfl
theorem EncodedLength.enableIrOut (freq : U32) (duty : Byte) : Statement (.enableIrOut freq duty) := rfl
theorem EncodedLength.mark (d : U32) : Statement (.mark d) := rfl
theorem EncodedLength.space (d : U32) : Statement (.space d) := rfl
theorem EncodedLength.ledOff : Statement .ledOff := rfl
theorem EncodedLength.sendData (o : SendDataOps) : Statement (.sendData o) := rfl
theorem EncodedLength.sendGeneric (o : SendGenericOps) : Statement (.sendGeneric o) := by
  simp only [Statement, encode, Instr.operandBytes, Instr.opcode, byteElements, List.length_cons,
    List.length_append, length_le32, length_leTimings, length_le16]
  change _ = 43 + o.bytes.length
  omega
theorem EncodedLength.ticksLow (usecs : S64) (tol : Byte) : Statement (.ticksLow usecs tol) := rfl
theorem EncodedLength.ticksHigh (usecs : S64) (tol : Byte) : Statement (.ticksHigh usecs tol) := rfl
theorem EncodedLength.matchTicks (measured desired : U32) (tol : Byte) :
    Statement (.matchTicks measured desired tol) := rfl
theorem EncodedLength.matchMark (measured desired : U32) (tol : Byte) (excess : S16) :
    Statement (.matchMark measured desired tol excess) := rfl
theorem EncodedLength.matchSpace (measured desired : U32) (tol : Byte) (excess : S16) :
    Statement (.matchSpace measured desired tol excess) := rfl
theorem EncodedLength.matchAtLeast (measured desired : U32) (tol : Byte) (excess : S16) :
    Statement (.matchAtLeast measured desired tol excess) := rfl
theorem EncodedLength.matchData (o : MatchDataOps) : Statement (.matchData o) := rfl
theorem EncodedLength.matchGeneric (o : SectionOps) : Statement (.matchGeneric o) := rfl
theorem EncodedLength.matchGenericInt (o : SectionOps) : Statement (.matchGenericInt o) := rfl
theorem EncodedLength.decodeHash (bank : Byte) : Statement (.decodeHash bank) := rfl
theorem EncodedLength.evEdge : Statement .evEdge := rfl
theorem EncodedLength.evTimeout : Statement .evTimeout := rfl

end Sys2Proof.Laws
end

