-- ==== Sys2Proof/Laws/State.lean ====
section
/-! SUPPORT. The record updates of the shared operations, one lemma per field, so that no proof unfolds an
update. -/

namespace Sys2Proof.Machine

/-! ## withResult -/

@[simp] theorem withResult_params (r : Result) (s : State) : (withResult r s).params = s.params := rfl
@[simp] theorem withResult_rxEn (r : Result) (s : State) : (withResult r s).rxEn = s.rxEn := rfl
@[simp] theorem withResult_rcvState (r : Result) (s : State) : (withResult r s).rcvState = s.rcvState := rfl
@[simp] theorem withResult_rawLen (r : Result) (s : State) : (withResult r s).rawLen = s.rawLen := rfl
@[simp] theorem withResult_overflow (r : Result) (s : State) : (withResult r s).overflow = s.overflow := rfl
@[simp] theorem withResult_tau (r : Result) (s : State) : (withResult r s).tau = s.tau := rfl
@[simp] theorem withResult_clockOffset (r : Result) (s : State) : (withResult r s).clockOffset = s.clockOffset := rfl
@[simp] theorem withResult_lastEdge (r : Result) (s : State) : (withResult r s).lastEdge = s.lastEdge := rfl
@[simp] theorem withResult_lastEdgeSet (r : Result) (s : State) : (withResult r s).lastEdgeSet = s.lastEdgeSet := rfl
@[simp] theorem withResult_toArmed (r : Result) (s : State) : (withResult r s).toArmed = s.toArmed := rfl
@[simp] theorem withResult_toDeadline (r : Result) (s : State) : (withResult r s).toDeadline = s.toDeadline := rfl
@[simp] theorem withResult_toDeadlineSet (r : Result) (s : State) :
    (withResult r s).toDeadlineSet = s.toDeadlineSet := rfl
@[simp] theorem withResult_saveValid (r : Result) (s : State) : (withResult r s).saveValid = s.saveValid := rfl
@[simp] theorem withResult_saveLen (r : Result) (s : State) : (withResult r s).saveLen = s.saveLen := rfl
@[simp] theorem withResult_saveOvf (r : Result) (s : State) : (withResult r s).saveOvf = s.saveOvf := rfl
@[simp] theorem withResult_live (r : Result) (s : State) : (withResult r s).live = s.live := rfl
@[simp] theorem withResult_save (r : Result) (s : State) : (withResult r s).save = s.save := rfl
@[simp] theorem withResult_carrierValid (r : Result) (s : State) :
    (withResult r s).carrierValid = s.carrierValid := rfl
@[simp] theorem withResult_carrierHz (r : Result) (s : State) : (withResult r s).carrierHz = s.carrierHz := rfl
@[simp] theorem withResult_duty (r : Result) (s : State) : (withResult r s).duty = s.duty := rfl
@[simp] theorem withResult_periodUs (r : Result) (s : State) : (withResult r s).periodUs = s.periodUs := rfl
@[simp] theorem withResult_onUs (r : Result) (s : State) : (withResult r s).onUs = s.onUs := rfl
@[simp] theorem withResult_offUs (r : Result) (s : State) : (withResult r s).offUs = s.offUs := rfl
@[simp] theorem withResult_outLevel (r : Result) (s : State) : (withResult r s).outLevel = s.outLevel := rfl
@[simp] theorem withResult_outWave (r : Result) (s : State) : (withResult r s).outWave = s.outWave := rfl
@[simp] theorem withResult_tStart (r : Result) (s : State) : (withResult r s).tStart = s.tStart := rfl
@[simp] theorem withResult_tSet (r : Result) (s : State) : (withResult r s).tSet = s.tSet := rfl
@[simp] theorem withResult_fault (r : Result) (s : State) : (withResult r s).fault = s.fault := rfl
@[simp] theorem withResult_refused (r : Result) (s : State) : (withResult r s).refused = s.refused := rfl
@[simp] theorem withResult_busyUntil (r : Result) (s : State) : (withResult r s).busyUntil = s.busyUntil := rfl
@[simp] theorem withResult_results (r : Result) (s : State) : (withResult r s).results = r :: s.results := rfl
@[simp] theorem withResult_draws (r : Result) (s : State) : (withResult r s).draws = s.draws := rfl
@[simp] theorem withResult_schedule (r : Result) (s : State) : (withResult r s).schedule = s.schedule := rfl

/-! ## raiseFault -/

@[simp] theorem raiseFault_params (k : FaultKind) (info : Nat) (s : State) :
    (raiseFault k info s).params = s.params := rfl
@[simp] theorem raiseFault_rxEn (k : FaultKind) (info : Nat) (s : State) : (raiseFault k info s).rxEn = s.rxEn := rfl
@[simp] theorem raiseFault_rcvState (k : FaultKind) (info : Nat) (s : State) :
    (raiseFault k info s).rcvState = s.rcvState := rfl
@[simp] theorem raiseFault_rawLen (k : FaultKind) (info : Nat) (s : State) :
    (raiseFault k info s).rawLen = s.rawLen := rfl
@[simp] theorem raiseFault_overflow (k : FaultKind) (info : Nat) (s : State) :
    (raiseFault k info s).overflow = s.overflow := rfl
@[simp] theorem raiseFault_tau (k : FaultKind) (info : Nat) (s : State) : (raiseFault k info s).tau = s.tau := rfl
@[simp] theorem raiseFault_clockOffset (k : FaultKind) (info : Nat) (s : State) :
    (raiseFault k info s).clockOffset = s.clockOffset := rfl
@[simp] theorem raiseFault_lastEdge (k : FaultKind) (info : Nat) (s : State) :
    (raiseFault k info s).lastEdge = s.lastEdge := rfl
@[simp] theorem raiseFault_lastEdgeSet (k : FaultKind) (info : Nat) (s : State) :
    (raiseFault k info s).lastEdgeSet = s.lastEdgeSet := rfl
@[simp] theorem raiseFault_toArmed (k : FaultKind) (info : Nat) (s : State) :
    (raiseFault k info s).toArmed = s.toArmed := rfl
@[simp] theorem raiseFault_toDeadline (k : FaultKind) (info : Nat) (s : State) :
    (raiseFault k info s).toDeadline = s.toDeadline := rfl
@[simp] theorem raiseFault_toDeadlineSet (k : FaultKind) (info : Nat) (s : State) :
    (raiseFault k info s).toDeadlineSet = s.toDeadlineSet := rfl
@[simp] theorem raiseFault_saveValid (k : FaultKind) (info : Nat) (s : State) :
    (raiseFault k info s).saveValid = s.saveValid := rfl
@[simp] theorem raiseFault_saveLen (k : FaultKind) (info : Nat) (s : State) :
    (raiseFault k info s).saveLen = s.saveLen := rfl
@[simp] theorem raiseFault_saveOvf (k : FaultKind) (info : Nat) (s : State) :
    (raiseFault k info s).saveOvf = s.saveOvf := rfl
@[simp] theorem raiseFault_live (k : FaultKind) (info : Nat) (s : State) : (raiseFault k info s).live = s.live := rfl
@[simp] theorem raiseFault_save (k : FaultKind) (info : Nat) (s : State) : (raiseFault k info s).save = s.save := rfl
@[simp] theorem raiseFault_carrierValid (k : FaultKind) (info : Nat) (s : State) :
    (raiseFault k info s).carrierValid = s.carrierValid := rfl
@[simp] theorem raiseFault_carrierHz (k : FaultKind) (info : Nat) (s : State) :
    (raiseFault k info s).carrierHz = s.carrierHz := rfl
@[simp] theorem raiseFault_duty (k : FaultKind) (info : Nat) (s : State) : (raiseFault k info s).duty = s.duty := rfl
@[simp] theorem raiseFault_periodUs (k : FaultKind) (info : Nat) (s : State) :
    (raiseFault k info s).periodUs = s.periodUs := rfl
@[simp] theorem raiseFault_onUs (k : FaultKind) (info : Nat) (s : State) : (raiseFault k info s).onUs = s.onUs := rfl
@[simp] theorem raiseFault_offUs (k : FaultKind) (info : Nat) (s : State) :
    (raiseFault k info s).offUs = s.offUs := rfl
@[simp] theorem raiseFault_outLevel (k : FaultKind) (info : Nat) (s : State) :
    (raiseFault k info s).outLevel = s.outLevel := rfl
@[simp] theorem raiseFault_outWave (k : FaultKind) (info : Nat) (s : State) :
    (raiseFault k info s).outWave = s.outWave := rfl
@[simp] theorem raiseFault_tStart (k : FaultKind) (info : Nat) (s : State) :
    (raiseFault k info s).tStart = s.tStart := rfl
@[simp] theorem raiseFault_tSet (k : FaultKind) (info : Nat) (s : State) : (raiseFault k info s).tSet = s.tSet := rfl
@[simp] theorem raiseFault_fault (k : FaultKind) (info : Nat) (s : State) :
    (raiseFault k info s).fault = some ⟨k.code, BitVec.ofNat 32 info⟩ := rfl
@[simp] theorem raiseFault_refused (k : FaultKind) (info : Nat) (s : State) :
    (raiseFault k info s).refused = s.refused := rfl
@[simp] theorem raiseFault_busyUntil (k : FaultKind) (info : Nat) (s : State) :
    (raiseFault k info s).busyUntil = s.busyUntil := rfl
@[simp] theorem raiseFault_results (k : FaultKind) (info : Nat) (s : State) :
    (raiseFault k info s).results = s.results := rfl
@[simp] theorem raiseFault_draws (k : FaultKind) (info : Nat) (s : State) :
    (raiseFault k info s).draws = s.draws := rfl
@[simp] theorem raiseFault_schedule (k : FaultKind) (info : Nat) (s : State) :
    (raiseFault k info s).schedule = s.schedule := rfl

/-! ## refuse -/

@[simp] theorem refuse_params (k : RefusalKind) (info : Nat) (s : State) : (refuse k info s).params = s.params := rfl
@[simp] theorem refuse_rxEn (k : RefusalKind) (info : Nat) (s : State) : (refuse k info s).rxEn = s.rxEn := rfl
@[simp] theorem refuse_rcvState (k : RefusalKind) (info : Nat) (s : State) :
    (refuse k info s).rcvState = s.rcvState := rfl
@[simp] theorem refuse_rawLen (k : RefusalKind) (info : Nat) (s : State) : (refuse k info s).rawLen = s.rawLen := rfl
@[simp] theorem refuse_overflow (k : RefusalKind) (info : Nat) (s : State) :
    (refuse k info s).overflow = s.overflow := rfl
@[simp] theorem refuse_tau (k : RefusalKind) (info : Nat) (s : State) : (refuse k info s).tau = s.tau := rfl
@[simp] theorem refuse_clockOffset (k : RefusalKind) (info : Nat) (s : State) :
    (refuse k info s).clockOffset = s.clockOffset := rfl
@[simp] theorem refuse_lastEdge (k : RefusalKind) (info : Nat) (s : State) :
    (refuse k info s).lastEdge = s.lastEdge := rfl
@[simp] theorem refuse_lastEdgeSet (k : RefusalKind) (info : Nat) (s : State) :
    (refuse k info s).lastEdgeSet = s.lastEdgeSet := rfl
@[simp] theorem refuse_toArmed (k : RefusalKind) (info : Nat) (s : State) :
    (refuse k info s).toArmed = s.toArmed := rfl
@[simp] theorem refuse_toDeadline (k : RefusalKind) (info : Nat) (s : State) :
    (refuse k info s).toDeadline = s.toDeadline := rfl
@[simp] theorem refuse_toDeadlineSet (k : RefusalKind) (info : Nat) (s : State) :
    (refuse k info s).toDeadlineSet = s.toDeadlineSet := rfl
@[simp] theorem refuse_saveValid (k : RefusalKind) (info : Nat) (s : State) :
    (refuse k info s).saveValid = s.saveValid := rfl
@[simp] theorem refuse_saveLen (k : RefusalKind) (info : Nat) (s : State) :
    (refuse k info s).saveLen = s.saveLen := rfl
@[simp] theorem refuse_saveOvf (k : RefusalKind) (info : Nat) (s : State) :
    (refuse k info s).saveOvf = s.saveOvf := rfl
@[simp] theorem refuse_live (k : RefusalKind) (info : Nat) (s : State) : (refuse k info s).live = s.live := rfl
@[simp] theorem refuse_save (k : RefusalKind) (info : Nat) (s : State) : (refuse k info s).save = s.save := rfl
@[simp] theorem refuse_carrierValid (k : RefusalKind) (info : Nat) (s : State) :
    (refuse k info s).carrierValid = s.carrierValid := rfl
@[simp] theorem refuse_carrierHz (k : RefusalKind) (info : Nat) (s : State) :
    (refuse k info s).carrierHz = s.carrierHz := rfl
@[simp] theorem refuse_duty (k : RefusalKind) (info : Nat) (s : State) : (refuse k info s).duty = s.duty := rfl
@[simp] theorem refuse_periodUs (k : RefusalKind) (info : Nat) (s : State) :
    (refuse k info s).periodUs = s.periodUs := rfl
@[simp] theorem refuse_onUs (k : RefusalKind) (info : Nat) (s : State) : (refuse k info s).onUs = s.onUs := rfl
@[simp] theorem refuse_offUs (k : RefusalKind) (info : Nat) (s : State) : (refuse k info s).offUs = s.offUs := rfl
@[simp] theorem refuse_outLevel (k : RefusalKind) (info : Nat) (s : State) :
    (refuse k info s).outLevel = s.outLevel := rfl
@[simp] theorem refuse_outWave (k : RefusalKind) (info : Nat) (s : State) :
    (refuse k info s).outWave = s.outWave := rfl
@[simp] theorem refuse_tStart (k : RefusalKind) (info : Nat) (s : State) : (refuse k info s).tStart = s.tStart := rfl
@[simp] theorem refuse_tSet (k : RefusalKind) (info : Nat) (s : State) : (refuse k info s).tSet = s.tSet := rfl
@[simp] theorem refuse_fault (k : RefusalKind) (info : Nat) (s : State) : (refuse k info s).fault = s.fault := rfl
@[simp] theorem refuse_refused (k : RefusalKind) (info : Nat) (s : State) :
    (refuse k info s).refused = some ⟨k.code, BitVec.ofNat 32 info⟩ := rfl
@[simp] theorem refuse_busyUntil (k : RefusalKind) (info : Nat) (s : State) :
    (refuse k info s).busyUntil = s.busyUntil := rfl
@[simp] theorem refuse_results (k : RefusalKind) (info : Nat) (s : State) :
    (refuse k info s).results = s.results := rfl
@[simp] theorem refuse_draws (k : RefusalKind) (info : Nat) (s : State) : (refuse k info s).draws = s.draws := rfl
@[simp] theorem refuse_schedule (k : RefusalKind) (info : Nat) (s : State) :
    (refuse k info s).schedule = s.schedule := rfl

/-! ## spendDraw -/

@[simp] theorem spendDraw_params (s : State) : (spendDraw s).params = s.params := rfl
@[simp] theorem spendDraw_rxEn (s : State) : (spendDraw s).rxEn = s.rxEn := rfl
@[simp] theorem spendDraw_rcvState (s : State) : (spendDraw s).rcvState = s.rcvState := rfl
@[simp] theorem spendDraw_rawLen (s : State) : (spendDraw s).rawLen = s.rawLen := rfl
@[simp] theorem spendDraw_overflow (s : State) : (spendDraw s).overflow = s.overflow := rfl
@[simp] theorem spendDraw_tau (s : State) : (spendDraw s).tau = s.tau := rfl
@[simp] theorem spendDraw_clockOffset (s : State) : (spendDraw s).clockOffset = s.clockOffset := rfl
@[simp] theorem spendDraw_lastEdge (s : State) : (spendDraw s).lastEdge = s.lastEdge := rfl
@[simp] theorem spendDraw_lastEdgeSet (s : State) : (spendDraw s).lastEdgeSet = s.lastEdgeSet := rfl
@[simp] theorem spendDraw_toArmed (s : State) : (spendDraw s).toArmed = s.toArmed := rfl
@[simp] theorem spendDraw_toDeadline (s : State) : (spendDraw s).toDeadline = s.toDeadline := rfl
@[simp] theorem spendDraw_toDeadlineSet (s : State) : (spendDraw s).toDeadlineSet = s.toDeadlineSet := rfl
@[simp] theorem spendDraw_saveValid (s : State) : (spendDraw s).saveValid = s.saveValid := rfl
@[simp] theorem spendDraw_saveLen (s : State) : (spendDraw s).saveLen = s.saveLen := rfl
@[simp] theorem spendDraw_saveOvf (s : State) : (spendDraw s).saveOvf = s.saveOvf := rfl
@[simp] theorem spendDraw_live (s : State) : (spendDraw s).live = s.live := rfl
@[simp] theorem spendDraw_save (s : State) : (spendDraw s).save = s.save := rfl
@[simp] theorem spendDraw_carrierValid (s : State) : (spendDraw s).carrierValid = s.carrierValid := rfl
@[simp] theorem spendDraw_carrierHz (s : State) : (spendDraw s).carrierHz = s.carrierHz := rfl
@[simp] theorem spendDraw_duty (s : State) : (spendDraw s).duty = s.duty := rfl
@[simp] theorem spendDraw_periodUs (s : State) : (spendDraw s).periodUs = s.periodUs := rfl
@[simp] theorem spendDraw_onUs (s : State) : (spendDraw s).onUs = s.onUs := rfl
@[simp] theorem spendDraw_offUs (s : State) : (spendDraw s).offUs = s.offUs := rfl
@[simp] theorem spendDraw_outLevel (s : State) : (spendDraw s).outLevel = s.outLevel := rfl
@[simp] theorem spendDraw_outWave (s : State) : (spendDraw s).outWave = s.outWave := rfl
@[simp] theorem spendDraw_tStart (s : State) : (spendDraw s).tStart = s.tStart := rfl
@[simp] theorem spendDraw_tSet (s : State) : (spendDraw s).tSet = s.tSet := rfl
@[simp] theorem spendDraw_fault (s : State) : (spendDraw s).fault = s.fault := rfl
@[simp] theorem spendDraw_refused (s : State) : (spendDraw s).refused = s.refused := rfl
@[simp] theorem spendDraw_busyUntil (s : State) : (spendDraw s).busyUntil = s.busyUntil := rfl
@[simp] theorem spendDraw_results (s : State) : (spendDraw s).results = s.results := rfl
@[simp] theorem spendDraw_draws (s : State) : (spendDraw s).draws = s.draws + 1 := rfl
@[simp] theorem spendDraw_schedule (s : State) : (spendDraw s).schedule = s.schedule := rfl

/-! ## resumeCapture -/

@[simp] theorem resumeCapture_params (s : State) : (resumeCapture s).params = s.params := rfl
@[simp] theorem resumeCapture_rxEn (s : State) : (resumeCapture s).rxEn = s.rxEn := rfl
@[simp] theorem resumeCapture_rcvState (s : State) : (resumeCapture s).rcvState = .idle := rfl
@[simp] theorem resumeCapture_rawLen (s : State) : (resumeCapture s).rawLen = 0 := rfl
@[simp] theorem resumeCapture_overflow (s : State) : (resumeCapture s).overflow = false := rfl
@[simp] theorem resumeCapture_tau (s : State) : (resumeCapture s).tau = s.tau := rfl
@[simp] theorem resumeCapture_clockOffset (s : State) : (resumeCapture s).clockOffset = s.clockOffset := rfl
@[simp] theorem resumeCapture_lastEdge (s : State) : (resumeCapture s).lastEdge = s.lastEdge := rfl
@[simp] theorem resumeCapture_lastEdgeSet (s : State) : (resumeCapture s).lastEdgeSet = s.lastEdgeSet := rfl
@[simp] theorem resumeCapture_toArmed (s : State) : (resumeCapture s).toArmed = s.toArmed := rfl
@[simp] theorem resumeCapture_toDeadline (s : State) : (resumeCapture s).toDeadline = s.toDeadline := rfl
@[simp] theorem resumeCapture_toDeadlineSet (s : State) : (resumeCapture s).toDeadlineSet = s.toDeadlineSet := rfl
@[simp] theorem resumeCapture_saveValid (s : State) : (resumeCapture s).saveValid = s.saveValid := rfl
@[simp] theorem resumeCapture_saveLen (s : State) : (resumeCapture s).saveLen = s.saveLen := rfl
@[simp] theorem resumeCapture_saveOvf (s : State) : (resumeCapture s).saveOvf = s.saveOvf := rfl
@[simp] theorem resumeCapture_live (s : State) : (resumeCapture s).live = s.live := rfl
@[simp] theorem resumeCapture_save (s : State) : (resumeCapture s).save = s.save := rfl
@[simp] theorem resumeCapture_carrierValid (s : State) : (resumeCapture s).carrierValid = s.carrierValid := rfl
@[simp] theorem resumeCapture_carrierHz (s : State) : (resumeCapture s).carrierHz = s.carrierHz := rfl
@[simp] theorem resumeCapture_duty (s : State) : (resumeCapture s).duty = s.duty := rfl
@[simp] theorem resumeCapture_periodUs (s : State) : (resumeCapture s).periodUs = s.periodUs := rfl
@[simp] theorem resumeCapture_onUs (s : State) : (resumeCapture s).onUs = s.onUs := rfl
@[simp] theorem resumeCapture_offUs (s : State) : (resumeCapture s).offUs = s.offUs := rfl
@[simp] theorem resumeCapture_outLevel (s : State) : (resumeCapture s).outLevel = s.outLevel := rfl
@[simp] theorem resumeCapture_outWave (s : State) : (resumeCapture s).outWave = s.outWave := rfl
@[simp] theorem resumeCapture_tStart (s : State) : (resumeCapture s).tStart = s.tStart := rfl
@[simp] theorem resumeCapture_tSet (s : State) : (resumeCapture s).tSet = s.tSet := rfl
@[simp] theorem resumeCapture_fault (s : State) : (resumeCapture s).fault = s.fault := rfl
@[simp] theorem resumeCapture_refused (s : State) : (resumeCapture s).refused = s.refused := rfl
@[simp] theorem resumeCapture_busyUntil (s : State) : (resumeCapture s).busyUntil = s.busyUntil := rfl
@[simp] theorem resumeCapture_results (s : State) : (resumeCapture s).results = s.results := rfl
@[simp] theorem resumeCapture_draws (s : State) : (resumeCapture s).draws = s.draws := rfl
@[simp] theorem resumeCapture_schedule (s : State) : (resumeCapture s).schedule = s.schedule := rfl

/-! ## disarm -/

@[simp] theorem disarm_params (s : State) : (disarm s).params = s.params := rfl
@[simp] theorem disarm_rxEn (s : State) : (disarm s).rxEn = s.rxEn := rfl
@[simp] theorem disarm_rcvState (s : State) : (disarm s).rcvState = s.rcvState := rfl
@[simp] theorem disarm_rawLen (s : State) : (disarm s).rawLen = s.rawLen := rfl
@[simp] theorem disarm_overflow (s : State) : (disarm s).overflow = s.overflow := rfl
@[simp] theorem disarm_tau (s : State) : (disarm s).tau = s.tau := rfl
@[simp] theorem disarm_clockOffset (s : State) : (disarm s).clockOffset = s.clockOffset := rfl
@[simp] theorem disarm_lastEdge (s : State) : (disarm s).lastEdge = s.lastEdge := rfl
@[simp] theorem disarm_lastEdgeSet (s : State) : (disarm s).lastEdgeSet = s.lastEdgeSet := rfl
@[simp] theorem disarm_toArmed (s : State) : (disarm s).toArmed = false := rfl
@[simp] theorem disarm_toDeadline (s : State) : (disarm s).toDeadline = s.toDeadline := rfl
@[simp] theorem disarm_toDeadlineSet (s : State) : (disarm s).toDeadlineSet = s.toDeadlineSet := rfl
@[simp] theorem disarm_saveValid (s : State) : (disarm s).saveValid = s.saveValid := rfl
@[simp] theorem disarm_saveLen (s : State) : (disarm s).saveLen = s.saveLen := rfl
@[simp] theorem disarm_saveOvf (s : State) : (disarm s).saveOvf = s.saveOvf := rfl
@[simp] theorem disarm_live (s : State) : (disarm s).live = s.live := rfl
@[simp] theorem disarm_save (s : State) : (disarm s).save = s.save := rfl
@[simp] theorem disarm_carrierValid (s : State) : (disarm s).carrierValid = s.carrierValid := rfl
@[simp] theorem disarm_carrierHz (s : State) : (disarm s).carrierHz = s.carrierHz := rfl
@[simp] theorem disarm_duty (s : State) : (disarm s).duty = s.duty := rfl
@[simp] theorem disarm_periodUs (s : State) : (disarm s).periodUs = s.periodUs := rfl
@[simp] theorem disarm_onUs (s : State) : (disarm s).onUs = s.onUs := rfl
@[simp] theorem disarm_offUs (s : State) : (disarm s).offUs = s.offUs := rfl
@[simp] theorem disarm_outLevel (s : State) : (disarm s).outLevel = s.outLevel := rfl
@[simp] theorem disarm_outWave (s : State) : (disarm s).outWave = s.outWave := rfl
@[simp] theorem disarm_tStart (s : State) : (disarm s).tStart = s.tStart := rfl
@[simp] theorem disarm_tSet (s : State) : (disarm s).tSet = s.tSet := rfl
@[simp] theorem disarm_fault (s : State) : (disarm s).fault = s.fault := rfl
@[simp] theorem disarm_refused (s : State) : (disarm s).refused = s.refused := rfl
@[simp] theorem disarm_busyUntil (s : State) : (disarm s).busyUntil = s.busyUntil := rfl
@[simp] theorem disarm_results (s : State) : (disarm s).results = s.results := rfl
@[simp] theorem disarm_draws (s : State) : (disarm s).draws = s.draws := rfl
@[simp] theorem disarm_schedule (s : State) : (disarm s).schedule = s.schedule := rfl

/-! ## rearm -/

@[simp] theorem rearm_params (s : State) : (rearm s).params = s.params := rfl
@[simp] theorem rearm_rxEn (s : State) : (rearm s).rxEn = s.rxEn := rfl
@[simp] theorem rearm_rcvState (s : State) : (rearm s).rcvState = s.rcvState := rfl
@[simp] theorem rearm_rawLen (s : State) : (rearm s).rawLen = s.rawLen := rfl
@[simp] theorem rearm_overflow (s : State) : (rearm s).overflow = s.overflow := rfl
@[simp] theorem rearm_tau (s : State) : (rearm s).tau = s.tau := rfl
@[simp] theorem rearm_clockOffset (s : State) : (rearm s).clockOffset = s.clockOffset := rfl
@[simp] theorem rearm_lastEdge (s : State) : (rearm s).lastEdge = s.lastEdge := rfl
@[simp] theorem rearm_lastEdgeSet (s : State) : (rearm s).lastEdgeSet = s.lastEdgeSet := rfl
@[simp] theorem rearm_toArmed (s : State) : (rearm s).toArmed = true := rfl
@[simp] theorem rearm_toDeadline (s : State) : (rearm s).toDeadline = s.tau + s.params.timeoutUs := rfl
@[simp] theorem rearm_toDeadlineSet (s : State) : (rearm s).toDeadlineSet = true := rfl
@[simp] theorem rearm_saveValid (s : State) : (rearm s).saveValid = s.saveValid := rfl
@[simp] theorem rearm_saveLen (s : State) : (rearm s).saveLen = s.saveLen := rfl
@[simp] theorem rearm_saveOvf (s : State) : (rearm s).saveOvf = s.saveOvf := rfl
@[simp] theorem rearm_live (s : State) : (rearm s).live = s.live := rfl
@[simp] theorem rearm_save (s : State) : (rearm s).save = s.save := rfl
@[simp] theorem rearm_carrierValid (s : State) : (rearm s).carrierValid = s.carrierValid := rfl
@[simp] theorem rearm_carrierHz (s : State) : (rearm s).carrierHz = s.carrierHz := rfl
@[simp] theorem rearm_duty (s : State) : (rearm s).duty = s.duty := rfl
@[simp] theorem rearm_periodUs (s : State) : (rearm s).periodUs = s.periodUs := rfl
@[simp] theorem rearm_onUs (s : State) : (rearm s).onUs = s.onUs := rfl
@[simp] theorem rearm_offUs (s : State) : (rearm s).offUs = s.offUs := rfl
@[simp] theorem rearm_outLevel (s : State) : (rearm s).outLevel = s.outLevel := rfl
@[simp] theorem rearm_outWave (s : State) : (rearm s).outWave = s.outWave := rfl
@[simp] theorem rearm_tStart (s : State) : (rearm s).tStart = s.tStart := rfl
@[simp] theorem rearm_tSet (s : State) : (rearm s).tSet = s.tSet := rfl
@[simp] theorem rearm_fault (s : State) : (rearm s).fault = s.fault := rfl
@[simp] theorem rearm_refused (s : State) : (rearm s).refused = s.refused := rfl
@[simp] theorem rearm_busyUntil (s : State) : (rearm s).busyUntil = s.busyUntil := rfl
@[simp] theorem rearm_results (s : State) : (rearm s).results = s.results := rfl
@[simp] theorem rearm_draws (s : State) : (rearm s).draws = s.draws := rfl
@[simp] theorem rearm_schedule (s : State) : (rearm s).schedule = s.schedule := rfl

/-! ## setOverflow -/

@[simp] theorem setOverflow_params (s : State) : (setOverflow s).params = s.params := rfl
@[simp] theorem setOverflow_rxEn (s : State) : (setOverflow s).rxEn = s.rxEn := rfl
@[simp] theorem setOverflow_rcvState (s : State) : (setOverflow s).rcvState = .stop := rfl
@[simp] theorem setOverflow_rawLen (s : State) : (setOverflow s).rawLen = s.rawLen := rfl
@[simp] theorem setOverflow_overflow (s : State) : (setOverflow s).overflow = true := rfl
@[simp] theorem setOverflow_tau (s : State) : (setOverflow s).tau = s.tau := rfl
@[simp] theorem setOverflow_clockOffset (s : State) : (setOverflow s).clockOffset = s.clockOffset := rfl
@[simp] theorem setOverflow_lastEdge (s : State) : (setOverflow s).lastEdge = s.lastEdge := rfl
@[simp] theorem setOverflow_lastEdgeSet (s : State) : (setOverflow s).lastEdgeSet = s.lastEdgeSet := rfl
@[simp] theorem setOverflow_toArmed (s : State) : (setOverflow s).toArmed = s.toArmed := rfl
@[simp] theorem setOverflow_toDeadline (s : State) : (setOverflow s).toDeadline = s.toDeadline := rfl
@[simp] theorem setOverflow_toDeadlineSet (s : State) : (setOverflow s).toDeadlineSet = s.toDeadlineSet := rfl
@[simp] theorem setOverflow_saveValid (s : State) : (setOverflow s).saveValid = s.saveValid := rfl
@[simp] theorem setOverflow_saveLen (s : State) : (setOverflow s).saveLen = s.saveLen := rfl
@[simp] theorem setOverflow_saveOvf (s : State) : (setOverflow s).saveOvf = s.saveOvf := rfl
@[simp] theorem setOverflow_live (s : State) : (setOverflow s).live = s.live := rfl
@[simp] theorem setOverflow_save (s : State) : (setOverflow s).save = s.save := rfl
@[simp] theorem setOverflow_carrierValid (s : State) : (setOverflow s).carrierValid = s.carrierValid := rfl
@[simp] theorem setOverflow_carrierHz (s : State) : (setOverflow s).carrierHz = s.carrierHz := rfl
@[simp] theorem setOverflow_duty (s : State) : (setOverflow s).duty = s.duty := rfl
@[simp] theorem setOverflow_periodUs (s : State) : (setOverflow s).periodUs = s.periodUs := rfl
@[simp] theorem setOverflow_onUs (s : State) : (setOverflow s).onUs = s.onUs := rfl
@[simp] theorem setOverflow_offUs (s : State) : (setOverflow s).offUs = s.offUs := rfl
@[simp] theorem setOverflow_outLevel (s : State) : (setOverflow s).outLevel = s.outLevel := rfl
@[simp] theorem setOverflow_outWave (s : State) : (setOverflow s).outWave = s.outWave := rfl
@[simp] theorem setOverflow_tStart (s : State) : (setOverflow s).tStart = s.tStart := rfl
@[simp] theorem setOverflow_tSet (s : State) : (setOverflow s).tSet = s.tSet := rfl
@[simp] theorem setOverflow_fault (s : State) : (setOverflow s).fault = s.fault := rfl
@[simp] theorem setOverflow_refused (s : State) : (setOverflow s).refused = s.refused := rfl
@[simp] theorem setOverflow_busyUntil (s : State) : (setOverflow s).busyUntil = s.busyUntil := rfl
@[simp] theorem setOverflow_results (s : State) : (setOverflow s).results = s.results := rfl
@[simp] theorem setOverflow_draws (s : State) : (setOverflow s).draws = s.draws := rfl
@[simp] theorem setOverflow_schedule (s : State) : (setOverflow s).schedule = s.schedule := rfl

/-! ## recordEdge -/

@[simp] theorem recordEdge_params (s : State) : (recordEdge s).params = s.params := rfl
@[simp] theorem recordEdge_rxEn (s : State) : (recordEdge s).rxEn = s.rxEn := rfl
@[simp] theorem recordEdge_rcvState (s : State) : (recordEdge s).rcvState = .mark := rfl
@[simp] theorem recordEdge_rawLen (s : State) : (recordEdge s).rawLen = s.rawLen + 1 := rfl
@[simp] theorem recordEdge_overflow (s : State) : (recordEdge s).overflow = s.overflow := rfl
@[simp] theorem recordEdge_tau (s : State) : (recordEdge s).tau = s.tau := rfl
@[simp] theorem recordEdge_clockOffset (s : State) : (recordEdge s).clockOffset = s.clockOffset := rfl
@[simp] theorem recordEdge_lastEdge (s : State) : (recordEdge s).lastEdge = s.now := rfl
@[simp] theorem recordEdge_lastEdgeSet (s : State) : (recordEdge s).lastEdgeSet = true := rfl
@[simp] theorem recordEdge_toArmed (s : State) : (recordEdge s).toArmed = s.toArmed := rfl
@[simp] theorem recordEdge_toDeadline (s : State) : (recordEdge s).toDeadline = s.toDeadline := rfl
@[simp] theorem recordEdge_toDeadlineSet (s : State) : (recordEdge s).toDeadlineSet = s.toDeadlineSet := rfl
@[simp] theorem recordEdge_saveValid (s : State) : (recordEdge s).saveValid = s.saveValid := rfl
@[simp] theorem recordEdge_saveLen (s : State) : (recordEdge s).saveLen = s.saveLen := rfl
@[simp] theorem recordEdge_saveOvf (s : State) : (recordEdge s).saveOvf = s.saveOvf := rfl
@[simp] theorem recordEdge_live (s : State) :
    (recordEdge s).live = bankWrite s.params s.live s.rawLen.toNat
      (if s.rcvState = .idle then Config.sentinel else interval s.params s.now s.lastEdge) := rfl
@[simp] theorem recordEdge_save (s : State) : (recordEdge s).save = s.save := rfl
@[simp] theorem recordEdge_carrierValid (s : State) : (recordEdge s).carrierValid = s.carrierValid := rfl
@[simp] theorem recordEdge_carrierHz (s : State) : (recordEdge s).carrierHz = s.carrierHz := rfl
@[simp] theorem recordEdge_duty (s : State) : (recordEdge s).duty = s.duty := rfl
@[simp] theorem recordEdge_periodUs (s : State) : (recordEdge s).periodUs = s.periodUs := rfl
@[simp] theorem recordEdge_onUs (s : State) : (recordEdge s).onUs = s.onUs := rfl
@[simp] theorem recordEdge_offUs (s : State) : (recordEdge s).offUs = s.offUs := rfl
@[simp] theorem recordEdge_outLevel (s : State) : (recordEdge s).outLevel = s.outLevel := rfl
@[simp] theorem recordEdge_outWave (s : State) : (recordEdge s).outWave = s.outWave := rfl
@[simp] theorem recordEdge_tStart (s : State) : (recordEdge s).tStart = s.tStart := rfl
@[simp] theorem recordEdge_tSet (s : State) : (recordEdge s).tSet = s.tSet := rfl
@[simp] theorem recordEdge_fault (s : State) : (recordEdge s).fault = s.fault := rfl
@[simp] theorem recordEdge_refused (s : State) : (recordEdge s).refused = s.refused := rfl
@[simp] theorem recordEdge_busyUntil (s : State) : (recordEdge s).busyUntil = s.busyUntil := rfl
@[simp] theorem recordEdge_results (s : State) : (recordEdge s).results = s.results := rfl
@[simp] theorem recordEdge_draws (s : State) : (recordEdge s).draws = s.draws := rfl
@[simp] theorem recordEdge_schedule (s : State) : (recordEdge s).schedule = s.schedule := rfl

/-! ## copyAndResume -/

@[simp] theorem copyAndResume_params (s : State) : (copyAndResume s).params = s.params := rfl
@[simp] theorem copyAndResume_rxEn (s : State) : (copyAndResume s).rxEn = s.rxEn := rfl
@[simp] theorem copyAndResume_rcvState (s : State) : (copyAndResume s).rcvState = .idle := rfl
@[simp] theorem copyAndResume_rawLen (s : State) : (copyAndResume s).rawLen = 0 := rfl
@[simp] theorem copyAndResume_overflow (s : State) : (copyAndResume s).overflow = false := rfl
@[simp] theorem copyAndResume_tau (s : State) : (copyAndResume s).tau = s.tau := rfl
@[simp] theorem copyAndResume_clockOffset (s : State) : (copyAndResume s).clockOffset = s.clockOffset := rfl
@[simp] theorem copyAndResume_lastEdge (s : State) : (copyAndResume s).lastEdge = s.lastEdge := rfl
@[simp] theorem copyAndResume_lastEdgeSet (s : State) : (copyAndResume s).lastEdgeSet = s.lastEdgeSet := rfl
@[simp] theorem copyAndResume_toArmed (s : State) : (copyAndResume s).toArmed = s.toArmed := rfl
@[simp] theorem copyAndResume_toDeadline (s : State) : (copyAndResume s).toDeadline = s.toDeadline := rfl
@[simp] theorem copyAndResume_toDeadlineSet (s : State) : (copyAndResume s).toDeadlineSet = s.toDeadlineSet := rfl
@[simp] theorem copyAndResume_saveValid (s : State) : (copyAndResume s).saveValid = true := rfl
@[simp] theorem copyAndResume_saveLen (s : State) : (copyAndResume s).saveLen = s.rawLen := rfl
@[simp] theorem copyAndResume_saveOvf (s : State) : (copyAndResume s).saveOvf = s.overflow := rfl
@[simp] theorem copyAndResume_live (s : State) : (copyAndResume s).live = s.live := rfl
@[simp] theorem copyAndResume_save (s : State) :
    (copyAndResume s).save = bankCopy s.params s.live s.rawLen.toNat s.save := rfl
@[simp] theorem copyAndResume_carrierValid (s : State) : (copyAndResume s).carrierValid = s.carrierValid := rfl
@[simp] theorem copyAndResume_carrierHz (s : State) : (copyAndResume s).carrierHz = s.carrierHz := rfl
@[simp] theorem copyAndResume_duty (s : State) : (copyAndResume s).duty = s.duty := rfl
@[simp] theorem copyAndResume_periodUs (s : State) : (copyAndResume s).periodUs = s.periodUs := rfl
@[simp] theorem copyAndResume_onUs (s : State) : (copyAndResume s).onUs = s.onUs := rfl
@[simp] theorem copyAndResume_offUs (s : State) : (copyAndResume s).offUs = s.offUs := rfl
@[simp] theorem copyAndResume_outLevel (s : State) : (copyAndResume s).outLevel = s.outLevel := rfl
@[simp] theorem copyAndResume_outWave (s : State) : (copyAndResume s).outWave = s.outWave := rfl
@[simp] theorem copyAndResume_tStart (s : State) : (copyAndResume s).tStart = s.tStart := rfl
@[simp] theorem copyAndResume_tSet (s : State) : (copyAndResume s).tSet = s.tSet := rfl
@[simp] theorem copyAndResume_fault (s : State) : (copyAndResume s).fault = s.fault := rfl
@[simp] theorem copyAndResume_refused (s : State) : (copyAndResume s).refused = s.refused := rfl
@[simp] theorem copyAndResume_busyUntil (s : State) : (copyAndResume s).busyUntil = s.busyUntil := rfl
@[simp] theorem copyAndResume_results (s : State) : (copyAndResume s).results = s.results := rfl
@[simp] theorem copyAndResume_draws (s : State) : (copyAndResume s).draws = s.draws := rfl
@[simp] theorem copyAndResume_schedule (s : State) : (copyAndResume s).schedule = s.schedule := rfl

/-! ## configureCarrier -/

@[simp] theorem configureCarrier_params (freq : U32) (duty : Byte) (s : State) :
    (configureCarrier freq duty s).params = s.params := rfl
@[simp] theorem configureCarrier_rxEn (freq : U32) (duty : Byte) (s : State) :
    (configureCarrier freq duty s).rxEn = s.rxEn := rfl
@[simp] theorem configureCarrier_rcvState (freq : U32) (duty : Byte) (s : State) :
    (configureCarrier freq duty s).rcvState = s.rcvState := rfl
@[simp] theorem configureCarrier_rawLen (freq : U32) (duty : Byte) (s : State) :
    (configureCarrier freq duty s).rawLen = s.rawLen := rfl
@[simp] theorem configureCarrier_overflow (freq : U32) (duty : Byte) (s : State) :
    (configureCarrier freq duty s).overflow = s.overflow := rfl
@[simp] theorem configureCarrier_tau (freq : U32) (duty : Byte) (s : State) :
    (configureCarrier freq duty s).tau = s.tau := rfl
@[simp] theorem configureCarrier_clockOffset (freq : U32) (duty : Byte) (s : State) :
    (configureCarrier freq duty s).clockOffset = s.clockOffset := rfl
@[simp] theorem configureCarrier_lastEdge (freq : U32) (duty : Byte) (s : State) :
    (configureCarrier freq duty s).lastEdge = s.lastEdge := rfl
@[simp] theorem configureCarrier_lastEdgeSet (freq : U32) (duty : Byte) (s : State) :
    (configureCarrier freq duty s).lastEdgeSet = s.lastEdgeSet := rfl
@[simp] theorem configureCarrier_toArmed (freq : U32) (duty : Byte) (s : State) :
    (configureCarrier freq duty s).toArmed = s.toArmed := rfl
@[simp] theorem configureCarrier_toDeadline (freq : U32) (duty : Byte) (s : State) :
    (configureCarrier freq duty s).toDeadline = s.toDeadline := rfl
@[simp] theorem configureCarrier_toDeadlineSet (freq : U32) (duty : Byte) (s : State) :
    (configureCarrier freq duty s).toDeadlineSet = s.toDeadlineSet := rfl
@[simp] theorem configureCarrier_saveValid (freq : U32) (duty : Byte) (s : State) :
    (configureCarrier freq duty s).saveValid = s.saveValid := rfl
@[simp] theorem configureCarrier_saveLen (freq : U32) (duty : Byte) (s : State) :
    (configureCarrier freq duty s).saveLen = s.saveLen := rfl
@[simp] theorem configureCarrier_saveOvf (freq : U32) (duty : Byte) (s : State) :
    (configureCarrier freq duty s).saveOvf = s.saveOvf := rfl
@[simp] theorem configureCarrier_live (freq : U32) (duty : Byte) (s : State) :
    (configureCarrier freq duty s).live = s.live := rfl
@[simp] theorem configureCarrier_save (freq : U32) (duty : Byte) (s : State) :
    (configureCarrier freq duty s).save = s.save := rfl
@[simp] theorem configureCarrier_carrierValid (freq : U32) (duty : Byte) (s : State) :
    (configureCarrier freq duty s).carrierValid = true := rfl
@[simp] theorem configureCarrier_carrierHz (freq : U32) (duty : Byte) (s : State) :
    (configureCarrier freq duty s).carrierHz = BitVec.ofNat 32 (carrierHzOf freq.toNat) := rfl
@[simp] theorem configureCarrier_duty (freq : U32) (duty : Byte) (s : State) :
    (configureCarrier freq duty s).duty = BitVec.ofNat 8 (min duty.toNat 100) := rfl
@[simp] theorem configureCarrier_periodUs (freq : U32) (duty : Byte) (s : State) :
    (configureCarrier freq duty s).periodUs = BitVec.ofNat 32 (carrierPeriod (carrierHzOf freq.toNat)) := rfl
@[simp] theorem configureCarrier_onUs (freq : U32) (duty : Byte) (s : State) :
    (configureCarrier freq duty s).onUs = BitVec.ofNat 32 (carrierOn (carrierPeriod (carrierHzOf freq.toNat)) (min duty.toNat 100)) := rfl
@[simp] theorem configureCarrier_offUs (freq : U32) (duty : Byte) (s : State) :
    (configureCarrier freq duty s).offUs = BitVec.ofNat 32 (carrierPeriod (carrierHzOf freq.toNat) -
      carrierOn (carrierPeriod (carrierHzOf freq.toNat)) (min duty.toNat 100)) := rfl
@[simp] theorem configureCarrier_outLevel (freq : U32) (duty : Byte) (s : State) :
    (configureCarrier freq duty s).outLevel = s.outLevel := rfl
@[simp] theorem configureCarrier_outWave (freq : U32) (duty : Byte) (s : State) :
    (configureCarrier freq duty s).outWave = s.outWave := rfl
@[simp] theorem configureCarrier_tStart (freq : U32) (duty : Byte) (s : State) :
    (configureCarrier freq duty s).tStart = s.tStart := rfl
@[simp] theorem configureCarrier_tSet (freq : U32) (duty : Byte) (s : State) :
    (configureCarrier freq duty s).tSet = s.tSet := rfl
@[simp] theorem configureCarrier_fault (freq : U32) (duty : Byte) (s : State) :
    (configureCarrier freq duty s).fault = s.fault := rfl
@[simp] theorem configureCarrier_refused (freq : U32) (duty : Byte) (s : State) :
    (configureCarrier freq duty s).refused = s.refused := rfl
@[simp] theorem configureCarrier_busyUntil (freq : U32) (duty : Byte) (s : State) :
    (configureCarrier freq duty s).busyUntil = s.busyUntil := rfl
@[simp] theorem configureCarrier_results (freq : U32) (duty : Byte) (s : State) :
    (configureCarrier freq duty s).results = s.results := rfl
@[simp] theorem configureCarrier_draws (freq : U32) (duty : Byte) (s : State) :
    (configureCarrier freq duty s).draws = s.draws := rfl
@[simp] theorem configureCarrier_schedule (freq : U32) (duty : Byte) (s : State) :
    (configureCarrier freq duty s).schedule = s.schedule := rfl

/-! ## sendEnvelope -/

@[simp] theorem sendEnvelope_params (pulses : List Pulse) (s : State) :
    (sendEnvelope pulses s).params = s.params := rfl
@[simp] theorem sendEnvelope_rxEn (pulses : List Pulse) (s : State) : (sendEnvelope pulses s).rxEn = s.rxEn := rfl
@[simp] theorem sendEnvelope_rcvState (pulses : List Pulse) (s : State) :
    (sendEnvelope pulses s).rcvState = s.rcvState := rfl
@[simp] theorem sendEnvelope_rawLen (pulses : List Pulse) (s : State) :
    (sendEnvelope pulses s).rawLen = s.rawLen := rfl
@[simp] theorem sendEnvelope_overflow (pulses : List Pulse) (s : State) :
    (sendEnvelope pulses s).overflow = s.overflow := rfl
@[simp] theorem sendEnvelope_tau (pulses : List Pulse) (s : State) : (sendEnvelope pulses s).tau = s.tau := rfl
@[simp] theorem sendEnvelope_clockOffset (pulses : List Pulse) (s : State) :
    (sendEnvelope pulses s).clockOffset = s.clockOffset := rfl
@[simp] theorem sendEnvelope_lastEdge (pulses : List Pulse) (s : State) :
    (sendEnvelope pulses s).lastEdge = s.lastEdge := rfl
@[simp] theorem sendEnvelope_lastEdgeSet (pulses : List Pulse) (s : State) :
    (sendEnvelope pulses s).lastEdgeSet = s.lastEdgeSet := rfl
@[simp] theorem sendEnvelope_toArmed (pulses : List Pulse) (s : State) :
    (sendEnvelope pulses s).toArmed = s.toArmed := rfl
@[simp] theorem sendEnvelope_toDeadline (pulses : List Pulse) (s : State) :
    (sendEnvelope pulses s).toDeadline = s.toDeadline := rfl
@[simp] theorem sendEnvelope_toDeadlineSet (pulses : List Pulse) (s : State) :
    (sendEnvelope pulses s).toDeadlineSet = s.toDeadlineSet := rfl
@[simp] theorem sendEnvelope_saveValid (pulses : List Pulse) (s : State) :
    (sendEnvelope pulses s).saveValid = s.saveValid := rfl
@[simp] theorem sendEnvelope_saveLen (pulses : List Pulse) (s : State) :
    (sendEnvelope pulses s).saveLen = s.saveLen := rfl
@[simp] theorem sendEnvelope_saveOvf (pulses : List Pulse) (s : State) :
    (sendEnvelope pulses s).saveOvf = s.saveOvf := rfl
@[simp] theorem sendEnvelope_live (pulses : List Pulse) (s : State) : (sendEnvelope pulses s).live = s.live := rfl
@[simp] theorem sendEnvelope_save (pulses : List Pulse) (s : State) : (sendEnvelope pulses s).save = s.save := rfl
@[simp] theorem sendEnvelope_carrierValid (pulses : List Pulse) (s : State) :
    (sendEnvelope pulses s).carrierValid = s.carrierValid := rfl
@[simp] theorem sendEnvelope_carrierHz (pulses : List Pulse) (s : State) :
    (sendEnvelope pulses s).carrierHz = s.carrierHz := rfl
@[simp] theorem sendEnvelope_duty (pulses : List Pulse) (s : State) : (sendEnvelope pulses s).duty = s.duty := rfl
@[simp] theorem sendEnvelope_periodUs (pulses : List Pulse) (s : State) :
    (sendEnvelope pulses s).periodUs = s.periodUs := rfl
@[simp] theorem sendEnvelope_onUs (pulses : List Pulse) (s : State) : (sendEnvelope pulses s).onUs = s.onUs := rfl
@[simp] theorem sendEnvelope_offUs (pulses : List Pulse) (s : State) : (sendEnvelope pulses s).offUs = s.offUs := rfl
@[simp] theorem sendEnvelope_outLevel (pulses : List Pulse) (s : State) :
    (sendEnvelope pulses s).outLevel = .low := rfl
@[simp] theorem sendEnvelope_outWave (pulses : List Pulse) (s : State) :
    (sendEnvelope pulses s).outWave = (play s.onUs.toNat s.offUs.toNat pulses ⟨s.outWave, 0⟩).wave := rfl
@[simp] theorem sendEnvelope_tStart (pulses : List Pulse) (s : State) :
    (sendEnvelope pulses s).tStart = s.tStart := rfl
@[simp] theorem sendEnvelope_tSet (pulses : List Pulse) (s : State) : (sendEnvelope pulses s).tSet = s.tSet := rfl
@[simp] theorem sendEnvelope_fault (pulses : List Pulse) (s : State) : (sendEnvelope pulses s).fault = s.fault := rfl
@[simp] theorem sendEnvelope_refused (pulses : List Pulse) (s : State) :
    (sendEnvelope pulses s).refused = s.refused := rfl
@[simp] theorem sendEnvelope_busyUntil (pulses : List Pulse) (s : State) :
    (sendEnvelope pulses s).busyUntil = s.tau + (play s.onUs.toNat s.offUs.toNat pulses ⟨s.outWave, 0⟩).spent := rfl
@[simp] theorem sendEnvelope_results (pulses : List Pulse) (s : State) :
    (sendEnvelope pulses s).results = s.results := rfl
@[simp] theorem sendEnvelope_draws (pulses : List Pulse) (s : State) : (sendEnvelope pulses s).draws = s.draws := rfl
@[simp] theorem sendEnvelope_schedule (pulses : List Pulse) (s : State) :
    (sendEnvelope pulses s).schedule = s.schedule := rfl

end Sys2Proof.Machine
end

