-- ==== Sys2Proof/Laws/Step.lean ====
section
/-! SUPPORT. What one step can do, said once: from an answer `next t` to how it came about. -/

namespace Sys2Proof.Machine

/-- A step that answers a next state is a power-on, a refusal of the port, an idle machine that stays as it is,
or `exec` of one instruction in a state that differs from `s` in the schedule and the time only, and then no
stop record is set. -/
theorem step_cases {s t : State} (h : step s = .next t) :
    (∃ dt rest, s.schedule = ⟨dt, .powerOn⟩ :: rest ∧
        t = powerOn { s with schedule := rest, tau := s.tau + dt }) ∨
      (s.fault = none ∧ s.refused = none ∧
        ((∃ dt packet rest kind info, s.schedule = ⟨dt, .command packet⟩ :: rest ∧
            (kind = .eventNotCommand ∨ kind = .unknownOpcode) ∧
            t = refuse kind info { s with schedule := rest, tau := max (s.tau + dt) s.busyUntil }) ∨
          (s.schedule = [] ∧ s.toArmed = false ∧ t = s) ∨
          ∃ i rest tau, s.tau ≤ tau ∧ exec i { s with schedule := rest, tau := tau } = .next t ∧
            ((∃ dt packet, s.schedule = ⟨dt, .command packet⟩ :: rest ∧ decode packet = .instr i ∧
                i.isEvent = false ∧ tau = max (s.tau + dt) s.busyUntil) ∨
              (∃ dt, s.schedule = ⟨dt, .edge⟩ :: rest ∧ i = .evEdge ∧ tau = s.tau + dt) ∨
              (∃ dt, s.schedule = ⟨dt, .timeout⟩ :: rest ∧ i = .evTimeout ∧ tau = s.tau + dt) ∨
              (s.schedule = [] ∧ rest = [] ∧ s.toArmed = true ∧ i = .evTimeout ∧
                tau = max s.tau s.toDeadline)))) := by
  unfold step nextAction at h
  cases hs : s.schedule with
  | nil =>
    simp only [hs] at h
    cases hh : haltedBy s with
    | some f => simp [hh] at h
    | none =>
      obtain ⟨hf, hr⟩ := (haltedBy_eq_none_iff s).1 hh
      refine Or.inr ⟨hf, hr, ?_⟩
      simp only [hh, idleAction] at h
      cases ha : s.toArmed with
      | true =>
        simp only [ha, if_true] at h
        refine Or.inr (Or.inr ⟨.evTimeout, [], max s.tau s.toDeadline, le_max_left _ _, ?_, ?_⟩)
        · rw [← h, ← hs]
        · exact Or.inr (Or.inr (Or.inr ⟨rfl, rfl, rfl, rfl, rfl⟩))
      | false =>
        simp only [ha, Bool.false_eq_true, if_false] at h
        cases h
        exact Or.inr (Or.inl ⟨rfl, rfl, rfl⟩)
  | cons turn rest =>
    obtain ⟨dt, source⟩ := turn
    simp only [hs] at h
    cases source with
    | powerOn =>
      simp only at h
      cases h
      exact Or.inl ⟨dt, rest, rfl, rfl⟩
    | edge =>
      cases hh : haltedBy s with
      | some f => simp [hh] at h
      | none =>
        obtain ⟨hf, hr⟩ := (haltedBy_eq_none_iff s).1 hh
        simp only [hh] at h
        exact Or.inr ⟨hf, hr, Or.inr (Or.inr ⟨.evEdge, rest, s.tau + dt, by omega, h,
          Or.inr (Or.inl ⟨dt, rfl, rfl, rfl⟩)⟩)⟩
    | timeout =>
      cases hh : haltedBy s with
      | some f => simp [hh] at h
      | none =>
        obtain ⟨hf, hr⟩ := (haltedBy_eq_none_iff s).1 hh
        simp only [hh] at h
        exact Or.inr ⟨hf, hr, Or.inr (Or.inr ⟨.evTimeout, rest, s.tau + dt, by omega, h,
          Or.inr (Or.inr (Or.inl ⟨dt, rfl, rfl, rfl⟩))⟩)⟩
    | command packet =>
      cases hh : haltedBy s with
      | some f => simp [hh] at h
      | none =>
        obtain ⟨hf, hr⟩ := (haltedBy_eq_none_iff s).1 hh
        refine Or.inr ⟨hf, hr, ?_⟩
        simp only [hh, portAction] at h
        cases hd : decode packet with
        | instr i =>
          simp only [hd] at h
          cases hev : i.isEvent with
          | true =>
            simp only [hev, if_true] at h
            cases h
            exact Or.inl ⟨dt, packet, rest, _, _, rfl, Or.inl rfl, rfl⟩
          | false =>
            simp only [hev, Bool.false_eq_true, if_false] at h
            exact Or.inr (Or.inr ⟨i, rest, max (s.tau + dt) s.busyUntil,
              le_trans (Nat.le_add_right _ _) (le_max_left _ _), h, Or.inl ⟨dt, packet, rfl, hd, hev, rfl⟩⟩)
        | unknownOpcode op =>
          simp only [hd] at h
          cases h
          exact Or.inl ⟨dt, packet, rest, _, _, rfl, Or.inr rfl, rfl⟩
        | wrongLength op =>
          simp only [hd] at h
          split at h
          · rename_i a hx
            split at hx <;> simp at hx
          · rename_i hx
            split at hx <;> cases hx
            cases h
          · rename_i hx
            split at hx <;> cases hx
            cases h
            exact Or.inl ⟨dt, packet, rest, _, _, rfl, Or.inl rfl, rfl⟩
          · rename_i hx
            split at hx <;> cases hx
        | empty =>
          simp only [hd] at h
          cases h

/-- What every step keeps, every run keeps. -/
theorem run_keeps (Inv : State → Prop) (hstep : ∀ s t, Inv s → step s = .next t → Inv t) :
    ∀ (n : Nat) (s t : State), Inv s → core.run n s = .next t → Inv t
  | 0, s, t, hs, h => by cases h; exact hs
  | n + 1, s, t, hs, h => by
    simp only [Host.Core.run] at h
    split at h
    · rename_i u hu
      exact run_keeps Inv hstep n u t (hstep s u hs hu) h
    · cases h
    · cases h

end Sys2Proof.Machine
end

