-- ==== Sys2Proof/Laws/Wave.lean ====
section
/-! SUPPORT. What emitting a segment and playing a pulse do to a waveform: the time they add, and the
canonical form they keep. -/

namespace Sys2Proof.Machine

@[simp] theorem waveTotal_nil : waveTotal [] = 0 := rfl

@[simp] theorem waveTotal_cons (g : Segment) (w : List Segment) : waveTotal (g :: w) = g.us + waveTotal w := by
  simp [waveTotal]

/-- A pushed segment adds its duration. -/
theorem waveTotal_pushSegment (opening : Bool) (level : Level) (d : Nat) (w : List Segment) :
    waveTotal (pushSegment opening level d w) = waveTotal w + d := by
  cases w with
  | nil => simp [pushSegment]
  | cons g w =>
    simp only [pushSegment]
    split <;> simp <;> omega

/-- The time spent and the waveform's total move together. -/
theorem emit_total (level : Level) (d : Nat) (o : Output) :
    waveTotal (emit level d o).wave = waveTotal o.wave + d ∧ (emit level d o).spent = o.spent + d := by
  unfold emit
  split
  · simp_all
  · exact ⟨waveTotal_pushSegment _ level d o.wave, rfl⟩

/-- A waveform with no empty segment and no two LOW neighbours. -/
def WaveCanonical (w : List Segment) : Prop :=
  (∀ g ∈ w, 1 ≤ g.us) ∧ w.IsChain (fun a b => a.level = .low → b.level = .high)

theorem pushSegment_canonical (opening : Bool) (level : Level) (d : Nat) (hd : 1 ≤ d) (w : List Segment)
    (h : WaveCanonical w) : WaveCanonical (pushSegment opening level d w) := by
  cases w with
  | nil => simp [pushSegment, WaveCanonical, hd]
  | cons g w =>
    obtain ⟨hpos, hchain⟩ := h
    simp only [pushSegment]
    split
    · rename_i heq
      refine ⟨?_, ?_⟩
      · intro x hx
        rcases List.mem_cons.1 hx with hx | hx
        · subst hx; simp only; omega
        · exact hpos x (List.mem_cons_of_mem _ hx)
      · cases w with
        | nil => simp
        | cons b w =>
          rw [List.isChain_cons_cons] at hchain ⊢
          exact ⟨by simpa [← heq.1] using hchain.1, hchain.2⟩
    · rename_i hne
      refine ⟨?_, ?_⟩
      · intro x hx
        rcases List.mem_cons.1 hx with hx | hx
        · subst hx; exact hd
        · exact hpos x hx
      · rw [List.isChain_cons_cons]
        refine ⟨fun (e : level = .low) => ?_, hchain⟩
        subst e
        cases hg : g.level with
        | low => exact absurd ⟨hg, by simp⟩ hne
        | high => rfl

theorem emit_canonical (level : Level) (d : Nat) (o : Output) (h : WaveCanonical o.wave) :
    WaveCanonical (emit level d o).wave := by
  unfold emit
  split
  · exact h
  · exact pushSegment_canonical _ level d (by omega) o.wave h

theorem markLoop_canonical (on off : Nat) : ∀ (fuel left : Nat) (o : Output), WaveCanonical o.wave →
    WaveCanonical (markLoop on off fuel left o).wave
  | 0, _, _, h => h
  | fuel + 1, left, o, h => by
    simp only [markLoop]
    split
    · exact h
    · split
      · exact emit_canonical _ _ _ h
      · exact markLoop_canonical on off fuel _ _ (emit_canonical _ _ _ (emit_canonical _ _ _ h))

/-- Playing an envelope keeps the waveform canonical. -/
theorem play_canonical (on off : Nat) : ∀ (pulses : List Pulse) (o : Output), WaveCanonical o.wave →
    WaveCanonical (play on off pulses o).wave
  | [], _, h => h
  | p :: ps, o, h => by
    refine play_canonical on off ps (playPulse on off o p) ?_
    cases p with
    | mark d => exact markLoop_canonical on off d d o h
    | space d => exact emit_canonical _ _ _ h

/-! ## How long an envelope lasts -/

@[simp] theorem waveHigh_nil : waveHigh [] = 0 := rfl

theorem waveHigh_cons (g : Segment) (w : List Segment) :
    waveHigh (g :: w) = (if g.level = .high then g.us else 0) + waveHigh w := by
  by_cases h : g.level = .high <;> simp [waveHigh, h]

/-- A pushed segment adds to the HIGH time exactly when it is HIGH. -/
theorem waveHigh_pushSegment (opening : Bool) (level : Level) (d : Nat) (w : List Segment) :
    waveHigh (pushSegment opening level d w) = waveHigh w + if level = .high then d else 0 := by
  cases w with
  | nil => simp [pushSegment, waveHigh_cons]
  | cons g w =>
    simp only [pushSegment]
    split
    · rename_i h
      obtain ⟨rfl, -⟩ := h
      simp only [waveHigh_cons]
      split <;> omega
    · simp only [waveHigh_cons]
      omega

theorem emit_high (level : Level) (d : Nat) (o : Output) :
    waveHigh (emit level d o).wave = waveHigh o.wave + if level = .high then d else 0 := by
  unfold emit
  split
  · simp_all
  · exact waveHigh_pushSegment _ level d o.wave

/-- The HIGH time of `left` microseconds of a carrier: ON_US of every full cycle and the cut cycle's share. -/
def highShare (on off left : Nat) : Nat := left / (on + off) * on + min on (left % (on + off))

theorem highShare_of_lt (on off left : Nat) (h : left < on + off) : highShare on off left = min on left := by
  simp [highShare, Nat.div_eq_of_lt h, Nat.mod_eq_of_lt h]

theorem highShare_add_period (on off left : Nat) (h : 1 ≤ on + off) :
    highShare on off (left + (on + off)) = on + highShare on off left := by
  simp only [highShare, Nat.add_div_right _ (show 0 < on + off by omega), Nat.add_mod_right, Nat.succ_mul]
  omega

/-- The loop of MARK emits exactly the time it was given, HIGH for the carrier's share of it. -/
theorem markLoop_spec (on off : Nat) (hp : 1 ≤ on + off) : ∀ (fuel left : Nat) (o : Output), left ≤ fuel →
    waveTotal (markLoop on off fuel left o).wave = waveTotal o.wave + left ∧
      (markLoop on off fuel left o).spent = o.spent + left ∧
      waveHigh (markLoop on off fuel left o).wave = waveHigh o.wave + highShare on off left
  | 0, left, o, h => by
    obtain rfl : left = 0 := by omega
    simp [markLoop, highShare]
  | fuel + 1, left, o, h => by
    have hh := emit_total .high (min on left) o
    have hhigh := emit_high .high (min on left) o
    simp only [markLoop]
    split
    · rename_i h0
      subst h0
      simp [highShare]
    · split
      · rename_i hne hle
        have hlt : left ≤ on := by omega
        refine ⟨by rw [hh.1]; omega, by rw [hh.2]; omega, ?_⟩
        rw [hhigh]
        by_cases hp2 : left < on + off
        · simp [highShare_of_lt on off left hp2]
        · obtain ⟨rfl, rfl⟩ : off = 0 ∧ left = on := by omega
          have : highShare left 0 (0 + (left + 0)) = left + highShare left 0 0 :=
            highShare_add_period left 0 0 hp
          simp [highShare] at this ⊢
          omega
      · rename_i hne hle
        have hlon : on < left := by omega
        have hl := emit_total .low (min off (left - min on left)) (emit .high (min on left) o)
        have hlhigh := emit_high .low (min off (left - min on left)) (emit .high (min on left) o)
        have ih := markLoop_spec on off hp fuel (left - min on left - min off (left - min on left))
          (emit .low (min off (left - min on left)) (emit .high (min on left) o)) (by omega)
        refine ⟨by rw [ih.1, hl.1, hh.1]; omega, by rw [ih.2.1, hl.2, hh.2]; omega, ?_⟩
        rw [ih.2.2, hlhigh, hhigh]
        simp only [reduceCtorEq, if_false, if_true, Nat.add_zero]
        by_cases hp2 : left < on + off
        · have hrest : left - min on left - min off (left - min on left) = 0 := by omega
          rw [hrest, highShare_of_lt on off left hp2, highShare_of_lt on off 0 (by omega)]
          omega
        · obtain ⟨k, rfl⟩ : ∃ k, left = k + (on + off) := ⟨left - (on + off), by omega⟩
          rw [highShare_add_period on off k hp]
          have hrest : k + (on + off) - min on (k + (on + off)) -
              min off (k + (on + off) - min on (k + (on + off))) = k := by omega
          rw [hrest]
          omega

/-- One MARK or SPACE call lasts exactly its duration. -/
theorem playPulse_total (on off : Nat) (hp : 1 ≤ on + off) (o : Output) (p : Pulse) :
    waveTotal (playPulse on off o p).wave = waveTotal o.wave + p.us ∧
      (playPulse on off o p).spent = o.spent + p.us := by
  cases p with
  | mark d => exact ⟨(markLoop_spec on off hp d d o le_rfl).1, (markLoop_spec on off hp d d o le_rfl).2.1⟩
  | space d => exact emit_total .low d o

/-- An envelope lasts exactly the sum of its pulses' durations. -/
theorem play_total (on off : Nat) (hp : 1 ≤ on + off) : ∀ (pulses : List Pulse) (o : Output),
    waveTotal (play on off pulses o).wave = waveTotal o.wave + (pulses.map Pulse.us).sum ∧
      (play on off pulses o).spent = o.spent + (pulses.map Pulse.us).sum
  | [], o => by simp [play]
  | p :: ps, o => by
    have h := play_total on off hp ps (playPulse on off o p)
    have hpulse := playPulse_total on off hp o p
    have hplay : play on off (p :: ps) o = play on off ps (playPulse on off o p) := rfl
    rw [hplay, h.1, h.2, hpulse.1, hpulse.2, List.map_cons, List.sum_cons]
    omega

/-- Whatever the carrier, the time an envelope spends is the time it adds to the waveform. -/
theorem markLoop_spent (on off : Nat) : ∀ (fuel left : Nat) (o : Output),
    ∃ d, waveTotal (markLoop on off fuel left o).wave = waveTotal o.wave + d ∧
      (markLoop on off fuel left o).spent = o.spent + d
  | 0, _, o => ⟨0, by simp [markLoop]⟩
  | fuel + 1, left, o => by
    have hh := emit_total .high (min on left) o
    simp only [markLoop]
    split
    · exact ⟨0, by simp⟩
    · split
      · exact ⟨_, hh⟩
      · have hl := emit_total .low (min off (left - min on left)) (emit .high (min on left) o)
        obtain ⟨d, h1, h2⟩ := markLoop_spent on off fuel (left - min on left - min off (left - min on left))
          (emit .low (min off (left - min on left)) (emit .high (min on left) o))
        refine ⟨min on left + min off (left - min on left) + d, ?_, ?_⟩
        · rw [h1, hl.1, hh.1]; omega
        · rw [h2, hl.2, hh.2]; omega

theorem play_spent (on off : Nat) : ∀ (pulses : List Pulse) (o : Output),
    ∃ d, waveTotal (play on off pulses o).wave = waveTotal o.wave + d ∧ (play on off pulses o).spent = o.spent + d
  | [], _ => ⟨0, by simp [play]⟩
  | p :: ps, o => by
    obtain ⟨d, h1, h2⟩ := play_spent on off ps (playPulse on off o p)
    have hplay : play on off (p :: ps) o = play on off ps (playPulse on off o p) := rfl
    obtain ⟨e, h3, h4⟩ : ∃ e, waveTotal (playPulse on off o p).wave = waveTotal o.wave + e ∧
        (playPulse on off o p).spent = o.spent + e := by
      cases p with
      | mark k => exact markLoop_spent on off k k o
      | space k => exact ⟨k, emit_total .low k o⟩
    exact ⟨e + d, by rw [hplay, h1, h3]; omega, by rw [hplay, h2, h4]; omega⟩

/-- A send is its envelope's MARK and SPACE calls one after another. -/
theorem play_append (on off : Nat) (ps qs : List Pulse) (o : Output) :
    play on off (ps ++ qs) o = play on off qs (play on off ps o) := List.foldl_append

/-! ## The levels an envelope plays, in their order -/

theorem waveLevels_append (v w : List Segment) : waveLevels (v ++ w) = waveLevels v ++ waveLevels w := by
  simp [waveLevels]

/-- A pushed segment plays after the older ones. -/
theorem waveLevels_pushSegment (opening : Bool) (level : Level) (d : Nat) (w : List Segment) :
    waveLevels (pushSegment opening level d w).reverse = waveLevels w.reverse ++ List.replicate d level := by
  cases w with
  | nil => simp [pushSegment, waveLevels]
  | cons g w =>
    simp only [pushSegment]
    split
    · rename_i h
      obtain ⟨rfl, -⟩ := h
      simp [waveLevels, List.flatMap_append]
    · simp [waveLevels]

theorem waveLevels_emit (level : Level) (d : Nat) (o : Output) :
    waveLevels (emit level d o).wave.reverse = waveLevels o.wave.reverse ++ List.replicate d level := by
  unfold emit
  split
  · simp_all
  · exact waveLevels_pushSegment _ level d o.wave

/-- A mark of at most one cycle: HIGH, then LOW. -/
theorem mark_levels_of_le (on off d : Nat) (h : d ≤ on + off) :
    (Pulse.mark d).levels on off = List.replicate (min on d) .high ++ List.replicate (d - min on d) .low := by
  apply List.ext_getElem
  · simp [Pulse.levels]
  · intro k h1 h2
    have hk : k < d := by simpa [Pulse.levels] using h1
    have hm : k % (on + off) = k := Nat.mod_eq_of_lt (by omega)
    simp only [Pulse.levels, List.getElem_map, List.getElem_range, hm, List.getElem_append,
      List.length_replicate, List.getElem_replicate]
    by_cases hon : k < on
    · rw [if_pos hon, dif_pos (by omega)]
    · rw [if_neg hon, dif_neg (by omega)]

/-- A mark of more than one cycle: the cycle, then the mark that is left. -/
theorem mark_levels_add_period (on off d : Nat) :
    (Pulse.mark (on + off + d)).levels on off =
      List.replicate on .high ++ List.replicate off .low ++ (Pulse.mark d).levels on off := by
  have hfirst := mark_levels_of_le on off (on + off) le_rfl
  rw [show min on (on + off) = on by omega, show on + off - on = off by omega] at hfirst
  rw [← hfirst]
  simp only [Pulse.levels, List.range_add, List.map_append, List.map_map]
  congr 1
  apply List.map_congr_left
  intro k _
  simp

/-- The loop of MARK plays its cycles in order, each HIGH first, the last one cut. -/
theorem waveLevels_markLoop (on off : Nat) (hp : 1 ≤ on + off) : ∀ (fuel left : Nat) (o : Output), left ≤ fuel →
    waveLevels (markLoop on off fuel left o).wave.reverse =
      waveLevels o.wave.reverse ++ (Pulse.mark left).levels on off
  | 0, left, o, h => by
    obtain rfl : left = 0 := by omega
    simp [markLoop, Pulse.levels]
  | fuel + 1, left, o, h => by
    simp only [markLoop]
    split
    · rename_i h0
      subst h0
      simp [Pulse.levels]
    · split
      · rw [waveLevels_emit, mark_levels_of_le on off left (by omega)]
        rw [show left - min on left = 0 by omega]
        simp
      · rw [waveLevels_markLoop on off hp fuel _ _ (by omega), waveLevels_emit, waveLevels_emit]
        by_cases hp2 : left ≤ on + off
        · have hrest : left - min on left - min off (left - min on left) = 0 := by omega
          rw [hrest, mark_levels_of_le on off left hp2,
            show min off (left - min on left) = left - min on left by omega]
          simp [Pulse.levels]
        · obtain ⟨k, rfl⟩ : ∃ k, left = on + off + k := ⟨left - (on + off), by omega⟩
          rw [mark_levels_add_period, show min on (on + off + k) = on by omega,
            show on + off + k - on = off + k by omega, show min off (off + k) = off by omega,
            show off + k - off = k by omega]
          simp

/-- An envelope plays its MARK and SPACE calls in their order. -/
theorem waveLevels_play (on off : Nat) (hp : 1 ≤ on + off) : ∀ (pulses : List Pulse) (o : Output),
    waveLevels (play on off pulses o).wave.reverse =
      waveLevels o.wave.reverse ++ pulses.flatMap (Pulse.levels on off)
  | [], o => by simp [play]
  | p :: ps, o => by
    have hplay : play on off (p :: ps) o = play on off ps (playPulse on off o p) := rfl
    rw [hplay, waveLevels_play on off hp ps, List.flatMap_cons, ← List.append_assoc]
    congr 1
    cases p with
    | mark d => exact waveLevels_markLoop on off hp d d o le_rfl
    | space d => exact waveLevels_emit .low d o

/-! ## What a command leaves of an older waveform -/

/-- The neighbours of a waveform have different levels. -/
abbrev Alternates (w : List Segment) : Prop := w.IsChain (fun a b => a.level ≠ b.level)

/-- Lengthening the newest segment keeps the levels apart. -/
theorem alternates_lengthen (g : Segment) (us : Nat) (w : List Segment) (h : Alternates (g :: w)) :
    Alternates (⟨g.level, us⟩ :: w) := by
  cases w with
  | nil => simp
  | cons b w => exact List.isChain_cons_cons.2 (List.isChain_cons_cons.1 h)

theorem alternates_push (g : Segment) (level : Level) (d : Nat) (w : List Segment) (h : Alternates (g :: w))
    (hne : g.level ≠ level) : Alternates (⟨level, d⟩ :: g :: w) :=
  List.isChain_cons_cons.2 ⟨fun e => hne e.symm, h⟩

/-- What a command that found OUT_WAVE as `old` has made of it so far: it has lengthened the newest segment, if
that is LOW, and added segments of alternating levels after it; a HIGH one is as it was. -/
def SentFrom (old : List Segment) (o : Output) : Prop :=
  (old = [] ∧ Alternates o.wave) ∨
    ∃ last older added more, old = last :: older ∧ o.wave = added ++ ⟨last.level, last.us + more⟩ :: older ∧
      (last.level = .high → more = 0 ∧ Alternates added ∧ (added = [] → o.spent = 0)) ∧
      (last.level = .low → Alternates (added ++ [last])) ∧ (o.spent = 0 → added = [])

theorem sentFrom_start (w : List Segment) : SentFrom w ⟨w, 0⟩ := by
  cases w with
  | nil => exact Or.inl ⟨rfl, List.isChain_nil⟩
  | cons g w =>
    exact Or.inr ⟨g, w, [], 0, rfl, rfl, fun _ => ⟨rfl, List.isChain_nil, fun _ => rfl⟩,
      fun _ => List.isChain_singleton _, fun _ => rfl⟩

/-- Emitting a segment keeps to that, once the empty waveform's first segment is told apart. -/
theorem sentFrom_emit (old : List Segment) (level : Level) (d : Nat) (o : Output) (h : SentFrom old o)
    (hnil : o.spent = 0 → old = [] → o.wave = []) :
    SentFrom old (emit level d o) ∧ ((emit level d o).spent = 0 → old = [] → (emit level d o).wave = []) := by
  unfold emit
  by_cases hd : d = 0
  · rw [if_pos hd]
    exact ⟨h, hnil⟩
  rw [if_neg hd]
  refine ⟨?_, fun h0 => absurd h0 (by show ¬(o.spent + d = 0); omega)⟩
  rcases h with ⟨rfl, hw⟩ | ⟨last, older, added, more, rfl, hw, hhigh, hlow, hspent⟩
  · refine Or.inl ⟨rfl, ?_⟩
    cases hc : o.wave with
    | nil => exact List.isChain_singleton _
    | cons g w =>
      have hne : o.spent ≠ 0 := fun h0 => by rw [hnil h0 rfl] at hc; cases hc
      rw [hc] at hw
      simp only [pushSegment, beq_iff_eq, hne, false_and, not_false_eq_true, and_true]
      split
      · rename_i heq
        subst heq
        exact alternates_lengthen g _ w hw
      · rename_i heq
        exact alternates_push g level d w hw heq
  · refine Or.inr ?_
    cases added with
    | nil =>
      rw [hw]
      simp only [List.nil_append, pushSegment]
      split
      · rename_i heq
        obtain ⟨heq, hopen⟩ := heq
        cases hl : last.level with
        | high =>
          exact absurd ⟨by simpa using (hhigh hl).2.2 rfl, by rw [← heq]; exact hl⟩ hopen
        | low =>
          refine ⟨last, older, [], more + d, rfl, by simp [← heq, Nat.add_assoc], fun e => ?_,
            fun _ => List.isChain_singleton _, fun _ => rfl⟩
          rw [hl] at e; cases e
      · rename_i hne
        refine ⟨last, older, [⟨level, d⟩], more, rfl, by simp, fun e => ⟨(hhigh e).1, List.isChain_singleton _, ?_⟩,
          fun e => ?_, fun h0 => absurd h0 (by show ¬(o.spent + d = 0); omega)⟩
        · intro h; cases h
        · refine List.isChain_cons_cons.2 ⟨fun (el : level = last.level) => ?_, List.isChain_singleton _⟩
          exact hne ⟨el.symm, fun hh => by rw [el, e] at hh; cases hh.2⟩
    | cons g added =>
      have hne : o.spent ≠ 0 := fun h0 => by have := hspent h0; cases this
      rw [hw]
      simp only [List.cons_append, pushSegment, beq_iff_eq, hne, false_and, not_false_eq_true, and_true]
      split
      · rename_i heq
        subst heq
        exact ⟨last, older, ⟨g.level, g.us + d⟩ :: added, more, rfl, rfl,
          fun e => ⟨(hhigh e).1, alternates_lengthen g _ added (hhigh e).2.1, fun h => by cases h⟩,
          fun e => alternates_lengthen g _ _ (hlow e), fun h0 => absurd h0 (by show ¬(o.spent + d = 0); omega)⟩
      · rename_i heq
        exact ⟨last, older, ⟨level, d⟩ :: g :: added, more, rfl, rfl,
          fun e => ⟨(hhigh e).1, alternates_push g level d added (hhigh e).2.1 heq, fun h => by cases h⟩,
          fun e => alternates_push g level d _ (hlow e) heq, fun h0 => absurd h0 (by show ¬(o.spent + d = 0); omega)⟩

theorem sentFrom_markLoop (old : List Segment) (on off : Nat) : ∀ (fuel left : Nat) (o : Output),
    SentFrom old o → (o.spent = 0 → old = [] → o.wave = []) →
    SentFrom old (markLoop on off fuel left o) ∧
      ((markLoop on off fuel left o).spent = 0 → old = [] → (markLoop on off fuel left o).wave = [])
  | 0, _, _, h, hnil => ⟨h, hnil⟩
  | fuel + 1, left, o, h, hnil => by
    have h1 := sentFrom_emit old .high (min on left) o h hnil
    simp only [markLoop]
    split
    · exact ⟨h, hnil⟩
    · split
      · exact h1
      · have h2 := sentFrom_emit old .low (min off (left - min on left)) _ h1.1 h1.2
        exact sentFrom_markLoop old on off fuel _ _ h2.1 h2.2

/-- What a whole envelope makes of an older waveform. -/
theorem sentFrom_play (old : List Segment) (on off : Nat) : ∀ (pulses : List Pulse) (o : Output),
    SentFrom old o → (o.spent = 0 → old = [] → o.wave = []) → SentFrom old (play on off pulses o)
  | [], _, h, _ => h
  | p :: ps, o, h, hnil => by
    have hp : SentFrom old (playPulse on off o p) ∧
        ((playPulse on off o p).spent = 0 → old = [] → (playPulse on off o p).wave = []) := by
      cases p with
      | mark d => exact sentFrom_markLoop old on off d d o h hnil
      | space d => exact sentFrom_emit old .low d o h hnil
    exact sentFrom_play old on off ps _ hp.1 hp.2

/-- What a send makes of the waveform it finds. -/
theorem sentFrom_sendEnvelope (pulses : List Pulse) (s : State) :
    SentFrom s.outWave (play s.onUs.toNat s.offUs.toNat pulses ⟨s.outWave, 0⟩) :=
  sentFrom_play _ _ _ _ _ (sentFrom_start _) (fun _ h => h)

end Sys2Proof.Machine
end

