-- ==== Sys2Proof/Machine/Results.lean ====
section
/-! DEFINITION. The serialisation of a command's result on a host bus (spec/30_encoding.md R103, R104). -/

namespace Sys2Proof.Machine

/-- A u8 Boolean of a result. -/
def boolByte (b : Bool) : Byte := if b then 1 else 0

/-- The bytes of a tagged payload (44_capture.md R198): a u8 that says which variant it is, then `Int`'s value,
or `State`'s bytes with their length before them. R104 gives the tag no byte; one byte before the value, 0 for
`Int` and 1 for `State`, is the model's choice (log 27). -/
def payloadBytes : Payload → List Byte
  | .int value => 0 :: le64 value
  | .bytes bs => 1 :: (le16 (BitVec.ofNat 16 bs.length) ++ bs)

/-- The bytes of a decode record, its fields in the order of 44_capture.md R198, each little-endian at its width. -/
def recordBytes (r : DecodeRecord) : List Byte :=
  le16 r.message.decodeType ++ le16 r.message.bits ++ payloadBytes r.message.payload ++
    le32 r.message.address ++ le32 r.message.command ++
    [boolByte r.message.rep, boolByte r.overflow] ++ le16 r.rawlen ++ [r.bank]

/-- The bytes of a result, its fields in the order of R103, each little-endian at its width; a byte sequence
is preceded by its length as u16 (R104). DECODE with ok = 0 has no record. -/
def serializeResult : Result → List Byte
  | .done => []
  | .status rxEn rcvstate rawlen overflow => boolByte rxEn :: rcvstate :: (le16 rawlen ++ [boolByte overflow])
  | .decoded none => [boolByte false]
  | .decoded (some r) => boolByte true :: recordBytes r
  | .elapsed us => le64 us
  | .ticks v => le64 v
  | .verdict b => [boolByte b]
  | .matchedData success used value => boolByte success :: (le16 used ++ le64 value)
  | .matchedBytes consumed bytes => le16 consumed ++ (le16 (BitVec.ofNat 16 bytes.length) ++ bytes)
  | .matchedInt consumed value => le16 consumed ++ le64 value
  | .hash ok value bits => boolByte ok :: (le32 value ++ le16 bits)

end Sys2Proof.Machine
end

