-- ==== Sys2Proof/Tests/Slice0.lean ====
section
/-! SUPPORT. Tests. Expected values are those of spec/95_test_vectors.md, whose section each group names, or are
worked out by hand from the rule named; the witnesses at the end show, for each statement of Obligations.lean that
has hypotheses, a state and operands that meet them. -/

namespace Sys2Proof.Tests

open Sys2Proof.Machine

/-! ## Helpers: small states -/

/-- The next state, if there is one. -/
def after : Outcome → Option State
  | .next s => some s
  | .fault _ => none
  | .refused _ => none

/-- The result the last completed command returned. -/
def answer (o : Outcome) : Option Result := (after o).bind fun s => s.results.head?

/-- The success field of a matching command's answer. -/
def succeeded (o : Outcome) : Option Bool :=
  match answer o with
  | some (.matchedData success _ _) => some success
  | some (.matchedBytes consumed _) => some (consumed != 0)
  | some (.matchedInt consumed _) => some (consumed != 0)
  | some (.hash ok _ _) => some ok
  | _ => none

/-- The fault a command took. -/
def faultOf (o : Outcome) : Option StopRecord := (after o).bind fun s => s.fault

/-- The refusal a command took. -/
def refusalOf (o : Outcome) : Option StopRecord := (after o).bind fun s => s.refused

/-- A bank holding these entries, none of which is 0. -/
def bankOf (E : List Nat) : Cells := (List.range E.length).zip E

/-- A capture held in LIVE, in STOP. -/
def held (E : List Nat) : State :=
  { State.reset with rxEn := true, rcvState := .stop, rawLen := BitVec.ofNat 16 E.length, live := bankOf E }

/-- A capture saved in SAVE. -/
def saved (E : List Nat) : State :=
  { State.reset with saveValid := true, saveLen := BitVec.ofNat 16 E.length, save := bankOf E }

/-- A configured carrier, with the waveform empty. -/
def carrier (on off : U32) : State :=
  { State.reset with carrierValid := true, periodUs := on + off, onUs := on, offUs := off }

/-- An enabled receiver at a time. -/
def listening (tau : Nat) : State := { State.reset with rxEn := true, tau := tau }

/-- A message in progress: the first edge came at 1000 (95_test_vectors.md 2.9, first row). -/
def marking : State :=
  { State.reset with
    rxEn := true, rcvState := .mark, rawLen := 1, live := [(0, 1)], tau := 10000, lastEdge := 1000,
    lastEdgeSet := true, toArmed := true, toDeadline := 16000, toDeadlineSet := true }

/-- A bank of eight with seven entries (95_test_vectors.md 2.9, overflow). -/
def nearlyFull (overflowOnFill : Bool) : State :=
  { State.reset with
    params := { Params.suggested with rawBufSize := 8, overflowOnFill := overflowOnFill }
    rxEn := true, rcvState := .mark, rawLen := 7, live := bankOf [1, 300, 300, 300, 300, 300, 300], tau := 4200
    lastEdge := 3600, lastEdgeSet := true, toArmed := true, toDeadline := 18600, toDeadlineSet := true }

/-- The command's only step from a state: the host issues these bytes. -/
def issue (packet : List Byte) (s : State) : Outcome := step { s with schedule := [⟨0, .command packet⟩] }

/-- P1's view (95_test_vectors.md 2.7). -/
def viewP1 : List Nat :=
  [1, 4500, 2250, 280, 845, 280, 280, 280, 280, 280, 280, 280, 280, 280, 845, 280, 280, 280, 845, 280]

/-- The view of 95_test_vectors.md 2.6. -/
def view26 : List Nat := [1, 280, 845, 280, 280, 280, 845, 280, 280]

/-- The timings of 95_test_vectors.md 2.6 and 2.7. -/
def nec : BitTimings := ⟨560, 1690, 560, 560⟩

/-- MATCH_DATA of 95_test_vectors.md 2.6. -/
def dataOps (offset nbits : U16) (msbFirst : Byte) : MatchDataOps := ⟨0, offset, nbits, nec, 25, 50, msbFirst⟩

/-- The section of 95_test_vectors.md 2.7. -/
def section27 (bank : Byte) (nbits : U16) (isLast msbFirst : Byte) : SectionOps :=
  ⟨bank, 1, nbits, 9000, 4500, nec, 560, 40000, isLast, 25, 50, msbFirst⟩

/-- SEND_DATA of 95_test_vectors.md 2.4. -/
def sendOps (data : U64) (nbits : U16) (msbFirst : Byte) : SendDataOps := ⟨⟨10, 20, 10, 5⟩, data, nbits, msbFirst⟩

/-- SEND_GENERIC of 95_test_vectors.md 2.4. -/
def genericOps (freq : U32) : SendGenericOps :=
  ⟨100, 50, ⟨20, 40, 20, 20⟩, 20, 300, freq, 100, 1, 1, 1, [0x80]⟩

/-! ## Well-formedness: a term each check refuses -/

theorem test_wf_refuses_save : (Instr.decode 2).wf 1 = false := by decide
theorem test_wf_refuses_timer_reset : (Instr.timerReset 1).wf 1 = false := by decide
theorem test_wf_refuses_timer_elapsed : (Instr.timerElapsed 255).wf 255 = false := by decide
theorem test_wf_refuses_send_data_order : (Instr.sendData (sendOps 3 4 2)).wf 1 = false := by decide
theorem test_wf_refuses_send_generic_order : (Instr.sendGeneric { genericOps 38 with msbFirst := 2 }).wf 1 = false := by
  decide
theorem test_wf_refuses_send_generic_length : (Instr.sendGeneric { genericOps 38 with nbytes := 2 }).wf 1 = false := by
  decide
theorem test_wf_refuses_match_data_bank : (Instr.matchData { dataOps 1 4 1 with bank := 2 }).wf 1 = false := by decide
theorem test_wf_refuses_match_data_order : (Instr.matchData (dataOps 1 4 2)).wf 1 = false := by decide
theorem test_wf_refuses_section_bank : (Instr.matchGeneric (section27 2 8 1 0)).wf 1 = false := by decide
theorem test_wf_refuses_section_last : (Instr.matchGeneric (section27 0 8 2 0)).wf 1 = false := by decide
theorem test_wf_refuses_section_order : (Instr.matchGeneric (section27 0 8 1 2)).wf 1 = false := by decide
theorem test_wf_refuses_int_bank : (Instr.matchGenericInt (section27 2 8 1 0)).wf 1 = false := by decide
theorem test_wf_refuses_int_last : (Instr.matchGenericInt (section27 0 8 2 0)).wf 1 = false := by decide
theorem test_wf_refuses_int_order : (Instr.matchGenericInt (section27 0 8 1 2)).wf 1 = false := by decide
theorem test_wf_refuses_hash_bank : (Instr.decodeHash 2).wf 1 = false := by decide

/-! ## Decoding: one word for every constructor (section 2 and 3's "bytes" columns; R103 and R104 by hand for
LED_OFF, RX_DISABLE, TICKS_LOW, MATCH, MATCH_AT_LEAST) -/

theorem test_decode_rx_enable : decode [0x01] = .instr .rxEnable := by decide
theorem test_decode_rx_disable : decode [0x02] = .instr .rxDisable := by decide
theorem test_decode_resume : decode [0x03] = .instr .resume := by decide
theorem test_decode_rx_status : decode [0x04] = .instr .rxStatus := by decide
theorem test_decode_decode : decode [0x05, 0x01] = .instr (.decode 1) := by decide
theorem test_decode_timer_reset : decode [0x10, 0x01] = .instr (.timerReset 1) := by decide
theorem test_decode_timer_elapsed : decode [0x11, 0x00] = .instr (.timerElapsed 0) := by decide
theorem test_decode_enable_ir_out :
    decode [0x20, 0xA0, 0x8C, 0x00, 0x00, 0x19] = .instr (.enableIrOut 36000 25) := by decide
theorem test_decode_mark : decode [0x21, 0x30, 0x02, 0x00, 0x00] = .instr (.mark 560) := by decide
theorem test_decode_space : decode [0x22, 0x64, 0x00, 0x00, 0x00] = .instr (.space 100) := by decide
theorem test_decode_led_off : decode [0x23] = .instr .ledOff := by decide
theorem test_decode_send_data :
    decode [0x30, 0x3C, 0, 0, 0, 0x64, 0, 0, 0, 0x1A, 0, 0, 0, 0x32, 0, 0, 0, 0x02, 0, 0, 0, 0, 0, 0, 0, 0x02, 0, 0x01] =
      .instr (.sendData ⟨⟨60, 100, 26, 50⟩, 2, 2, 1⟩) := by decide
theorem test_decode_send_generic :
    decode [0x31, 0x64, 0, 0, 0, 0x32, 0, 0, 0, 0x14, 0, 0, 0, 0x28, 0, 0, 0, 0x14, 0, 0, 0, 0x14, 0, 0, 0, 0x14, 0, 0, 0,
      0x2C, 0x01, 0, 0, 0x38, 0, 0, 0, 0x64, 0x01, 0x01, 0, 0x01, 0, 0x80] = .instr (.sendGeneric (genericOps 56)) := by
  decide
theorem test_decode_ticks_low :
    decode [0x40, 0x30, 0x02, 0, 0, 0, 0, 0, 0, 0x19] = .instr (.ticksLow 560 25) := by decide
theorem test_decode_ticks_high :
    decode [0x41, 0xCE, 0xFF, 0xFF, 0xFF, 0xFF, 0xFF, 0xFF, 0xFF, 0x19] = .instr (.ticksHigh (-50) 25) := by decide
theorem test_decode_match :
    decode [0x42, 0x18, 0x01, 0, 0, 0x30, 0x02, 0, 0, 0x19] = .instr (.matchTicks 280 560 25) := by decide
theorem test_decode_match_mark :
    decode [0x43, 0x18, 0x01, 0, 0, 0x30, 0x02, 0, 0, 0x19, 0xCE, 0xFF] = .instr (.matchMark 280 560 25 (-50)) := by
  decide
theorem test_decode_match_space :
    decode [0x44, 0x18, 0x01, 0, 0, 0x30, 0x02, 0, 0, 0x19, 0x32, 0x00] = .instr (.matchSpace 280 560 25 50) := by decide
theorem test_decode_match_at_least :
    decode [0x45, 0x20, 0x4E, 0, 0, 0x40, 0x9C, 0, 0, 0x19, 0x32, 0x00] = .instr (.matchAtLeast 20000 40000 25 50) := by
  decide
theorem test_decode_match_data :
    decode [0x50, 0, 0x03, 0, 0x08, 0, 0x30, 0x02, 0, 0, 0x9A, 0x06, 0, 0, 0x30, 0x02, 0, 0, 0x30, 0x02, 0, 0, 0x19, 0x32, 0,
      0] = .instr (.matchData (dataOps 3 8 0)) := by decide
theorem test_decode_match_generic :
    decode [0x51, 0, 0x01, 0, 0x08, 0, 0x28, 0x23, 0, 0, 0x94, 0x11, 0, 0, 0x30, 0x02, 0, 0, 0x9A, 0x06, 0, 0, 0x30, 0x02, 0,
      0, 0x30, 0x02, 0, 0, 0x30, 0x02, 0, 0, 0x40, 0x9C, 0, 0, 0x01, 0x19, 0x32, 0, 0] =
      .instr (.matchGeneric (section27 0 8 1 0)) := by decide
theorem test_decode_match_generic_int :
    decode [0x52, 0x01, 0x01, 0, 0x08, 0, 0x28, 0x23, 0, 0, 0x94, 0x11, 0, 0, 0x30, 0x02, 0, 0, 0x9A, 0x06, 0, 0, 0x30, 0x02,
      0, 0, 0x30, 0x02, 0, 0, 0x30, 0x02, 0, 0, 0x40, 0x9C, 0, 0, 0x01, 0x19, 0x32, 0, 0] =
      .instr (.matchGenericInt (section27 1 8 1 0)) := by decide
theorem test_decode_decode_hash : decode [0x53, 0x01] = .instr (.decodeHash 1) := by decide
theorem test_decode_ev_edge : decode [0x80] = .instr .evEdge := by decide
theorem test_decode_ev_timeout : decode [0x81] = .instr .evTimeout := by decide
theorem test_decode_reserved : decode [0x06] = .unknownOpcode 0x06 ∧ decode [0xFF] = .unknownOpcode 0xFF := by decide
theorem test_decode_wrong_length : decode [0x21, 0x30] = .wrongLength 0x21 ∧ decode [] = .empty := by decide

/-- The first word of the opcode table runs as the first instruction after reset. -/
theorem test_table_word : decodeTableWord 40 0x23021 = some (.mark 560) ∧
    faultOf (step (State.reset.withFetchWord 40 0x23021)) = some ⟨3, 0⟩ := by decide

/-! ## Stopwatches (2.1) -/

theorem test_timer_reset : (after (exec (.timerReset 0) { State.reset with tau := 1000 })).map
    (fun s => (s.timerStart 0, s.timerIsSet 0)) = some (1000, true) := by decide
theorem test_timer_elapsed : answer (exec (.timerElapsed 0) { State.reset with
    tau := 1396, tStart := [(0, 1000)], tSet := [(0, 1)] }) = some (.elapsed 396) := by decide
theorem test_timer_elapsed_wraps : answer (exec (.timerElapsed 0) { State.reset with
    tau := 2 ^ 32 + 50, tStart := [(0, 2 ^ 32 - 100)], tSet := [(0, 1)] }) = some (.elapsed 150) := by decide

/-! ## Carrier (2.2, 2.3) -/

theorem test_enable_ir_out : (after (exec (.enableIrOut 38 33) State.reset)).map
    (fun s => (s.carrierHz, s.duty, s.periodUs, s.onUs, s.offUs, s.carrierValid)) =
      some (38000, 33, 26, 8, 18, true) := by decide
theorem test_enable_ir_out_clamps : (after (exec (.enableIrOut 2000001 150) State.reset)).map
    (fun s => (s.carrierHz, s.duty, s.periodUs, s.onUs, s.offUs)) = some (2000001, 100, 1, 1, 0) := by decide
theorem test_mark : (after (exec (.mark 60) (carrier 8 18))).map (fun s => (s.waveform, s.busyUntil)) =
    some ([⟨.high, 8⟩, ⟨.low, 18⟩, ⟨.high, 8⟩, ⟨.low, 18⟩, ⟨.high, 8⟩], 60) := by decide
theorem test_mark_merges : (after (exec (.mark 560) (carrier 18 0))).map (·.waveform) = some [⟨.high, 560⟩] := by
  decide +kernel
/-- R147: the HIGH of one MARK does not merge with the HIGH of the next (log 28). -/
theorem test_mark_boundary : (after (exec (.mark 8) { carrier 8 18 with outWave := [⟨.high, 8⟩] })).map (·.waveform) =
    some [⟨.high, 8⟩, ⟨.high, 8⟩] := by decide
theorem test_space : (after (exec (.space 50) { State.reset with outWave := [⟨.low, 100⟩] })).map (·.waveform) =
    some [⟨.low, 150⟩] := by decide
theorem test_space_zero : (after (exec (.space 0) State.reset)).map (·.waveform) = some [] := by decide
theorem test_led_off : (after (exec .ledOff { State.reset with outLevel := .high })).map
    (fun s => (s.outLevel, s.outWave)) = some (.low, []) := by decide

/-! ## Encoder (2.4) -/

theorem test_send_data_msb : (after (exec (.sendData (sendOps 0b1010 4 1)) (carrier 18 0))).map (·.waveform) =
    some [⟨.high, 10⟩, ⟨.low, 20⟩, ⟨.high, 10⟩, ⟨.low, 5⟩, ⟨.high, 10⟩, ⟨.low, 20⟩, ⟨.high, 10⟩, ⟨.low, 5⟩] := by
  decide
theorem test_send_data_lsb : (after (exec (.sendData (sendOps 0b1010 4 0)) (carrier 18 0))).map (·.waveform) =
    some [⟨.high, 10⟩, ⟨.low, 5⟩, ⟨.high, 10⟩, ⟨.low, 20⟩, ⟨.high, 10⟩, ⟨.low, 5⟩, ⟨.high, 10⟩, ⟨.low, 20⟩] := by
  decide
theorem test_send_generic : (after (exec (.sendGeneric (genericOps 56)) State.reset)).map
    (fun s => (s.periodUs, s.onUs, s.waveform.take 6, s.busyUntil)) =
      some (18, 18, [⟨.high, 100⟩, ⟨.low, 50⟩, ⟨.high, 20⟩, ⟨.low, 40⟩, ⟨.high, 20⟩, ⟨.low, 20⟩], 1620) := by
  decide +kernel
theorem test_send_generic_silent : (after (exec (.sendGeneric { genericOps 1000000 with duty := 50 }) State.reset)).map
    (·.waveform) = some [⟨.low, 1620⟩] := by decide +kernel

/-! ## Matcher (2.5) -/

theorem test_ticks_low : answer (exec (.ticksLow 4500 25) State.reset) = some (.ticks 1687) := by decide
theorem test_ticks_low_negative : answer (exec (.ticksLow (-400) 25) State.reset) = some (.ticks 0) := by decide
theorem test_ticks_high : answer (exec (.ticksHigh 560 25) State.reset) = some (.ticks 351) := by decide
theorem test_ticks_high_negative : answer (exec (.ticksHigh (-50) 25) State.reset) = some (.ticks (-30)) := by decide
theorem test_match_low : answer (exec (.matchTicks 209 560 25) State.reset) = some (.verdict false) := by decide
theorem test_match_high : answer (exec (.matchTicks 351 560 25) State.reset) = some (.verdict true) := by decide
theorem test_match_mark : answer (exec (.matchMark 384 560 25 50) State.reset) = some (.verdict false) := by decide
theorem test_match_mark_signed : answer (exec (.matchMark 191 560 25 (-50)) State.reset) = some (.verdict true) := by
  decide
theorem test_match_space : answer (exec (.matchSpace 845 1690 25 50) State.reset) = some (.verdict true) := by decide
theorem test_match_space_negative : answer (exec (.matchSpace 0 0 25 50) State.reset) = some (.verdict false) := by
  decide
/-- D23: a target of -1 matches nothing, though its high bound is 1 (log 29). -/
theorem test_match_negative_target : matchesMark 2 0 0 25 (-1) = false ∧ matchesSpace 2 1 0 25 1 = false := by decide
theorem test_match_at_least : answer (exec (.matchAtLeast 14981 40000 25 50) State.reset) = some (.verdict true) := by
  decide
theorem test_match_at_least_below :
    answer (exec (.matchAtLeast 14980 40000 25 50) State.reset) = some (.verdict false) := by decide

/-! ## Decoder (2.6, 2.7, 2.8) -/

theorem test_match_data_msb : answer (exec (.matchData (dataOps 1 4 1)) (held view26)) =
    some (.matchedData true 8 10) := by decide
theorem test_match_data_lsb : answer (exec (.matchData (dataOps 1 4 0)) (held view26)) =
    some (.matchedData true 8 5) := by decide
theorem test_match_generic : answer (exec (.matchGeneric (section27 0 8 1 0)) (held viewP1)) =
    some (.matchedBytes 19 [0xA1]) := by decide +kernel
theorem test_match_generic_msb : answer (exec (.matchGeneric (section27 1 8 1 1)) (saved viewP1)) =
    some (.matchedBytes 19 [0x85]) := by decide +kernel
theorem test_match_generic_int : answer (exec (.matchGenericInt (section27 0 8 1 0)) (held viewP1)) =
    some (.matchedInt 19 161) := by decide +kernel
theorem test_match_generic_int_interior_gap : answer (exec (.matchGenericInt (section27 0 7 0 0)) (held viewP1)) =
    some (.matchedInt 18 33) := by decide +kernel
theorem test_decode_hash : answer (exec (.decodeHash 0) (held [1, 300, 100, 100, 300, 100])) =
    some (.hash true 0xFDAC0152 3) := by decide +kernel
theorem test_decode_hash_mul_then_xor : answer (exec (.decodeHash 0)
    { held [1, 300, 100, 100, 300, 100] with params := { Params.suggested with hashFold := .mulThenXor } }) =
      some (.hash true 0x4CB0FADC 3) := by decide +kernel

/-! ## Capture (2.9) -/

theorem test_rx_enable : (after (exec .rxEnable { held [1, 5] with overflow := true, toArmed := true })).map
    (fun s => (s.rxEn, s.rcvState, s.rawLen, s.overflow, s.toArmed)) = some (true, .idle, 0, false, false) := by decide
theorem test_rx_disable : (after (exec .rxDisable marking)).map
    (fun s => (s.rxEn, s.rcvState, s.rawLen, s.toArmed)) = some (false, .mark, 1, false) := by decide
theorem test_resume : (after (exec .resume { held [1, 5] with overflow := true })).map
    (fun s => (s.live, s.rxEn, s.rcvState, s.rawLen, s.overflow)) = some ([(0, 1), (1, 5)], true, .idle, 0, false) := by
  decide
theorem test_rx_status : answer (exec .rxStatus (held viewP1)) = some (.status true 2 20 false) := by decide +kernel
theorem test_first_edge : (after (exec .evEdge (listening 1000))).map
    (fun s => (s.live, s.rawLen, s.rcvState, s.lastEdge, s.toArmed, s.toDeadline)) =
      some ([(0, 1)], 1, .mark, 1000, true, 16000) := by decide +kernel
theorem test_next_edge : (after (exec .evEdge marking)).map
    (fun s => (s.live, s.rawLen, s.rcvState, s.toDeadline)) = some ([(0, 1), (1, 4500)], 2, .mark, 25000) := by
  decide +kernel
theorem test_timeout : (after (exec .evTimeout { marking with tau := 16000 })).map
    (fun s => (s.live, s.rawLen, s.rcvState, s.toArmed)) = some ([(0, 1)], 1, .stop, false) := by decide
theorem test_timeout_empty : (after (exec .evTimeout { marking with rcvState := .idle, rawLen := 0, tau := 16000 })).map
    (fun s => (s.rcvState, s.toArmed)) = some (.idle, false) := by decide
theorem test_decode_copy : (after (exec (.decode 1) (held [1, 4500, 1125, 280]))).map
    (fun s => (s.save, s.saveLen, s.saveValid, s.rcvState, s.results)) =
      some ([(0, 1), (1, 4500), (2, 1125), (3, 280)], 4, true, .idle, [.decoded none]) := by decide +kernel
theorem test_decode_in_place : answer (exec (.decode 0) (held viewP1)) =
    some (.decoded (some ⟨⟨-1, 10, .int 0xACA9C57A, 0, 0, false⟩, false, 20, 0⟩)) := by decide +kernel

/-! ## Faults (2.10) and refusals (2.11) through the command port -/

theorem test_fault_timer : faultOf (issue [0x11, 0x00] State.reset) = some ⟨1, 0⟩ := by decide
theorem test_fault_freq : faultOf (issue [0x20, 0, 0, 0, 0, 0x32] (carrier 8 18)) = some ⟨2, 0⟩ := by decide
theorem test_fault_live : faultOf (exec (.matchData (dataOps 1 1 0)) marking) = some ⟨4, 1⟩ := by decide
theorem test_fault_save : faultOf (issue [0x53, 0x01] State.reset) = some ⟨5, 0⟩ := by decide
theorem test_refuse_unknown : refusalOf (issue [0xFF] State.reset) = some ⟨0x81, 0xFF⟩ := by decide
theorem test_refuse_event : refusalOf (issue [0x80] State.reset) = some ⟨0x82, 0x80⟩ := by decide
theorem test_refuse_flag : refusalOf (issue [0x05, 0x02] (held [1, 5])) = some ⟨0x83, 0⟩ := by decide
theorem test_refuse_length : refusalOf (exec (.sendGeneric { genericOps 56 with nbytes := 2 }) State.reset) =
    some ⟨0x83, 12⟩ := by decide
theorem test_stopped_machine :
    step { State.reset with fault := some ⟨3, 0⟩, schedule := [⟨0, .command [0x04]⟩] } = .fault (.haltedByFault ⟨3, 0⟩) :=
  rfl

/-! ## Notation and results (30_encoding.md R106, R109, R110; R104) -/

theorem test_assemble_defaults : assembleLine Params.suggested "@5 MATCH_MARK 280, 560 ; a comment".toList =
    some (.commands (some 5) [.matchMark 280 560 25 50]) := by decide +kernel
theorem test_assemble_named : assembleLine Params.suggested "ENABLE_IR_OUT duty=33, freq=0x26".toList =
    some (.commands none [.enableIrOut 38 33]) := by decide +kernel
theorem test_assemble_pseudo : assembleLine Params.suggested "DECODE_COPY".toList =
    some (.commands none [.decode 1]) := by decide +kernel
theorem test_assemble_event : assembleLine Params.suggested "@1000 EDGE".toList = some (.edge 1000) := by decide +kernel
theorem test_turns_of_lines : turnsOfLines 0 0 [.commands (some 0) [.mark 60], .commands none [.space 100], .edge 200] =
    [⟨0, .command [0x21, 60, 0, 0, 0]⟩, ⟨0, .command [0x22, 100, 0, 0, 0]⟩, ⟨140, .edge⟩] := by decide +kernel
/-- The same program: the edge is at 200, after the two sends. -/
theorem test_run_of_lines : (after (core.run 3 { carrier 8 18 with
    schedule := turnsOfLines 0 0 [.commands (some 0) [.mark 60], .commands none [.space 100], .edge 200] })).map
      (fun s => (s.tau, s.busyUntil, s.schedule)) = some (200, 160, []) := by decide +kernel
theorem test_serialize_status : serializeResult (.status true 2 20 false) = [1, 2, 20, 0, 0] := by decide
theorem test_serialize_bytes : serializeResult (.matchedBytes 19 [0xA1]) = [19, 0, 1, 0, 0xA1] := by decide
theorem test_serialize_record : serializeResult (.decoded (some ⟨⟨-1, 10, .int 0xACA9C57A, 0, 0, false⟩, false, 20, 0⟩)) =
    [1, 0xFF, 0xFF, 10, 0, 0, 0x7A, 0xC5, 0xA9, 0xAC, 0, 0, 0, 0, 0, 0, 0, 0, 0, 0, 0, 0, 0, 0, 20, 0, 0] := by decide

/-! ## Witnesses: the hypotheses of each statement can be met -/

theorem suggested_valid : Params.suggested.Valid := by constructor <;> decide

theorem nearlyFull_valid (b : Bool) : (nearlyFull b).params.Valid := by cases b <;> constructor <;> decide

theorem held_storeInv : StoreInv (held [1, 4500, 1125, 280]) := by constructor <;> decide

theorem marking_captureInv : CaptureInv marking := by constructor <;> first | exact suggested_valid | decide

/-- EncodeOfDecode. -/
theorem witness_packet_decodes : decode [0x05, 0x01] = .instr (.decode 1) := by decide

/-- StepRunsTheDecodedInstruction: a command, an edge, a timeout, an idle machine that is armed and one that is not. -/
theorem witness_step_runs :
    ({ carrier 8 18 with schedule := [⟨7, .command [0x21, 5, 0, 0, 0]⟩] } : State).Running ∧
      decode [0x21, 5, 0, 0, 0] = .instr (.mark 5) ∧ (Instr.mark 5).isEvent = false ∧
      ({ marking with schedule := [⟨0, .edge⟩] } : State).Running ∧
      ({ marking with schedule := [⟨6000, .timeout⟩] } : State).Running ∧
      marking.Running ∧ marking.schedule = [] ∧ marking.toArmed = true ∧
      State.reset.Running ∧ State.reset.schedule = [] ∧ State.reset.toArmed = false :=
  ⟨⟨rfl, rfl⟩, by decide, rfl, ⟨rfl, rfl⟩, ⟨rfl, rfl⟩, ⟨rfl, rfl⟩, rfl, rfl, ⟨rfl, rfl⟩, rfl, rfl⟩

/-- PortRefusesUnknownAndEventCodes. -/
theorem witness_port_refuses :
    ({ State.reset with schedule := [⟨0, .command [0x82]⟩] } : State).Running ∧
      decode [0x82] = .unknownOpcode 0x82 ∧
      ({ State.reset with schedule := [⟨0, .command [0x81]⟩] } : State).Running :=
  ⟨⟨rfl, rfl⟩, by decide, ⟨rfl, rfl⟩⟩

/-- IllegalOperandsAreRefused: the least illegal value of each operand. -/
theorem witness_illegal_operands :
    ((2 : Byte) ≠ 0 ∧ (2 : Byte) ≠ 1) ∧ State.reset.params.numTimers ≤ (1 : Byte).toNat ∧
      (sendOps 3 4 2).msbFirst ≠ 0 ∧ (sendOps 3 4 2).msbFirst ≠ 1 ∧
      (genericOps 56).msbFirst = 1 ∧ ({ genericOps 56 with nbytes := 2 } : SendGenericOps).nbytes.toNat ≠ 1 ∧
      (section27 0 8 2 0).bank = 0 ∧ (section27 0 8 2 0).isLast ≠ 1 ∧ (section27 1 8 1 2).isLast = 1 ∧
      (section27 1 8 1 2).msbFirst ≠ 1 := by decide

/-- FaultsArePrecise. -/
theorem witness_fault : State.reset.fault = none ∧
    exec (.mark 560) State.reset = .next { State.reset with fault := some ⟨3, 0⟩ } ∧
    ∀ dt rest, ({ State.reset with fault := some ⟨3, 0⟩ } : State).schedule ≠ ⟨dt, .powerOn⟩ :: rest :=
  ⟨rfl, rfl, fun _ _ h => nomatch h⟩

/-- RefusalsArePrecise. -/
theorem witness_refusal : State.reset.refused = none ∧
    exec (.decode 2) State.reset = .next { State.reset with refused := some ⟨0x83, 0⟩ } := ⟨rfl, rfl⟩

/-- OnlyPowerOnLeavesAStop: a machine stopped by a fault, one stopped by a refusal, one that is switched off and on. -/
theorem witness_stops :
    (∀ dt rest, ({ State.reset with fault := some ⟨3, 0⟩ } : State).schedule ≠ ⟨dt, .powerOn⟩ :: rest) ∧
      (∀ dt rest, ({ State.reset with refused := some ⟨0x81, 6⟩ } : State).schedule ≠ ⟨dt, .powerOn⟩ :: rest) ∧
      ({ State.reset with fault := some ⟨3, 0⟩, schedule := [⟨9, .powerOn⟩] } : State).schedule =
        ⟨9, .powerOn⟩ :: [] :=
  ⟨fun _ _ h => (nomatch h), fun _ _ h => (nomatch h), rfl⟩

/-- TimeOnlyAdvances, EveryInstruction…, RegistersHaveOnlyTheirWriters: a step and an instruction that answer. -/
theorem witness_next : step State.reset = .next State.reset ∧
    exec .ledOff State.reset = .next { State.reset with results := [.done] } := ⟨rfl, rfl⟩

/-- SendsOccupyThePort: a send, and a command that waits for it. -/
theorem witness_sends :
    (after (exec (.space 100) State.reset)).map (fun s => (s.busyUntil, waveTotal s.outWave)) = some (100, 100) ∧
      (after (issue [0x04] { State.reset with busyUntil := 100 })).map (·.tau) = some 100 := by decide

/-- FirstEdgeWritesTheSentinel. -/
theorem witness_first_edge : (listening 1000).rxEn = true ∧ (listening 1000).rcvState = .idle ∧
    (listening 1000).rawLen = 0 ∧ (listening 1000).params.Valid ∧ 2 ≤ (listening 1000).params.rawBufSize ∧
    (listening 1000).live.wf = true := ⟨rfl, rfl, rfl, suggested_valid, by decide, rfl⟩

/-- EdgeRecordsTheInterval. -/
theorem witness_edge : marking.rxEn = true ∧ marking.rcvState = .mark ∧ marking.params.Valid ∧
    marking.rawLen.toNat + 1 < marking.params.rawBufSize ∧ marking.live.wf = true ∧ 1000 ≤ marking.tau ∧
    marking.lastEdge = (1000 + marking.clockOffset) % 2 ^ marking.params.clockBits :=
  ⟨rfl, rfl, suggested_valid, by decide, by decide, by decide, by decide⟩

/-- An enabled receiver with a bank of one entry (00_scope.md R8). -/
def tiny (onFill : Bool) : State :=
  { listening 1000 with params := { Params.suggested with rawBufSize := 1, overflowOnFill := onFill } }

/-- FullBankOverflows: the edge that fills the bank, in both modes, and the edge after it; the first edge that fills
a bank of one entry, with its sentinel. -/
theorem witness_full_bank : (nearlyFull true).params.Valid ∧ (nearlyFull false).params.Valid ∧
    (nearlyFull true).live.wf = true ∧ (nearlyFull true).rcvState = .mark ∧
    (nearlyFull true).rawLen.toNat + 1 = (nearlyFull true).params.rawBufSize ∧
    (nearlyFull false).rawLen.toNat + 1 = (nearlyFull false).params.rawBufSize ∧
    (nearlyFull false).params.overflowOnFill = false ∧
    (after (exec .evEdge (nearlyFull false))).map (fun s => (s.rcvState, s.rawLen)) = some (.mark, 8) :=
  ⟨nearlyFull_valid true, nearlyFull_valid false, by decide, rfl, by decide, by decide, rfl, by decide +kernel⟩

theorem witness_full_bank_first_edge : (tiny true).params.Valid ∧ (tiny true).rxEn = true ∧
    (tiny true).live.wf = true ∧ (tiny true).rcvState = .idle ∧
    (tiny true).rawLen.toNat + 1 = (tiny true).params.rawBufSize ∧
    (after (exec .evEdge (tiny true))).map (fun s => (s.live, s.rcvState, s.overflow)) = some ([(0, 1)], .stop, true) ∧
    (after (exec .evEdge (tiny false))).map (fun s => (s.live, s.rcvState, s.overflow)) =
      some ([(0, 1)], .mark, false) :=
  ⟨by constructor <;> decide, rfl, rfl, rfl, by decide, by decide +kernel, by decide +kernel⟩

/-- EdgesAreIgnored. -/
theorem witness_ignored : State.reset.rxEn = false ∧ (held viewP1).rxEn = true ∧ (held viewP1).rcvState = .stop := by
  decide

/-- TimeoutEndsTheCapture: at the deadline with and without an entry, and one microsecond before it. -/
theorem witness_timeout :
    (marking.toArmed = true ∧ marking.toDeadline ≤ 16000 ∧ marking.rawLen ≠ 0) ∧
      ({ marking with rawLen := 0, rcvState := .idle, tau := 16000 } : State).rawLen = 0 ∧ 15999 < marking.toDeadline := by
  decide

/-- EdgeAndTimeoutRaceBothWays. -/
theorem witness_race : ({ marking with tau := 16000 } : State).Running ∧ marking.params.Valid ∧ marking.rxEn = true ∧
    marking.rcvState = .mark ∧ 1 ≤ marking.rawLen.toNat ∧ marking.rawLen.toNat + 1 < marking.params.rawBufSize ∧
    marking.toArmed = true ∧ marking.toDeadline ≤ 16000 :=
  ⟨⟨rfl, rfl⟩, suggested_valid, rfl, rfl, by decide, by decide, rfl, by decide⟩

/-- AbandonedCaptureReachesStop. -/
theorem witness_abandoned : marking.Running ∧ marking.schedule = [] ∧ marking.toArmed = true ∧ marking.rawLen ≠ 0 :=
  ⟨⟨rfl, rfl⟩, rfl, rfl, by decide⟩

/-- StoppedCaptureIsStable. -/
theorem witness_stable : (held viewP1).rcvState = .stop ∧ (after (exec .rxDisable (held viewP1))).isSome = true ∧
    Instr.rxDisable ≠ .resume ∧ Instr.rxDisable ≠ .rxEnable ∧ Instr.rxDisable ≠ .decode 1 := by decide

/-- DecodeIsNotReady: IDLE and MARK. -/
theorem witness_not_ready : State.reset.rcvState ≠ .stop ∧ marking.rcvState ≠ .stop := by decide

/-- DecodeCopiesAndResumes, DecodeInPlaceKeepsTheCapture. -/
theorem witness_decode : (held [1, 4500, 1125, 280]).rcvState = .stop ∧
    (held [1, 4500, 1125, 280]).rawLen.toNat ≤ (held [1, 4500, 1125, 280]).params.rawBufSize ∧
    StoreInv (held [1, 4500, 1125, 280]) := ⟨rfl, by decide, held_storeInv⟩

/-- RegistersHaveOnlyTheirWriters: each register is written by a command or handler the statement names. -/
theorem witness_writers :
    (after (exec .rxEnable State.reset)).map (·.rxEn) = some true ∧
      (after (exec .evEdge marking)).map (·.lastEdge) = some 10000 ∧
      (after (exec .evEdge (nearlyFull true))).map (·.overflow) = some true ∧
      (after (exec .resume { held [1, 5] with overflow := true })).map (·.overflow) = some false ∧
      (after (exec (.decode 1) (held [1, 5]))).map (·.saveValid) = some true ∧
      (after (exec (.enableIrOut 38 33) State.reset)).map (·.carrierValid) = some true ∧
      (after (exec (.space 5) State.reset)).map (·.outWave) = some [⟨.low, 5⟩] ∧
      (after (exec (.timerReset 0) State.reset)).map (·.tSet) = some [(0, 1)] ∧
      (after (exec .evEdge (listening 1000))).map (fun s => (s.rcvState, s.rawLen, s.toArmed)) = some (.mark, 1, true) ∧
      (after (exec .ledOff { State.reset with outLevel := .high })).map (·.outLevel) = some .low := by decide +kernel

/-- CaptureRecordsTheEdges: three edges, and the most that a bank of 100 holds without filling. -/
theorem witness_run_of_edges :
    ({ listening 0 with schedule := [⟨1000, .edge⟩, ⟨9000, .edge⟩, ⟨4500, .edge⟩] } : State).Running ∧
      Params.suggested.Valid ∧ (listening 0).rxEn = true ∧ (listening 0).rcvState = .idle ∧ (listening 0).rawLen = 0 ∧
      (listening 0).live.wf = true ∧ [9000, 4500].length + 1 < (listening 0).params.rawBufSize ∧
      (List.replicate 98 600).length + 1 < (listening 0).params.rawBufSize :=
  ⟨⟨rfl, rfl⟩, suggested_valid, rfl, rfl, rfl, rfl, by decide, by decide⟩

/-- The invariants hold of states with a message in progress, a carrier and a stop record, and those step. -/
theorem witness_invariants : CaptureInv marking ∧ StoreInv (held [1, 4500, 1125, 280]) ∧ DriverInv (carrier 8 18) ∧
    RecordInv { State.reset with fault := some ⟨5, 0⟩ } ∧ (after (step marking)).isSome = true ∧
    (after (step (held [1, 4500, 1125, 280]))).isSome = true ∧ (after (step (carrier 8 18))).isSome = true ∧
    (after (step { State.reset with fault := some ⟨5, 0⟩, schedule := [⟨0, .powerOn⟩] })).isSome = true :=
  ⟨marking_captureInv, held_storeInv,
    ⟨fun _ => by decide, fun _ => by decide, fun _ => by decide, rfl, fun g hg => (nomatch hg), List.isChain_nil⟩,
    ⟨fun r h => by cases h; decide, fun r h => (nomatch h), Or.inr rfl⟩, by decide, by decide, by decide, by decide⟩

/-- StopwatchMeasuresElapsedTime, TimerElapsedReadsOrFaults: never started, and started. -/
theorem witness_stopwatch : (0 : Byte).toNat < State.reset.params.numTimers ∧ State.reset.params.Valid ∧
    Memory.wf State.reset = true ∧ State.reset.timerStart 0 < 2 ^ State.reset.params.clockBits ∧
    State.reset.timerIsSet 0 = false ∧
    ({ State.reset with tStart := [(0, 1000)], tSet := [(0, 1)] } : State).timerIsSet 0 = true :=
  ⟨by decide, suggested_valid, rfl, by decide, rfl, rfl⟩

/-- EnableConfiguresTheCarrier: the largest frequency in kHz and the smallest in Hz. -/
theorem witness_frequencies : (999 : U32) ≠ 0 ∧ (1000 : U32) ≠ 0 ∧
    (after (exec (.enableIrOut 999 50) State.reset)).map (fun s => (s.carrierHz, s.periodUs)) = some (999000, 1) ∧
    (after (exec (.enableIrOut 1000 50) State.reset)).map (fun s => (s.carrierHz, s.periodUs)) =
      some (1000, 1000) := by decide

/-- UnconfiguredCarrierFaults, ZeroFrequencyFaults. -/
theorem witness_carrier_faults : State.reset.carrierValid = false ∧ (sendOps 1 1 1).msbFirst = 1 ∧
    (sendOps 1 1 1).nbits ≠ 0 ∧ (genericOps 0).msbFirst = 1 ∧
    (genericOps 0).nbytes.toNat = (genericOps 0).bytes.length ∧ (genericOps 0).freq = 0 := by decide

/-- MarkLastsExactlyItsDuration. -/
theorem witness_mark : (carrier 8 18).carrierValid = true ∧
    1 ≤ (carrier 8 18).onUs.toNat + (carrier 8 18).offUs.toNat ∧
    (after (exec (.mark 60) (carrier 8 18))).map (fun s => (waveTotal s.outWave, waveHigh s.outWave)) =
      some (60, 24) := by decide

/-- WaveformIsAppendOnly: after nothing, after a HIGH segment and after a LOW one. -/
theorem witness_waveform :
    (after (exec (.mark 9) (carrier 8 18))).map (·.outWave) = some [⟨.low, 1⟩, ⟨.high, 8⟩] ∧
      (after (exec (.mark 8) { carrier 8 18 with outWave := [⟨.high, 5⟩] })).map (·.outWave) =
        some [⟨.high, 8⟩, ⟨.high, 5⟩] ∧
      (after (exec (.space 8) { carrier 8 18 with outWave := [⟨.low, 5⟩] })).map (·.outWave) = some [⟨.low, 13⟩] := by
  decide

/-- SendDataSendsItsBits: a carrier with a period, and bits below and above bit 63. -/
theorem witness_send_data : 1 ≤ (carrier 18 0).onUs.toNat + (carrier 18 0).offUs.toNat ∧ (carrier 18 0).carrierValid = true ∧ (sendOps 3 66 1).nbits ≠ 0 ∧
    (sendOps 3 66 1).msbFirst = 1 ∧ (List.replicate 64 false ++ [true, true]).length = (sendOps 3 66 1).nbits.toNat ∧
    (List.range 66).map (fun i => (sendOps 3 66 1).data.getLsbD (66 - 1 - i)) =
      List.replicate 64 false ++ [true, true] := by decide +kernel

/-- PaddingIsFirstOrLast: no padding and two symbols of it, in both orders. EmptySendDataSendsNothing. -/
theorem witness_padding : (sendOps 3 64 1).nbits.toNat = 64 + 0 ∧ (sendOps 3 66 0).nbits.toNat = 64 + 2 ∧
    (sendOps 3 64 1).msbFirst = 1 ∧ (sendOps 3 66 0).msbFirst = 0 ∧ (sendOps 0 0 1).nbits = 0 := by decide

/-- SendGenericSendsItsFrames. -/
theorem witness_send_generic : (genericOps 56).msbFirst = 1 ∧
    (genericOps 56).nbytes.toNat = (genericOps 56).bytes.length ∧ (genericOps 56).freq ≠ 0 := by decide

/-- TickBoundsAreFloorAndCeiling: bounds that fit their field and, at the ends of it, bounds that do not. -/
theorem witness_tick_bounds : 1 ≤ State.reset.params.tickUs ∧ ticksLow 1 (2 ^ 63 - 1) 0 < 2 ^ 63 ∧
    2 ^ 63 ≤ ticksLow 1 (-2 ^ 63) 255 ∧ ticksHigh 2 560 25 < 2 ^ 63 ∧ 2 ^ 63 ≤ ticksHigh 1 (2 ^ 63 - 1) 0 ∧
    ticksHigh 1 (-2 ^ 63) 1 < -2 ^ 63 := by decide

/-- VerdictsAreExactComparisons: the smallest tick, and the targets -1, 0 and 1 of a mark. -/
theorem witness_verdicts : 1 ≤ State.reset.params.tickUs ∧
    (matchesMark 1 0 0 25 (-1), matchesMark 1 0 0 25 0, matchesMark 1 0 0 25 1) = (false, true, true) := by decide

/-- ToleranceBoundary: a tolerance of 25, and both ends of the range of tolerances at d = 1 (95_test_vectors.md
X7). -/
theorem witness_tolerance :
    ((210 : Nat) : Int) = ticksLow 2 560 25 ∧ ((351 : Nat) : Int) = ticksHigh 2 560 25 ∧
      ((0 : Nat) : Int) = ticksLow 2 1 0 ∧ ((2 : Nat) : Int) = ticksHigh 2 1 0 ∧
      ((0 : Nat) : Int) = ticksLow 2 560 100 ∧ ((561 : Nat) : Int) = ticksHigh 2 560 100 := by decide

/-- ViewsFault: LIVE in IDLE and in MARK, SAVE empty. -/
theorem witness_views : (Instr.matchData (dataOps 1 4 1)).wf State.reset.params.numTimers = true ∧
    (dataOps 1 4 1).bank = 0 ∧ State.reset.rcvState = .idle ∧ marking.rcvState = .mark ∧
    (Instr.decodeHash 1).wf State.reset.params.numTimers = true ∧ State.reset.saveValid = false := by decide

theorem view26_is : ViewIs 0 (held view26) view26 := Or.inl ⟨rfl, rfl, by decide +kernel⟩

theorem viewP1_is : ViewIs 0 (held viewP1) viewP1 := Or.inl ⟨rfl, rfl, by decide +kernel⟩

/-- MatchDataReadsTheBits: the four pairs of view26 up to its end. -/
theorem witness_match_data : ViewIs (dataOps 1 4 1).bank (held view26) view26 ∧ (dataOps 1 4 1).msbFirst = 1 ∧
    [true, false, true, false].length = (dataOps 1 4 1).nbits.toNat ∧
    (dataOps 1 4 1).offset.toNat + 2 * (dataOps 1 4 1).nbits.toNat ≤ view26.length ∧
    ∀ i (h : i < [true, false, true, false].length),
      bitAt (held view26).params.tickUs (dataOps 1 4 1).timings (dataOps 1 4 1).tol (dataOps 1 4 1).excess view26
        ((dataOps 1 4 1).offset.toNat + 2 * i) = some [true, false, true, false][i] :=
  ⟨view26_is, rfl, by decide, by decide, by decide +kernel⟩

/-- MatchDataFails: one bit more than the view holds, and a pair that is no symbol. -/
theorem witness_match_data_fails : ViewIs (dataOps 1 5 1).bank (held view26) view26 ∧
    view26.length < (dataOps 1 5 1).offset.toNat + 2 * (dataOps 1 5 1).nbits.toNat ∧
    bitAt (held view26).params.tickUs (dataOps 2 1 1).timings (dataOps 2 1 1).tol (dataOps 2 1 1).excess view26
      ((dataOps 2 1 1).offset.toNat + 2 * 0) = none ∧
    succeeded (exec (.matchData (dataOps 2 1 1)) (held view26)) = some false :=
  ⟨view26_is, by decide, by decide, by decide⟩

/-- The bits of P1's data, first first. -/
def bitsP1 : List Bool := [true, false, false, false, false, true, false, true]

/-- SectionIsMatched: P1's section, whose gap is past the end of the view, and one whose gap is an entry. -/
theorem witness_section : ViewIs (section27 0 8 1 0).bank (held viewP1) viewP1 ∧
    bitsP1.length = (section27 0 8 1 0).nbits.toNat ∧ 1 + 1 + 1 + 2 * 8 + 1 ≤ viewP1.length ∧
    matchesMark 2 (viewP1.getD 1 0) 9000 25 50 = true ∧ matchesSpace 2 (viewP1.getD 2 0) 4500 25 50 = true ∧
    (∀ i (h : i < bitsP1.length), bitAt 2 nec 25 50 viewP1 (3 + 2 * i) = some bitsP1[i]) ∧
    matchesMark 2 (viewP1.getD 19 0) 560 25 50 = true ∧ matchesAtLeast 2 20000 40000 25 50 = true ∧
    answer (exec (.matchGeneric (section27 0 8 1 0)) (held (viewP1 ++ [20000]))) = some (.matchedBytes 20 [0xA1]) :=
  ⟨viewP1_is, by decide, by decide, by decide, by decide, by decide +kernel, by decide, by decide, by decide +kernel⟩

/-- SectionIsNotMatched: each reason a section fails for, on P1's view. -/
theorem witness_section_fails : ViewIs (section27 0 16 1 0).bank (held viewP1) viewP1 ∧
    (section27 0 7 1 0).nbits.toNat % 8 ≠ 0 ∧ viewP1.length - 1 < 1 + 1 + 1 + 2 * 16 + 1 - 1 ∧
    matchesMark 2 (viewP1.getD 1 0) 4500 25 50 = false ∧ matchesSpace 2 (viewP1.getD 2 0) 9000 25 50 = false ∧
    bitAt 2 nec 25 50 viewP1 (2 + 2 * 0) = none ∧ matchesMark 2 (viewP1.getD 18 0) 560 25 50 = false ∧
    matchesAtLeast 2 (viewP1.getD 18 0) 40000 25 50 = false :=
  ⟨viewP1_is, by decide, by decide, by decide, by decide, by decide, by decide, by decide⟩

/-- MatchConsumesWithinTheView. -/
theorem witness_consumed : matchGeneric 2 (section27 0 8 1 0) viewP1 = some (19, [0xA1]) ∧
    matchGenericInt 2 (section27 0 8 1 0) viewP1 = some (19, 161) ∧ (section27 0 8 1 0).nbits ≠ 0 := by decide +kernel

/-- The frame P1 captures (95_test_vectors.md P1). -/
def frameP1 : SendGenericOps := ⟨9000, 4500, nec, 560, 40000, 38, 50, 0, 0, 1, [0xA1]⟩

/-- MatchInvertsSend: P1's frame and P1's view. -/
theorem witness_inverse :
    (1 :: (partPulses .mark frameP1.hdrMark ++ partPulses .space frameP1.hdrSpace ++
      (frameP1.bytes.flatMap fun b => dataEnvelope frameP1.timings (b.setWidth 64) 8 (frameP1.msbFirst == 1)) ++
      partPulses .mark frameP1.footerMark).map fun p => p.us / 2) = viewP1 ∧
    (section27 0 8 1 0).nbits.toNat = 8 * frameP1.bytes.length ∧
    matchesMark 2 (560 / 2) 560 25 50 = true ∧ matchesSpace 2 (560 / 2) 560 25 50 = true ∧
    matchesSpace 2 (1690 / 2) 1690 25 50 = true ∧ matchesMark 2 (9000 / 2) 9000 25 50 = true ∧
    matchesSpace 2 (4500 / 2) 4500 25 50 = true ∧ matchesSpace 2 (560 / 2) 1690 25 50 = false := by decide +kernel

/-- HashFoldsTheComparisons: six entries, the least, and five. HashIgnoresScale: X10's two views. -/
theorem witness_hash : ViewIs 0 (held [1, 100, 100, 100, 100, 100]) [1, 100, 100, 100, 100, 100] ∧
    ViewIs 0 (held [1, 100, 100, 100, 100]) [1, 100, 100, 100, 100] ∧
    succeeded (exec (.decodeHash 0) (held [1, 100, 100, 100, 100])) = some false ∧
    compareSequence [1, 300, 600, 300, 600, 300] = compareSequence [1, 100, 200, 100, 200, 100] :=
  ⟨Or.inl ⟨rfl, rfl, by decide⟩, Or.inl ⟨rfl, rfl, by decide⟩, by decide, by decide⟩

end Sys2Proof.Tests
end

section
/-! SUPPORT. What a step does to the block's registers, said once: the effect of a command or handler on them,
apart from what it reports to the host, and the induction over steps that the invariants share. -/

namespace Sys2Proof.Machine

/-! ## What a command or handler writes -/

/-- `t` differs from `s` in the stop records, the host's result list and the draw counter only. -/
def ReportsOnly (s t : State) : Prop :=
  ∃ fault refused results draws,
    t = { s with fault := fault, refused := refused, results := results, draws := draws }

theorem reportsOnly_refuse (k : RefusalKind) (info : Nat) (s : State) : ReportsOnly s (refuse k info s) :=
  ⟨_, _, _, _, rfl⟩

theorem reportsOnly_raiseFault (k : FaultKind) (info : Nat) (s : State) : ReportsOnly s (raiseFault k info s) :=
  ⟨_, _, _, _, rfl⟩

theorem reportsOnly_withResult (r : Result) (s : State) : ReportsOnly s (withResult r s) :=
  ⟨_, _, _, _, rfl⟩

theorem reportsOnly_withResult_spendDraw (r : Result) (s : State) :
    ReportsOnly s (withResult r (spendDraw s)) :=
  ⟨_, _, _, _, rfl⟩

/-- What a command or handler does to the block's registers, apart from its reports: nothing (`silent`: it is
refused, faults, only answers, or is not enabled), or the writes of its rule. The edge handler writes in one of
the four ways of `edgeHandler_cases`, the timeout handler in one of two. -/
inductive RegisterEffect : Instr → State → State → Prop
  | silent (i : Instr) (s : State) : RegisterEffect i s s
  | rxEnable (s : State) : RegisterEffect .rxEnable s (disarm (resumeCapture { s with rxEn := true }))
  | rxDisable (s : State) : RegisterEffect .rxDisable s (disarm { s with rxEn := false })
  | resume (s : State) : RegisterEffect .resume s (resumeCapture s)
  | copy (s : State) (hstop : s.rcvState = .stop) : RegisterEffect (.decode 1) s (copyAndResume s)
  | timerReset (k : Byte) (s : State) (hk : k.toNat < s.params.numTimers) :
      RegisterEffect (.timerReset k) s
        { s with tStart := s.tStart.write k.toNat s.now, tSet := s.tSet.write k.toNat 1 }
  | enableIrOut (freq : U32) (duty : Byte) (s : State) (hfreq : freq ≠ 0) :
      RegisterEffect (.enableIrOut freq duty) s (configureCarrier freq duty s)
  | mark (d : U32) (s : State) (hvalid : s.carrierValid = true) :
      RegisterEffect (.mark d) s (sendEnvelope [.mark d.toNat] s)
  | space (d : U32) (s : State) : RegisterEffect (.space d) s (sendEnvelope [.space d.toNat] s)
  | ledOff (s : State) : RegisterEffect .ledOff s { s with outLevel := .low }
  | sendData (o : SendDataOps) (pulses : List Pulse) (s : State) (hvalid : s.carrierValid = true) :
      RegisterEffect (.sendData o) s (sendEnvelope pulses s)
  | sendGeneric (o : SendGenericOps) (pulses : List Pulse) (s : State) (hfreq : o.freq ≠ 0) :
      RegisterEffect (.sendGeneric o) s (sendEnvelope pulses (configureCarrier o.freq o.duty s))
  | edgeAtFullBank (s : State) (hrx : s.rxEn = true) (hstop : s.rcvState ≠ .stop)
      (hmode : s.params.overflowOnFill = false) (hfull : s.params.rawBufSize ≤ s.rawLen.toNat) :
      RegisterEffect .evEdge s (setOverflow (disarm s))
  | edgeHeld (s : State) (hrx : s.rxEn = true) (hstop : s.rcvState = .stop) :
      RegisterEffect .evEdge s (disarm s)
  | edgeFills (s : State) (hrx : s.rxEn = true) (hstop : s.rcvState ≠ .stop)
      (hroom : s.params.overflowOnFill = true ∨ s.rawLen.toNat < s.params.rawBufSize)
      (hmode : s.params.overflowOnFill = true) (hfull : s.params.rawBufSize ≤ (s.rawLen + 1).toNat) :
      RegisterEffect .evEdge s (rearm (setOverflow (recordEdge (disarm s))))
  | edgeRecorded (s : State) (hrx : s.rxEn = true) (hstop : s.rcvState ≠ .stop)
      (hroom : s.params.overflowOnFill = true ∨ s.rawLen.toNat < s.params.rawBufSize)
      (hmore : s.params.overflowOnFill = false ∨ (s.rawLen + 1).toNat < s.params.rawBufSize) :
      RegisterEffect .evEdge s (rearm (recordEdge (disarm s)))
  | timeoutEmpty (s : State) (hdue : timeoutDue s = true) (hempty : s.rawLen = 0) :
      RegisterEffect .evTimeout s { s with toArmed := false }
  | timeoutStops (s : State) (hdue : timeoutDue s = true) (hsome : s.rawLen ≠ 0) :
      RegisterEffect .evTimeout s { s with toArmed := false, rcvState := .stop }

theorem edgeHandler_effect {s : State} (hrx : s.rxEn = true) : RegisterEffect .evEdge s (edgeHandler s) := by
  rcases edgeHandler_cases s with ⟨hmode, hstop, hfull, he⟩ | ⟨hstop, he⟩ | ⟨hstop, hroom, hmode, hfull, he⟩ |
    ⟨hstop, hroom, hmore, he⟩ <;> rw [he]
  · exact .edgeAtFullBank s hrx hstop hmode hfull
  · exact .edgeHeld s hrx hstop
  · exact .edgeFills s hrx hstop hroom hmode hfull
  · exact .edgeRecorded s hrx hstop hroom hmore

theorem timeoutHandler_effect {s : State} (hdue : timeoutDue s = true) :
    RegisterEffect .evTimeout s (timeoutHandler s) := by
  rcases timeoutHandler_cases s with ⟨hlen, he⟩ | ⟨hlen, he⟩ <;> rw [he]
  · exact .timeoutEmpty s hdue hlen
  · exact .timeoutStops s hdue hlen

theorem completion_effect {i : Instr} {s t : State} (h : Completion i s t) :
    ∃ u, RegisterEffect i s u ∧ ReportsOnly u t := by
  cases i with
  | rxEnable => exact ⟨_, .rxEnable s, h ▸ reportsOnly_withResult _ _⟩
  | rxDisable => exact ⟨_, .rxDisable s, h ▸ reportsOnly_withResult _ _⟩
  | resume => exact ⟨_, .resume s, h ▸ reportsOnly_withResult _ _⟩
  | rxStatus => exact ⟨_, .silent _ s, h ▸ reportsOnly_withResult _ _⟩
  | decode save =>
    rcases h with ⟨hstop, rfl, answer, rfl⟩ | ⟨answer, rfl⟩
    · exact ⟨_, .copy s hstop, reportsOnly_withResult _ _⟩
    · exact ⟨_, .silent _ s, reportsOnly_withResult _ _⟩
  | timerReset k => exact ⟨_, .timerReset k s h.1, h.2 ▸ reportsOnly_withResult _ _⟩
  | enableIrOut freq duty => exact ⟨_, .enableIrOut freq duty s h.1, h.2 ▸ reportsOnly_withResult _ _⟩
  | mark d => exact ⟨_, .mark d s h.1, h.2 ▸ reportsOnly_withResult _ _⟩
  | space d => exact ⟨_, .space d s, h ▸ reportsOnly_withResult _ _⟩
  | ledOff => exact ⟨_, .ledOff s, h ▸ reportsOnly_withResult _ _⟩
  | sendData o =>
    rcases h with rfl | ⟨hvalid, pulses, rfl⟩
    · exact ⟨_, .silent _ s, reportsOnly_withResult _ _⟩
    · exact ⟨_, .sendData o pulses s hvalid, reportsOnly_withResult _ _⟩
  | sendGeneric o =>
    obtain ⟨hfreq, pulses, rfl⟩ := h
    exact ⟨_, .sendGeneric o pulses s hfreq, reportsOnly_withResult _ _⟩
  | timerElapsed | matchTicks | matchMark | matchSpace | matchAtLeast =>
    obtain ⟨answer, rfl⟩ := h
    exact ⟨_, .silent _ s, reportsOnly_withResult _ _⟩
  | ticksLow | ticksHigh | matchData | matchGeneric | matchGenericInt | decodeHash =>
    obtain ⟨answer, rfl | rfl⟩ := h
    · exact ⟨_, .silent _ s, reportsOnly_withResult _ _⟩
    · exact ⟨_, .silent _ s, reportsOnly_withResult_spendDraw _ _⟩
  | evEdge =>
    rcases h with ⟨-, rfl⟩ | ⟨hrx, rfl⟩
    · exact ⟨_, .silent _ _, _, _, _, _, rfl⟩
    · exact ⟨_, edgeHandler_effect hrx, _, _, _, _, rfl⟩
  | evTimeout =>
    rcases h with ⟨-, rfl⟩ | ⟨hdue, rfl⟩
    · exact ⟨_, .silent _ _, _, _, _, _, rfl⟩
    · exact ⟨_, timeoutHandler_effect hdue, _, _, _, _, rfl⟩

/-- Every command and handler has its effect on the registers, and then reports. -/
theorem exec_effect {i : Instr} {s t : State} (h : exec i s = .next t) :
    ∃ u, RegisterEffect i s u ∧ ReportsOnly u t := by
  rcases exec_cases h with ⟨position, -, rfl⟩ | ⟨kind, info, -, -, rfl⟩ | ⟨-, hdone⟩
  · exact ⟨s, .silent i s, reportsOnly_refuse _ _ _⟩
  · exact ⟨s, .silent i s, reportsOnly_raiseFault _ _ _⟩
  · exact completion_effect hdone

/-! ## What a step keeps -/

/-- What a power-on establishes, and what the passing of time, the reports and the effects of the commands and
handlers keep, every step keeps. -/
theorem step_keeps {Inv : State → Prop} (hpower : ∀ s, Inv s → Inv (powerOn s))
    (hturn : ∀ s rest tau, Inv s → Inv { s with schedule := rest, tau := tau })
    (hreports : ∀ s t, Inv s → ReportsOnly s t → Inv t)
    (heffect : ∀ i s u, Inv s → RegisterEffect i s u → Inv u) {s t : State} (hs : Inv s)
    (h : step s = .next t) : Inv t := by
  rcases step_cases h with ⟨dt, rest, -, rfl⟩ | ⟨-, -, hrun⟩
  · exact hpower _ (hturn s _ _ hs)
  · rcases hrun with ⟨dt, packet, rest, kind, info, -, -, rfl⟩ | ⟨-, -, rfl⟩ | ⟨i, rest, tau, -, hexec, -⟩
    · exact hreports _ _ (hturn s _ _ hs) (reportsOnly_refuse _ _ _)
    · exact hs
    · obtain ⟨u, hu, ht⟩ := exec_effect hexec
      exact hreports _ _ (heffect _ _ _ (hturn s _ _ hs) hu) ht

end Sys2Proof.Machine
end

section
/-! SUPPORT. The capture invariants I1 to I6 (spec/10_state.md R46): what each command and handler keeps. -/

namespace Sys2Proof.Machine

/-! ## Reset -/

theorem reset_captureInv : CaptureInv State.reset where
  params_valid := by constructor <;> decide
  live_wf := rfl
  idle_empty _ := rfl
  length_le := Nat.zero_le _
  mark_nonempty := nofun
  mark_room := nofun
  overflow_stops := nofun
  sentinel_first := nofun
  disabled_disarmed _ := rfl
  armed_deadline := nofun
  save_length_le := nofun

theorem powerOn_captureInv {s : State} (h : CaptureInv s) : CaptureInv (powerOn s) :=
  { reset_captureInv with
    params_valid := h.params_valid
    length_le := Nat.zero_le _
    mark_room := nofun
    save_length_le := nofun }

/-! ## An edge that is recorded -/

/-- In IDLE the bank is empty, and in MARK it has room, so an edge that reaches step 4 of R182 finds room. -/
theorem CaptureInv.room_for_edge {s : State} (h : CaptureInv s) (hstop : s.rcvState ≠ .stop)
    (hroom : s.params.overflowOnFill = true ∨ s.rawLen.toNat < s.params.rawBufSize) :
    s.rawLen.toNat < s.params.rawBufSize := by
  rcases hroom with hmode | hroom
  · cases hs : s.rcvState with
    | idle =>
      rw [h.idle_empty hs]
      exact h.params_valid.size_pos
    | mark => exact h.mark_room hs hmode
    | stop => exact absurd hs hstop
  · exact hroom

/-- RAWLEN does not wrap: P_RAWBUF_SIZE is at most 65535. -/
theorem CaptureInv.rawLen_succ {s : State} (h : CaptureInv s) (hroom : s.rawLen.toNat < s.params.rawBufSize) :
    (s.rawLen + 1).toNat = s.rawLen.toNat + 1 := by
  have hsize := h.params_valid.size_le
  exact BitVec.toNat_add_of_lt (Nat.lt_of_le_of_lt (hroom.trans_le hsize) (by decide))

/-- The first edge writes the sentinel at index 0, and a later one writes past it. -/
theorem CaptureInv.sentinel_recordEdge {s : State} (h : CaptureInv s) (hstop : s.rcvState ≠ .stop) :
    bankRead (recordEdge s).live 0 = Config.sentinel := by
  rw [recordEdge_live, bankRead_bankWrite _ _ _ _ _ h.live_wf]
  cases hs : s.rcvState with
  | idle =>
    have hfits : trunc s.params.entryBits Config.sentinel = Config.sentinel :=
      Nat.mod_eq_of_lt (Nat.one_lt_two_pow (Nat.one_le_iff_ne_zero.1 h.params_valid.entry_pos))
    have hpos := h.params_valid.size_pos
    simp [h.idle_empty hs, hfits, Nat.lt_of_lt_of_le Nat.zero_lt_one hpos]
  | mark =>
    have hlen := (h.mark_nonempty hs).1
    rw [if_neg (by omega)]
    exact h.sentinel_first hlen
  | stop => exact absurd hs hstop

/-- OVERFLOW is clear while an edge can be recorded. -/
theorem CaptureInv.no_overflow {s : State} (h : CaptureInv s) (hstop : s.rcvState ≠ .stop) :
    s.overflow ≠ true := fun ho => hstop (h.overflow_stops ho)

theorem CaptureInv.disarm {s : State} (h : CaptureInv s) : CaptureInv (disarm s) :=
  { h with
    disabled_disarmed := fun _ => rfl
    armed_deadline := nofun }

/-- Steps 4 to 7 of R182, where the edge fills the bank. -/
theorem CaptureInv.rearm_setOverflow_recordEdge {s : State} (h : CaptureInv s) (hrx : s.rxEn = true)
    (hstop : s.rcvState ≠ .stop) (hroom : s.rawLen.toNat < s.params.rawBufSize) :
    CaptureInv (rearm (setOverflow (recordEdge s))) where
  params_valid := h.params_valid
  live_wf := bankWrite_wf _ _ _ _ h.live_wf
  idle_empty := nofun
  length_le := (h.rawLen_succ hroom).trans_le hroom
  mark_nonempty := nofun
  mark_room := nofun
  overflow_stops _ := rfl
  sentinel_first _ := h.sentinel_recordEdge hstop
  disabled_disarmed hoff := absurd (hrx.symm.trans hoff) nofun
  armed_deadline _ := rfl
  save_length_le := h.save_length_le

/-- Steps 4, 5 and 7 of R182, where the edge leaves room or P_OVERFLOW_ON_FILL is false. -/
theorem CaptureInv.rearm_recordEdge {s : State} (h : CaptureInv s) (hrx : s.rxEn = true)
    (hstop : s.rcvState ≠ .stop) (hroom : s.rawLen.toNat < s.params.rawBufSize)
    (hmore : s.params.overflowOnFill = false ∨ (s.rawLen + 1).toNat < s.params.rawBufSize) :
    CaptureInv (rearm (recordEdge s)) :=
  { h.rearm_setOverflow_recordEdge hrx hstop hroom with
    idle_empty := nofun
    mark_nonempty := fun _ => ⟨(Nat.le_add_left 1 _).trans_eq (h.rawLen_succ hroom).symm, rfl⟩
    mark_room := fun _ (hmode : s.params.overflowOnFill = true) => hmore.resolve_left (by simp [hmode])
    overflow_stops := fun ho => absurd ho (h.no_overflow hstop) }

/-! ## The other writers -/

theorem CaptureInv.setOverflow {s : State} (h : CaptureInv s) : CaptureInv (setOverflow s) :=
  { h with
    idle_empty := nofun
    mark_nonempty := nofun
    mark_room := nofun
    overflow_stops := fun _ => rfl }

theorem CaptureInv.stop {s : State} (h : CaptureInv s) : CaptureInv { s with rcvState := .stop } :=
  { h with
    idle_empty := nofun
    mark_nonempty := nofun
    mark_room := nofun
    overflow_stops := fun _ => rfl }

theorem CaptureInv.resumeCapture {s : State} (h : CaptureInv s) : CaptureInv (resumeCapture s) :=
  { h with
    idle_empty := fun _ => rfl
    length_le := Nat.zero_le _
    mark_nonempty := nofun
    mark_room := nofun
    overflow_stops := nofun
    sentinel_first := nofun }

theorem CaptureInv.copyAndResume {s : State} (h : CaptureInv s) : CaptureInv (copyAndResume s) :=
  { h.resumeCapture with save_length_le := fun _ => h.length_le }

theorem CaptureInv.effect {i : Instr} {s u : State} (h : CaptureInv s) (he : RegisterEffect i s u) :
    CaptureInv u := by
  cases he with
  | silent => exact h
  | rxEnable =>
    exact { h.resumeCapture.disarm with disabled_disarmed := fun _ => rfl }
  | rxDisable => exact { h.disarm with disabled_disarmed := fun _ => rfl }
  | resume => exact h.resumeCapture
  | copy => exact h.copyAndResume
  | timerReset | enableIrOut | mark | space | ledOff | sendData | sendGeneric => exact { h with }
  | edgeAtFullBank => exact h.disarm.setOverflow
  | edgeHeld => exact h.disarm
  | edgeFills _ hrx hstop hroom =>
    exact h.disarm.rearm_setOverflow_recordEdge hrx hstop (h.room_for_edge hstop hroom)
  | edgeRecorded _ hrx hstop hroom hmore =>
    exact h.disarm.rearm_recordEdge hrx hstop (h.room_for_edge hstop hroom) hmore
  | timeoutEmpty => exact h.disarm
  | timeoutStops => exact h.disarm.stop

theorem CaptureInv.reports {s t : State} (h : CaptureInv s) (hr : ReportsOnly s t) : CaptureInv t := by
  obtain ⟨fault, refused, results, draws, rfl⟩ := hr
  exact { h with }

/-- Settles O30: by `step_keeps`, with the four ways of the edge handler as the hard cases. -/
theorem stepKeepsCaptureInvariants : Obligations.StepKeepsCaptureInvariants := fun _ _ =>
  step_keeps (Inv := CaptureInv) (fun _ => powerOn_captureInv) (fun _ _ _ h => { h with })
    (fun _ _ => CaptureInv.reports) (fun _ _ _ => CaptureInv.effect)

end Sys2Proof.Machine
end

section
/-! SUPPORT. The carrier registers, the pin and the waveform (spec/10_state.md R41 to R43, 42_carrier_driver.md
R147): what each command and handler keeps. -/

namespace Sys2Proof.Machine

/-! ## The invariants of the driver -/

theorem reset_driverInv : DriverInv State.reset where
  on_off := nofun
  period_pos := nofun
  duty_le := nofun
  pin_low := rfl
  segments_pos := nofun
  low_merged := List.isChain_nil

theorem powerOn_driverInv (s : State) : DriverInv (powerOn s) := { reset_driverInv with }

theorem carrierPeriod_pos (hz : Nat) : 1 ≤ carrierPeriod hz := le_max_left _ _

/-- A period fits its 32-bit register, whatever the frequency. -/
theorem carrierPeriod_lt (hz : Nat) : carrierPeriod hz < 2 ^ 32 := by
  have hround : (2 * 1000000 + hz) / (2 * hz) ≤ 2 * 1000000 + 1 := by
    rcases Nat.eq_zero_or_pos hz with rfl | hpos
    · simp
    · exact Nat.div_le_of_le_mul (by nlinarith)
  exact max_lt (by decide) (Nat.lt_of_le_of_lt hround (by decide))

/-- The HIGH part of a cycle is no longer than the cycle, since the duty is at most 100. -/
theorem carrierOn_le (period : Nat) {dc : Nat} (hdc : dc ≤ 100) : carrierOn period dc ≤ period :=
  Nat.div_le_of_le_mul (by rw [Nat.mul_comm]; exact Nat.mul_le_mul_right period hdc)

/-! Each register that ENABLE_IR_OUT writes holds its value uncut. -/

theorem configureCarrier_duty_toNat (freq : U32) (duty : Byte) (s : State) :
    (configureCarrier freq duty s).duty.toNat = min duty.toNat 100 :=
  Nat.mod_eq_of_lt ((min_le_right _ _).trans_lt (by decide))

theorem configureCarrier_periodUs_toNat (freq : U32) (duty : Byte) (s : State) :
    (configureCarrier freq duty s).periodUs.toNat = carrierPeriod (carrierHzOf freq.toNat) :=
  Nat.mod_eq_of_lt (carrierPeriod_lt _)

theorem configureCarrier_onUs_toNat (freq : U32) (duty : Byte) (s : State) :
    (configureCarrier freq duty s).onUs.toNat =
      carrierOn (carrierPeriod (carrierHzOf freq.toNat)) (min duty.toNat 100) :=
  Nat.mod_eq_of_lt ((carrierOn_le _ (min_le_right _ _)).trans_lt (carrierPeriod_lt _))

theorem configureCarrier_offUs_toNat (freq : U32) (duty : Byte) (s : State) :
    (configureCarrier freq duty s).offUs.toNat = carrierPeriod (carrierHzOf freq.toNat) -
      carrierOn (carrierPeriod (carrierHzOf freq.toNat)) (min duty.toNat 100) :=
  Nat.mod_eq_of_lt ((Nat.sub_le _ _).trans_lt (carrierPeriod_lt _))

theorem DriverInv.configureCarrier {s : State} (h : DriverInv s) (freq : U32) (duty : Byte) :
    DriverInv (configureCarrier freq duty s) := by
  refine { h with on_off := fun _ => ?_, period_pos := fun _ => ?_, duty_le := fun _ => ?_ }
  · rw [configureCarrier_onUs_toNat, configureCarrier_offUs_toNat, configureCarrier_periodUs_toNat]
    exact Nat.add_sub_cancel' (carrierOn_le _ (min_le_right _ _))
  · rw [configureCarrier_periodUs_toNat]
    exact carrierPeriod_pos _
  · rw [configureCarrier_duty_toNat]
    exact min_le_right _ _

theorem DriverInv.sendEnvelope {s : State} (h : DriverInv s) (pulses : List Pulse) :
    DriverInv (sendEnvelope pulses s) := by
  obtain ⟨hpos, hmerged⟩ := play_canonical s.onUs.toNat s.offUs.toNat pulses ⟨s.outWave, 0⟩
    ⟨h.segments_pos, h.low_merged⟩
  exact { h with pin_low := rfl, segments_pos := hpos, low_merged := hmerged }

theorem DriverInv.effect {i : Instr} {s u : State} (h : DriverInv s) (he : RegisterEffect i s u) :
    DriverInv u := by
  cases he with
  | enableIrOut => exact h.configureCarrier _ _
  | mark | space | sendData => exact h.sendEnvelope _
  | sendGeneric => exact (h.configureCarrier _ _).sendEnvelope _
  | ledOff => exact { h with pin_low := rfl }
  | _ => exact { h with }

theorem DriverInv.reports {s t : State} (h : DriverInv s) (hr : ReportsOnly s t) : DriverInv t := by
  obtain ⟨fault, refused, results, draws, rfl⟩ := hr
  exact { h with }

/-- Settles O32: by `step_keeps`, from what configuring the carrier and playing an envelope keep. -/
theorem stepKeepsDriverInvariants : Obligations.StepKeepsDriverInvariants := fun _ _ =>
  step_keeps (Inv := DriverInv) (fun s _ => powerOn_driverInv s) (fun _ _ _ h => { h with })
    (fun _ _ => DriverInv.reports) (fun _ _ _ => DriverInv.effect)

/-! ## The waveform is append-only -/

/-- A command or handler leaves OUT_WAVE alone or plays an envelope after it. -/
theorem RegisterEffect.sentFrom {i : Instr} {s u : State} (he : RegisterEffect i s u) :
    ∃ o, SentFrom s.outWave o ∧ u.outWave = o.wave := by
  cases he with
  | mark | space | sendData => exact ⟨_, sentFrom_sendEnvelope _ s, rfl⟩
  | sendGeneric o => exact ⟨_, sentFrom_sendEnvelope _ (configureCarrier o.freq o.duty s), rfl⟩
  | _ => exact ⟨_, sentFrom_start s.outWave, rfl⟩

/-- Settles O44: from `SentFrom`, what a command makes of the waveform it found. -/
theorem waveformIsAppendOnly : Obligations.WaveformIsAppendOnly := by
  intro i s t h
  obtain ⟨u, heffect, fault, refused, results, draws, rfl⟩ := exec_effect h
  obtain ⟨o, hsent, hwave⟩ := heffect.sentFrom
  rcases hsent with ⟨hnil, halt⟩ | ⟨last, older, added, more, hcons, hsplit, hhigh, hlow, -⟩
  · refine ⟨fun _ => hwave ▸ halt, fun last older hcons => ?_⟩
    rw [hnil] at hcons
    cases hcons
  · refine ⟨fun hnil => ?_, fun last' older' hcons' => ?_⟩
    · rw [hnil] at hcons
      cases hcons
    · obtain ⟨rfl, rfl⟩ := List.cons.inj (hcons.symm.trans hcons')
      exact ⟨added, more, hwave.trans hsplit, fun hl => ⟨(hhigh hl).1, (hhigh hl).2.1⟩, hlow⟩

end Sys2Proof.Machine
end

section
/-! SUPPORT. What only certain steps can do (spec/10_state.md R32 to R52): leave a stop, change the time, change a
held capture, write a register; and the state after reset. -/

namespace Sys2Proof.Machine

/-! ## Stops and power-on -/

/-- A quiescent machine takes no step but a power-on. -/
theorem step_of_halted {s : State} {f : Fault} (hf : haltedBy s = some f)
    (hpower : ∀ dt rest, s.schedule ≠ ⟨dt, .powerOn⟩ :: rest) : step s = .fault f := by
  unfold step nextAction
  cases hs : s.schedule with
  | nil => simp [hf]
  | cons turn rest =>
    obtain ⟨dt, source⟩ := turn
    cases source with
    | powerOn => exact absurd hs (hpower dt rest)
    | command packet => simp [hf]
    | edge => simp [hf]
    | timeout => simp [hf]

/-- A power-on turn is always taken. -/
theorem step_powerOn {s : State} {dt : Nat} {rest : List Turn} (hs : s.schedule = ⟨dt, .powerOn⟩ :: rest) :
    step s = .next (powerOn (atTurn ⟨dt, .powerOn⟩ rest s)) := by
  simp [step, nextAction, hs]

/-- Settles O10: a stopped machine is halted, and `powerOn` writes the reset values. -/
theorem onlyPowerOnLeavesAStop : Obligations.OnlyPowerOnLeavesAStop := by
  refine fun s => ⟨fun r hfault => step_of_halted ?_, fun r hfault hrefused => step_of_halted ?_,
    fun dt rest hs => ⟨_, step_powerOn hs, ?_⟩⟩
  · simp [haltedBy, hfault]
  · simp [haltedBy, hfault, hrefused]
  · exact ⟨rfl, rfl, rfl, rfl, rfl, rfl, rfl, rfl, rfl, rfl, rfl, fun _ => rfl, rfl, rfl⟩

/-! ## Time -/

/-- No command or handler writes real time, the clock's offset or the parameters. -/
theorem RegisterEffect.keeps_time {i : Instr} {s u : State} (he : RegisterEffect i s u) :
    u.tau = s.tau ∧ u.clockOffset = s.clockOffset ∧ u.params = s.params := by
  cases he <;> exact ⟨rfl, rfl, rfl⟩

theorem exec_keeps_time {i : Instr} {s t : State} (h : exec i s = .next t) :
    t.tau = s.tau ∧ t.clockOffset = s.clockOffset ∧ t.params = s.params := by
  obtain ⟨u, heffect, fault, refused, results, draws, rfl⟩ := exec_effect h
  exact heffect.keeps_time

/-- Settles O12: a turn only adds to real time (`step_cases`), and no effect writes it. -/
theorem timeOnlyAdvances : Obligations.TimeOnlyAdvances := by
  refine ⟨fun s t h => ?_, fun i s t h => ?_⟩
  · rcases step_cases h with ⟨dt, rest, -, rfl⟩ | ⟨-, -, hrun⟩
    · exact Nat.le_add_right s.tau dt
    · rcases hrun with ⟨dt, packet, rest, kind, info, -, -, rfl⟩ | ⟨-, -, rfl⟩ | ⟨i, rest, tau, hle, hexec, -⟩
      · exact (Nat.le_add_right s.tau dt).trans (le_max_left _ _)
      · exact le_rfl
      · exact hle.trans_eq (exec_keeps_time hexec).1.symm
  · obtain ⟨htau, hoffset, hparams⟩ := exec_keeps_time h
    exact ⟨htau, hoffset, hparams, by rw [State.now, State.now, htau, hoffset, hparams]⟩

/-! ## A held capture -/

/-- In STOP the edge handler only disarms, and the timeout handler writes STOP again. -/
theorem RegisterEffect.keeps_stopped {i : Instr} {s u : State} (he : RegisterEffect i s u)
    (hstop : s.rcvState = .stop) (hresume : i ≠ .resume) (henable : i ≠ .rxEnable) (hcopy : i ≠ .decode 1) :
    u.rcvState = .stop ∧ u.rawLen = s.rawLen ∧ u.overflow = s.overflow ∧ u.live = s.live := by
  cases he with
  | resume => exact absurd rfl hresume
  | rxEnable => exact absurd rfl henable
  | copy => exact absurd rfl hcopy
  | edgeAtFullBank _ _ hopen => exact absurd hstop hopen
  | edgeFills _ _ hopen => exact absurd hstop hopen
  | edgeRecorded _ _ hopen => exact absurd hstop hopen
  | timeoutStops => exact ⟨rfl, rfl, rfl, rfl⟩
  | _ => exact ⟨hstop, rfl, rfl, rfl⟩

/-- Settles O24: effect by effect (`RegisterEffect.keeps_stopped`). -/
theorem stoppedCaptureIsStable : Obligations.StoppedCaptureIsStable := by
  intro i s t hstop h hresume henable hcopy
  obtain ⟨u, heffect, fault, refused, results, draws, rfl⟩ := exec_effect h
  obtain ⟨hstate, hlen, hovf, hlive⟩ := heffect.keeps_stopped hstop hresume henable hcopy
  exact ⟨hstate, hlen, hovf, fun k => congrArg (bankRead · k) hlive⟩

/-! ## The writers of each register

In each lemma the effects that may write the register are named, and every other leaves it by definition. -/

section Writers

variable {i : Instr} {s u : State} (he : RegisterEffect i s u)
include he

theorem RegisterEffect.rxEn_writers (h : u.rxEn ≠ s.rxEn) : i = .rxEnable ∨ i = .rxDisable := by
  cases he with
  | rxEnable => exact .inl rfl
  | rxDisable => exact .inr rfl
  | _ => exact absurd rfl h

theorem RegisterEffect.rcvState_writers (h : u.rcvState ≠ s.rcvState) :
    i = .evEdge ∨ i = .evTimeout ∨ i = .resume ∨ i = .rxEnable ∨ i = .decode 1 := by
  cases he with
  | edgeAtFullBank | edgeFills | edgeRecorded => exact .inl rfl
  | timeoutStops => exact .inr (.inl rfl)
  | resume => exact .inr (.inr (.inl rfl))
  | rxEnable => exact .inr (.inr (.inr (.inl rfl)))
  | copy => exact .inr (.inr (.inr (.inr rfl)))
  | _ => exact absurd rfl h

theorem RegisterEffect.rawLen_writers (h : u.rawLen ≠ s.rawLen) :
    i = .evEdge ∨ i = .resume ∨ i = .rxEnable ∨ i = .decode 1 := by
  cases he with
  | edgeFills | edgeRecorded => exact .inl rfl
  | resume => exact .inr (.inl rfl)
  | rxEnable => exact .inr (.inr (.inl rfl))
  | copy => exact .inr (.inr (.inr rfl))
  | _ => exact absurd rfl h

theorem RegisterEffect.live_writers (h : u.live ≠ s.live ∨ u.lastEdge ≠ s.lastEdge) : i = .evEdge := by
  cases he with
  | edgeFills | edgeRecorded => rfl
  | _ => simp at h

theorem RegisterEffect.toDeadline_writers (h : u.toDeadline ≠ s.toDeadline) : i = .evEdge := by
  cases he with
  | edgeFills | edgeRecorded => rfl
  | _ => exact absurd rfl h

/-- Only an edge arms the timeout; the other writers disarm it. -/
theorem RegisterEffect.arms (harmed : u.toArmed = true) (hdisarmed : s.toArmed = false) : i = .evEdge := by
  cases he with
  | edgeFills | edgeRecorded => rfl
  | rxEnable | rxDisable | edgeAtFullBank | edgeHeld | timeoutEmpty | timeoutStops => cases harmed
  | _ => exact absurd (harmed.symm.trans hdisarmed) nofun

theorem RegisterEffect.toArmed_writers (h : u.toArmed ≠ s.toArmed) :
    i = .evEdge ∨ i = .evTimeout ∨ i = .rxEnable ∨ i = .rxDisable := by
  cases he with
  | edgeAtFullBank | edgeHeld | edgeFills | edgeRecorded => exact .inl rfl
  | timeoutEmpty | timeoutStops => exact .inr (.inl rfl)
  | rxEnable => exact .inr (.inr (.inl rfl))
  | rxDisable => exact .inr (.inr (.inr rfl))
  | _ => exact absurd rfl h

/-- Only an edge sets OVERFLOW; the other writers clear it. -/
theorem RegisterEffect.sets_overflow (hset : u.overflow = true) (hclear : s.overflow = false) : i = .evEdge := by
  cases he with
  | edgeAtFullBank | edgeFills => rfl
  | rxEnable | resume | copy => cases hset
  | _ => exact absurd (hset.symm.trans hclear) nofun

theorem RegisterEffect.clears_overflow (hclear : u.overflow = false) (hset : s.overflow = true) :
    i = .resume ∨ i = .rxEnable ∨ i = .decode 1 := by
  cases he with
  | resume => exact .inl rfl
  | rxEnable => exact .inr (.inl rfl)
  | copy => exact .inr (.inr rfl)
  | edgeAtFullBank | edgeFills => cases hclear
  | _ => exact absurd (hset.symm.trans hclear) nofun

theorem RegisterEffect.save_writers
    (h : u.save ≠ s.save ∨ u.saveLen ≠ s.saveLen ∨ u.saveOvf ≠ s.saveOvf ∨ u.saveValid ≠ s.saveValid) :
    i = .decode 1 := by
  cases he with
  | copy => rfl
  | _ => simp at h

theorem RegisterEffect.carrier_writers
    (h : u.carrierHz ≠ s.carrierHz ∨ u.duty ≠ s.duty ∨ u.periodUs ≠ s.periodUs ∨ u.onUs ≠ s.onUs ∨
      u.offUs ≠ s.offUs ∨ u.carrierValid ≠ s.carrierValid) :
    (∃ freq duty, i = .enableIrOut freq duty) ∨ ∃ o, i = .sendGeneric o := by
  cases he with
  | enableIrOut freq duty => exact .inl ⟨freq, duty, rfl⟩
  | sendGeneric o => exact .inr ⟨o, rfl⟩
  | _ => simp at h

theorem RegisterEffect.keeps_carrierValid (h : s.carrierValid = true) : u.carrierValid = true := by
  cases he with
  | enableIrOut | sendGeneric => rfl
  | _ => exact h

theorem RegisterEffect.outWave_writers (h : u.outWave ≠ s.outWave ∨ u.busyUntil ≠ s.busyUntil) :
    (∃ d, i = .mark d) ∨ (∃ d, i = .space d) ∨ (∃ o, i = .sendData o) ∨ ∃ o, i = .sendGeneric o := by
  cases he with
  | mark d => exact .inl ⟨d, rfl⟩
  | space d => exact .inr (.inl ⟨d, rfl⟩)
  | sendData o => exact .inr (.inr (.inl ⟨o, rfl⟩))
  | sendGeneric o => exact .inr (.inr (.inr ⟨o, rfl⟩))
  | _ => simp at h

theorem RegisterEffect.outLevel_writers (h : u.outLevel ≠ s.outLevel) :
    i = .ledOff ∨ (∃ d, i = .mark d) ∨ (∃ d, i = .space d) ∨ (∃ o, i = .sendData o) ∨
      ∃ o, i = .sendGeneric o := by
  cases he with
  | ledOff => exact .inl rfl
  | mark d => exact .inr (.inl ⟨d, rfl⟩)
  | space d => exact .inr (.inr (.inl ⟨d, rfl⟩))
  | sendData o => exact .inr (.inr (.inr (.inl ⟨o, rfl⟩)))
  | sendGeneric o => exact .inr (.inr (.inr (.inr ⟨o, rfl⟩)))
  | _ => exact absurd rfl h

theorem RegisterEffect.stopwatch_writers (h : u.tStart ≠ s.tStart ∨ u.tSet ≠ s.tSet) :
    ∃ k, i = .timerReset k := by
  cases he with
  | timerReset k => exact ⟨k, rfl⟩
  | _ => simp at h

theorem RegisterEffect.keeps_schedule : u.schedule = s.schedule := by
  cases he <;> rfl

end Writers

/-- Settles O28: one lemma for each register's writers. -/
theorem registersHaveOnlyTheirWriters : Obligations.RegistersHaveOnlyTheirWriters := by
  intro i s t h
  obtain ⟨u, he, fault, refused, results, draws, rfl⟩ := exec_effect h
  exact ⟨he.rxEn_writers, he.rcvState_writers, he.rawLen_writers, he.live_writers, he.toDeadline_writers,
    he.arms, he.toArmed_writers, he.sets_overflow, he.clears_overflow, he.save_writers, he.carrier_writers,
    he.keeps_carrierValid, he.outWave_writers, he.outLevel_writers, he.stopwatch_writers, he.keeps_schedule⟩

/-! ## Reset -/

theorem reset_storeInv : StoreInv State.reset where
  wf := reset_memory_wf
  live_bounds := nofun
  save_bounds := nofun
  start_bounds := nofun
  set_bounds := nofun
  offset_bound := Nat.two_pow_pos _
  lastEdge_bound := Nat.two_pow_pos _

theorem reset_recordInv : RecordInv State.reset where
  fault_code := nofun
  refusal_code := nofun
  one_record := .inl rfl

/-- Settles O34: the four invariants at reset, and the values of R48 by definition. -/
theorem resetMeetsTheInvariants : Obligations.ResetMeetsTheInvariants :=
  ⟨reset_captureInv, reset_storeInv, reset_driverInv, reset_recordInv, rfl, rfl, rfl, rfl, rfl, rfl, rfl, rfl, rfl,
    fun _ => rfl, rfl, rfl⟩

end Sys2Proof.Machine
end


section
/-! SUPPORT. The indexed stores (spec/20_memory.md R70, R88, 10_state.md R36, R37, R44): what keeps them canonical
and within their bounds. -/

namespace Sys2Proof.Machine

/-! ## Bounds of a store -/

/-- A property of every cell: a written store has it if the store before and the new cell have. -/
theorem Cells.forall_mem_write {P : Nat × Nat → Prop} {b : Cells} {i v : Nat} (hb : ∀ c ∈ b, P c)
    (hnew : P (i, v)) : ∀ c ∈ b.write i v, P c := fun c hc =>
  (Cells.mem_write b i v c hc).elim (hb c) fun he => he ▸ hnew

/-- A bank within P_RAWBUF_SIZE entries of P_ENTRY_BITS bits (20_memory.md R70), as `StoreInv` asks of LIVE and
SAVE. -/
def BankInBounds (p : Params) (b : Cells) : Prop := ∀ c ∈ b, c.1 < p.rawBufSize ∧ c.2 < 2 ^ p.entryBits

theorem BankInBounds.bankWrite {p : Params} {b : Cells} (h : BankInBounds p b) (i v : Nat) :
    BankInBounds p (bankWrite p b i v) := fun c hc => by
  rcases mem_bankWrite p b i v c hc with hold | ⟨rfl, hi⟩
  · exact h c hold
  · exact ⟨hi, trunc_lt _ _⟩

/-- The copy writes within the bounds whatever its source holds. -/
theorem BankInBounds.bankCopy {p : Params} {dst : Cells} (h : BankInBounds p dst) (src : Cells) (n : Nat) :
    BankInBounds p (bankCopy p src n dst) := fun c hc => by
  rcases mem_bankCopy p src n dst c hc with hold | ⟨hi, hv⟩
  · exact h c hold
  · exact ⟨hi, hv ▸ trunc_lt _ _⟩

theorem memory_wf_iff (s : State) :
    Memory.wf s = true ↔ s.live.wf = true ∧ s.save.wf = true ∧ s.tStart.wf = true ∧ s.tSet.wf = true := by
  simp [Memory.wf, and_assoc]

/-! ## The writers of the stores -/

theorem powerOn_storeInv (s : State) : StoreInv (powerOn s) where
  wf := rfl
  live_bounds := nofun
  save_bounds := nofun
  start_bounds := nofun
  set_bounds := nofun
  offset_bound := trunc_lt _ _
  lastEdge_bound := Nat.two_pow_pos _

/-- An edge writes one entry of LIVE and takes the clock into LAST_EDGE. -/
theorem StoreInv.recordEdge {s : State} (h : StoreInv s) : StoreInv (recordEdge s) :=
  have ⟨hlive, hsave, hstart, hset⟩ := (memory_wf_iff s).1 h.wf
  { h with
    wf := (memory_wf_iff _).2 ⟨bankWrite_wf _ _ _ _ hlive, hsave, hstart, hset⟩
    live_bounds := BankInBounds.bankWrite h.live_bounds _ _
    lastEdge_bound := now_lt s }

/-- DECODE with save = 1 writes SAVE alone. -/
theorem StoreInv.copyAndResume {s : State} (h : StoreInv s) : StoreInv (copyAndResume s) :=
  have ⟨hlive, hsave, hstart, hset⟩ := (memory_wf_iff s).1 h.wf
  { h with
    wf := (memory_wf_iff _).2 ⟨hlive, bankCopy_wf _ _ _ _ hsave, hstart, hset⟩
    save_bounds := BankInBounds.bankCopy h.save_bounds _ _ }

/-- TIMER_RESET of a stopwatch that there is writes its TSTART and TSET. -/
theorem StoreInv.resetStopwatch {s : State} (h : StoreInv s) {k : Nat} (hk : k < s.params.numTimers) :
    StoreInv { s with tStart := s.tStart.write k s.now, tSet := s.tSet.write k 1 } :=
  have ⟨hlive, hsave, hstart, hset⟩ := (memory_wf_iff s).1 h.wf
  { h with
    wf := (memory_wf_iff _).2 ⟨hlive, hsave, Cells.write_wf _ _ _ hstart, Cells.write_wf _ _ _ hset⟩
    start_bounds := Cells.forall_mem_write h.start_bounds ⟨hk, now_lt s⟩
    set_bounds := Cells.forall_mem_write h.set_bounds ⟨hk, rfl⟩ }

theorem StoreInv.effect {i : Instr} {s u : State} (h : StoreInv s) (he : RegisterEffect i s u) : StoreInv u := by
  cases he with
  | edgeFills | edgeRecorded => exact { StoreInv.recordEdge (s := disarm s) { h with } with }
  | copy => exact h.copyAndResume
  | timerReset k _ hk => exact h.resetStopwatch hk
  | silent | rxEnable | rxDisable | resume | enableIrOut | mark | space | ledOff | sendData | sendGeneric
  | edgeAtFullBank | edgeHeld | timeoutEmpty | timeoutStops => exact { h with }

theorem StoreInv.reports {s t : State} (h : StoreInv s) (hr : ReportsOnly s t) : StoreInv t := by
  obtain ⟨fault, refused, results, draws, rfl⟩ := hr
  exact { h with }

/-- Settles O31: by `step_keeps`; an edge, a copy and a stopwatch reset are the only writers of a store. -/
theorem stepKeepsStoresInBounds : Obligations.StepKeepsStoresInBounds := fun _ _ =>
  step_keeps (Inv := StoreInv) (fun s _ => powerOn_storeInv s) (fun _ _ _ h => { h with })
    (fun _ _ => StoreInv.reports) (fun _ _ _ => StoreInv.effect)

end Sys2Proof.Machine
end

section
/-! SUPPORT. Reading a bank (spec/20_memory.md R75, 60_exceptions.md R270, R274): a view command's fault comes
before anything else. -/

namespace Sys2Proof.Machine

/-! ## A bank that may not be read -/

theorem view_live_busy {s : State} (h : s.rcvState ≠ .stop) :
    view 0 s = .error (.liveBufferBusy, s.rcvState.code) := by
  simp [view, h]

theorem view_save_empty {s : State} (h : s.saveValid = false) : view 1 s = .error (.saveBufferEmpty, 0) := by
  simp [view, h]

/-- A legal command on a bank that may not be read takes the view's fault, whatever it would have done. -/
theorem accept_withView_of_error {i : Instr} {bank : Byte} {s : State} {kind : FaultKind} {info : Nat}
    {body : List Nat → Outcome} (hwf : i.wf s.params.numTimers = true)
    (hview : view bank s = .error (kind, info)) :
    accept i s (withView bank s body) = .next (raiseFault kind info s) := by
  rw [accept_of_wf i s _ hwf, withView, hview]

/-- `i` is one of the four commands that read the bank `bank` (20_memory.md R75). -/
def ReadsBank (i : Instr) (bank : Byte) : Prop :=
  (∃ o, i = .matchData o ∧ o.bank = bank) ∨ (∃ o, i = .matchGeneric o ∧ o.bank = bank) ∨
    (∃ o, i = .matchGenericInt o ∧ o.bank = bank) ∨ i = .decodeHash bank

theorem ReadsBank.exec_of_view_error {i : Instr} {bank : Byte} {s : State} {kind : FaultKind} {info : Nat}
    (hi : ReadsBank i bank) (hwf : i.wf s.params.numTimers = true)
    (hview : view bank s = .error (kind, info)) : exec i s = .next (raiseFault kind info s) := by
  rcases hi with ⟨o, rfl, rfl⟩ | ⟨o, rfl, rfl⟩ | ⟨o, rfl, rfl⟩ | rfl <;>
    exact accept_withView_of_error hwf hview

/-- Settles O52: in each of the three cases `view` answers the fault, and the command takes it. -/
theorem viewsFault : Obligations.ViewsFault := by
  intro s i bank hwf hi
  have busy (hbank : bank = 0) (hs : s.rcvState ≠ .stop) :
      exec i s = .next (raiseFault .liveBufferBusy s.rcvState.code s) :=
    ReadsBank.exec_of_view_error hi hwf (hbank ▸ view_live_busy hs)
  refine ⟨fun hbank hidle => ?_, fun hbank hmark => ?_, fun hbank hempty => ?_⟩
  · have := busy hbank (by simp [hidle])
    rwa [hidle] at this
  · have := busy hbank (by simp [hmark])
    rwa [hmark] at this
  · exact ReadsBank.exec_of_view_error hi hwf (hbank ▸ view_save_empty hempty)

end Sys2Proof.Machine
end

section
/-! SUPPORT. The step of a running machine (spec/20_memory.md R83), turn by turn: which action its schedule
brings. -/

namespace Sys2Proof.Machine

section Running
variable {s : State} (hrun : s.Running) {dt : Nat} {rest : List Turn}
include hrun

theorem State.Running.not_halted : haltedBy s = none := (haltedBy_eq_none_iff s).2 hrun

theorem nextAction_command {packet : List Byte} (hs : s.schedule = ⟨dt, .command packet⟩ :: rest) :
    nextAction s = portAction packet { s with schedule := rest, tau := max (s.tau + dt) s.busyUntil } := by
  simp only [nextAction, hs, hrun.not_halted, atTurn]

theorem nextAction_edge (hs : s.schedule = ⟨dt, .edge⟩ :: rest) :
    nextAction s = .run .evEdge { s with schedule := rest, tau := s.tau + dt } := by
  simp only [nextAction, hs, hrun.not_halted, atTurn]

theorem nextAction_timeout (hs : s.schedule = ⟨dt, .timeout⟩ :: rest) :
    nextAction s = .run .evTimeout { s with schedule := rest, tau := s.tau + dt } := by
  simp only [nextAction, hs, hrun.not_halted, atTurn]

theorem nextAction_idle (hs : s.schedule = []) : nextAction s = idleAction s := by
  simp only [nextAction, hs, hrun.not_halted]

end Running

theorem portAction_instr {packet : List Byte} {i : Instr} (hd : decode packet = .instr i)
    (hi : i.isEvent = false) (s : State) : portAction packet s = .run i s := by
  simp [portAction, hd, hi]

theorem idleAction_armed {s : State} (h : s.toArmed = true) :
    idleAction s = .run .evTimeout { s with tau := max s.tau s.toDeadline } := if_pos h

theorem idleAction_disarmed {s : State} (h : s.toArmed = false) : idleAction s = .settle s :=
  if_neg (Bool.eq_false_iff.1 h)

theorem step_of_run {s t : State} {i : Instr} (h : nextAction s = .run i t) : step s = exec i t := by
  rw [step, h]

theorem step_of_settle {s t : State} (h : nextAction s = .settle t) : step s = .next t := by
  rw [step, h]

/-- Settles O5: the action of each of the five kinds of turn, and then the step that it makes. -/
theorem stepRunsTheDecodedInstruction : Obligations.StepRunsTheDecodedInstruction := by
  intro s hrun
  refine ⟨fun dt packet rest i hs hd hi => ?_, fun dt rest hs => ?_, fun dt rest hs => ?_,
    fun hs harmed => ?_, fun hs hdisarmed => ?_⟩
  · exact step_of_run ((nextAction_command hrun hs).trans (portAction_instr hd hi _))
  · exact step_of_run (nextAction_edge hrun hs)
  · exact step_of_run (nextAction_timeout hrun hs)
  · exact step_of_run ((nextAction_idle hrun hs).trans (idleAction_armed harmed))
  · exact step_of_settle ((nextAction_idle hrun hs).trans (idleAction_disarmed hdisarmed))

end Sys2Proof.Machine
end

section
/-! SUPPORT. The decoder and the encoder, each the other's inverse (spec/30_encoding.md R103, R104, R107, R111):
what the reader of each field and of each operand list answers on, and from that the opcode map. -/

namespace Sys2Proof

/-! ## Fields: a reader answers on the bytes of its field, and on nothing else -/

@[simp] theorem read8_eq_some_iff {bs r : List Byte} {b : Byte} : read8 bs = some (b, r) ↔ bs = b :: r :=
  ⟨eq_of_read8, fun h => h ▸ rfl⟩

@[simp] theorem read16_eq_some_iff {bs r : List Byte} {w : U16} : read16 bs = some (w, r) ↔ bs = le16 w ++ r :=
  ⟨eq_of_read16, fun h => h ▸ read16_le16 w r⟩

@[simp] theorem read32_eq_some_iff {bs r : List Byte} {w : U32} : read32 bs = some (w, r) ↔ bs = le32 w ++ r :=
  ⟨eq_of_read32, fun h => h ▸ read32_le32 w r⟩

@[simp] theorem read64_eq_some_iff {bs r : List Byte} {w : U64} : read64 bs = some (w, r) ↔ bs = le64 w ++ r :=
  ⟨eq_of_read64, fun h => h ▸ read64_le64 w r⟩

@[simp] theorem readTimings_eq_some_iff {bs r : List Byte} {t : BitTimings} :
    readTimings bs = some (t, r) ↔ bs = leTimings t ++ r :=
  ⟨eq_of_readTimings, fun h => h ▸ readTimings_leTimings t r⟩

@[simp] theorem finish_eq_some_iff {α : Type} {x y : α} {bs : List Byte} :
    finish x bs = some y ↔ bs = [] ∧ x = y :=
  ⟨eq_of_finish, fun ⟨hbs, hx⟩ => hbs ▸ hx ▸ rfl⟩

/-! ## Operand lists: the fields in the order of R103, and no byte after the last -/

theorem SendDataOps.exists {p : SendDataOps → Prop} :
    (∃ o, p o) ↔ ∃ timings data nbits msbFirst, p ⟨timings, data, nbits, msbFirst⟩ :=
  ⟨fun ⟨⟨_, _, _, _⟩, h⟩ => ⟨_, _, _, _, h⟩, fun ⟨_, _, _, _, h⟩ => ⟨_, h⟩⟩

theorem SendGenericOps.exists {p : SendGenericOps → Prop} :
    (∃ o, p o) ↔ ∃ hdrMark hdrSpace timings footerMark gap freq duty msbFirst repeats nbytes bytes,
      p ⟨hdrMark, hdrSpace, timings, footerMark, gap, freq, duty, msbFirst, repeats, nbytes, bytes⟩ :=
  ⟨fun ⟨⟨_, _, _, _, _, _, _, _, _, _, _⟩, h⟩ => ⟨_, _, _, _, _, _, _, _, _, _, _, h⟩,
    fun ⟨_, _, _, _, _, _, _, _, _, _, _, h⟩ => ⟨_, h⟩⟩

theorem MatchDataOps.exists {p : MatchDataOps → Prop} :
    (∃ o, p o) ↔ ∃ bank offset nbits timings tol excess msbFirst,
      p ⟨bank, offset, nbits, timings, tol, excess, msbFirst⟩ :=
  ⟨fun ⟨⟨_, _, _, _, _, _, _⟩, h⟩ => ⟨_, _, _, _, _, _, _, h⟩, fun ⟨_, _, _, _, _, _, _, h⟩ => ⟨_, h⟩⟩

section Readers
variable {bs : List Byte} {i : Instr}

theorem readOneByte_eq_some_iff {f : Byte → Instr} : readOneByte f bs = some i ↔ ∃ b, bs = [b] ∧ f b = i := by
  simp [readOneByte, Option.bind_eq_some_iff]

theorem readEnableIrOut_eq_some_iff :
    readEnableIrOut bs = some i ↔ ∃ freq duty, bs = le32 freq ++ [duty] ∧ .enableIrOut freq duty = i := by
  simp [readEnableIrOut, Option.bind_eq_some_iff]

theorem readDuration_eq_some_iff {f : U32 → Instr} : readDuration f bs = some i ↔ ∃ d, bs = le32 d ∧ f d = i := by
  simp [readDuration, Option.bind_eq_some_iff]

theorem readSendData_eq_some_iff :
    readSendData bs = some i ↔ ∃ o, bs = Instr.operandBytes (.sendData o) ∧ .sendData o = i := by
  simp [readSendData, Option.bind_eq_some_iff, Instr.operandBytes, SendDataOps.exists]

theorem readSendGeneric_eq_some_iff :
    readSendGeneric bs = some i ↔ ∃ o, bs = Instr.operandBytes (.sendGeneric o) ∧ .sendGeneric o = i := by
  simp [readSendGeneric, Option.bind_eq_some_iff, Instr.operandBytes, SendGenericOps.exists]

theorem readTicks_eq_some_iff {f : S64 → Byte → Instr} :
    readTicks f bs = some i ↔ ∃ usecs tol, bs = le64 usecs ++ [tol] ∧ f usecs tol = i := by
  simp [readTicks, Option.bind_eq_some_iff]

theorem readMatchTicks_eq_some_iff :
    readMatchTicks bs = some i ↔ ∃ measured desired tol,
      bs = le32 measured ++ (le32 desired ++ [tol]) ∧ .matchTicks measured desired tol = i := by
  simp [readMatchTicks, Option.bind_eq_some_iff]

theorem readMatch_eq_some_iff {f : U32 → U32 → Byte → S16 → Instr} :
    readMatch f bs = some i ↔ ∃ measured desired tol excess,
      bs = le32 measured ++ (le32 desired ++ (tol :: le16 excess)) ∧ f measured desired tol excess = i := by
  simp [readMatch, Option.bind_eq_some_iff]

theorem readMatchData_eq_some_iff :
    readMatchData bs = some i ↔ ∃ o, bs = Instr.operandBytes (.matchData o) ∧ .matchData o = i := by
  simp [readMatchData, Option.bind_eq_some_iff, Instr.operandBytes, MatchDataOps.exists]

theorem readSection_eq_some_iff {f : SectionOps → Instr} :
    readSection f bs = some i ↔ ∃ o, bs = leSection o ∧ f o = i := by
  constructor
  · intro h
    obtain ⟨o, hi, hbs⟩ := eq_of_readSection h
    exact ⟨o, hbs, hi.symm⟩
  · rintro ⟨o, rfl, rfl⟩
    exact readSection_leSection f o

end Readers

/-! ## The opcode map -/

/-- The reader of an opcode answers with a command of that opcode, from that command's operand bytes. The cases
`h_1` to `h_25` are the opcodes in the order of the map, grouped by the shape of their operands. -/
theorem operandReader_sound {n : Nat} {reader : List Byte → Option Instr} {bs : List Byte} {i : Instr}
    (hn : operandReader n = some reader) (h : reader bs = some i) : n = i.opcode.toNat ∧ bs = i.operandBytes := by
  unfold operandReader at hn
  split at hn
  case h_26 => cases hn
  all_goals obtain rfl := Option.some.inj hn
  case h_1 | h_2 | h_3 | h_4 | h_11 | h_24 | h_25 =>
    obtain ⟨rfl, rfl⟩ := finish_eq_some_iff.1 h
    exact ⟨rfl, rfl⟩
  case h_5 | h_6 | h_7 | h_23 =>
    obtain ⟨b, rfl, rfl⟩ := readOneByte_eq_some_iff.1 h
    exact ⟨rfl, rfl⟩
  case h_8 =>
    obtain ⟨freq, duty, rfl, rfl⟩ := readEnableIrOut_eq_some_iff.1 h
    exact ⟨rfl, rfl⟩
  case h_9 | h_10 =>
    obtain ⟨d, rfl, rfl⟩ := readDuration_eq_some_iff.1 h
    exact ⟨rfl, rfl⟩
  case h_12 =>
    obtain ⟨o, rfl, rfl⟩ := readSendData_eq_some_iff.1 h
    exact ⟨rfl, rfl⟩
  case h_13 =>
    obtain ⟨o, rfl, rfl⟩ := readSendGeneric_eq_some_iff.1 h
    exact ⟨rfl, rfl⟩
  case h_14 | h_15 =>
    obtain ⟨usecs, tol, rfl, rfl⟩ := readTicks_eq_some_iff.1 h
    exact ⟨rfl, rfl⟩
  case h_16 =>
    obtain ⟨measured, desired, tol, rfl, rfl⟩ := readMatchTicks_eq_some_iff.1 h
    exact ⟨rfl, rfl⟩
  case h_17 | h_18 | h_19 =>
    obtain ⟨measured, desired, tol, excess, rfl, rfl⟩ := readMatch_eq_some_iff.1 h
    exact ⟨rfl, rfl⟩
  case h_20 =>
    obtain ⟨o, rfl, rfl⟩ := readMatchData_eq_some_iff.1 h
    exact ⟨rfl, rfl⟩
  case h_21 | h_22 =>
    obtain ⟨o, rfl, rfl⟩ := readSection_eq_some_iff.1 h
    exact ⟨rfl, rfl⟩

/-- Every command's opcode is in the map, and its reader reads the command's operand bytes back. -/
theorem operandReader_complete (i : Instr) :
    ∃ reader, operandReader i.opcode.toNat = some reader ∧ reader i.operandBytes = some i := by
  cases i with
  | rxEnable | rxDisable | resume | rxStatus | ledOff | evEdge | evTimeout => exact ⟨_, rfl, rfl⟩
  | decode | timerReset | timerElapsed | decodeHash =>
    exact ⟨_, rfl, readOneByte_eq_some_iff.2 ⟨_, rfl, rfl⟩⟩
  | enableIrOut => exact ⟨_, rfl, readEnableIrOut_eq_some_iff.2 ⟨_, _, rfl, rfl⟩⟩
  | mark | space => exact ⟨_, rfl, readDuration_eq_some_iff.2 ⟨_, rfl, rfl⟩⟩
  | sendData => exact ⟨_, rfl, readSendData_eq_some_iff.2 ⟨_, rfl, rfl⟩⟩
  | sendGeneric => exact ⟨_, rfl, readSendGeneric_eq_some_iff.2 ⟨_, rfl, rfl⟩⟩
  | ticksLow | ticksHigh => exact ⟨_, rfl, readTicks_eq_some_iff.2 ⟨_, _, rfl, rfl⟩⟩
  | matchTicks => exact ⟨_, rfl, readMatchTicks_eq_some_iff.2 ⟨_, _, _, rfl, rfl⟩⟩
  | matchMark | matchSpace | matchAtLeast =>
    exact ⟨_, rfl, readMatch_eq_some_iff.2 ⟨_, _, _, _, rfl, rfl⟩⟩
  | matchData => exact ⟨_, rfl, readMatchData_eq_some_iff.2 ⟨_, rfl, rfl⟩⟩
  | matchGeneric | matchGenericInt => exact ⟨_, rfl, readSection_eq_some_iff.2 ⟨_, rfl, rfl⟩⟩

theorem decode_cons_eq_instr_iff {op : Byte} {operands : List Byte} {i : Instr} :
    decode (op :: operands) = .instr i ↔
      ∃ reader, operandReader op.toNat = some reader ∧ reader operands = some i := by
  cases hreader : operandReader op.toNat with
  | none => simp [decode, hreader]
  | some reader => cases hread : reader operands <;> simp [decode, hreader, hread]

/-- An opcode is unknown exactly when the map has no reader for it, whatever bytes follow. -/
theorem decode_cons_eq_unknownOpcode_iff {op : Byte} {operands : List Byte} :
    decode (op :: operands) = .unknownOpcode op ↔ operandReader op.toNat = none := by
  cases hreader : operandReader op.toNat with
  | none => simp [decode, hreader]
  | some reader => cases hread : reader operands <;> simp [decode, hreader, hread]

/-- A packet decodes to a command exactly when it is that command's serialisation. -/
theorem decode_eq_instr_iff {packet : List Byte} {i : Instr} : decode packet = .instr i ↔ encode i = packet := by
  constructor
  · intro h
    cases packet with
    | nil => cases h
    | cons op operands =>
      obtain ⟨reader, hreader, hread⟩ := decode_cons_eq_instr_iff.1 h
      obtain ⟨hop, hoperands⟩ := operandReader_sound hreader hread
      rw [encode, BitVec.eq_of_toNat_eq hop, hoperands]
  · rintro rfl
    exact decode_cons_eq_instr_iff.2 (operandReader_complete i)

/-- Settles O1: a command's serialisation is a packet that decodes to it (`decode_eq_instr_iff`). -/
theorem decodeOfEncode : Obligations.DecodeOfEncode := fun _ => decode_eq_instr_iff.2 rfl

/-- Settles O2: the other direction of `decode_eq_instr_iff`. -/
theorem encodeOfDecode : Obligations.EncodeOfDecode := fun _ _ => decode_eq_instr_iff.1

/-- Settles O4: each word is its command's serialisation. -/
theorem specWordsDecode : Obligations.SpecWordsDecode := by
  refine ⟨?_, ?_, ?_, ?_, ?_, ?_⟩ <;> exact decode_eq_instr_iff.2 rfl

/-! ## Reserved opcodes -/

/-- The opcodes without a reader are the reserved ones of R107. -/
theorem operandReader_eq_none_iff {n : Nat} :
    operandReader n = none ↔
      (n = 0x00 ∨ (0x06 ≤ n ∧ n ≤ 0x0F) ∨ (0x12 ≤ n ∧ n ≤ 0x1F) ∨ (0x24 ≤ n ∧ n ≤ 0x2F) ∨
        (0x32 ≤ n ∧ n ≤ 0x3F) ∨ (0x46 ≤ n ∧ n ≤ 0x4F) ∨ (0x54 ≤ n ∧ n ≤ 0x7F) ∨ 0x82 ≤ n) := by
  unfold operandReader
  split
  case h_26 =>
    refine iff_of_true rfl ?_
    simp only [imp_false] at *
    omega
  all_goals exact iff_of_false (fun h => nomatch h) (by omega)

/-- Settles O3: the opcodes that the map leaves out. -/
theorem reservedOpcodesAreUnknown : Obligations.ReservedOpcodesAreUnknown := fun _ _ =>
  decode_cons_eq_unknownOpcode_iff.trans operandReader_eq_none_iff

end Sys2Proof
end

section
/-! SUPPORT. What the port and the commands refuse (spec/30_encoding.md R107, 60_exceptions.md R274, R276). -/

namespace Sys2Proof.Machine

/-! ## The command port -/

theorem portAction_unknownOpcode {packet : List Byte} {op : Byte} (hd : decode packet = .unknownOpcode op)
    (s : State) : portAction packet s = .settle (refuse .unknownOpcode op.toNat s) := by
  rw [portAction, hd]

/-- An event code is refused whatever bytes follow it: with none it decodes to the event, with some it is no
packet of R103 (log 15). -/
theorem portAction_eventCode {op : Byte} (hop : op = 0x80 ∨ op = 0x81) (operands : List Byte) (s : State) :
    portAction (op :: operands) s = .settle (refuse .eventNotCommand op.toNat s) := by
  rcases hop with rfl | rfl <;> cases operands <;> rfl

theorem refuse_opcode (kind : RefusalKind) (op : Byte) (s : State) :
    refuse kind op.toNat s = { s with refused := some ⟨kind.code, op.setWidth 32⟩ } := by
  rw [refuse, BitVec.ofNat_toNat]

/-- Settles O6: the port's action on the turn's packet is the refusal, and the step settles there. -/
theorem portRefusesUnknownAndEventCodes : Obligations.PortRefusesUnknownAndEventCodes := by
  intro s dt op operands rest hrun hs
  refine ⟨fun hd => ?_, fun hop => ?_⟩
  · rw [step_of_settle ((nextAction_command hrun hs).trans (portAction_unknownOpcode hd _)), refuse_opcode]
    rfl
  · rw [step_of_settle ((nextAction_command hrun hs).trans (portAction_eventCode hop _ _)), refuse_opcode]
    rfl

/-! ## Illegal operands -/

theorem legalFlag_iff {b : Byte} : legalFlag b = true ↔ b = 0 ∨ b = 1 := by simp [legalFlag]

theorem legalFlag_eq_false {b : Byte} (h0 : b ≠ 0) (h1 : b ≠ 1) : legalFlag b = false :=
  Bool.eq_false_iff.2 fun h => (legalFlag_iff.1 h).elim h0 h1

/-- A bank's legal values are those of a flag (R102). -/
theorem legalBank_eq_legalFlag (b : Byte) : legalBank b = legalFlag b := rfl

theorem accept_of_firstBadOperand {i : Instr} {s : State} {body : Outcome} {position : Nat}
    (h : firstBadOperand s.params.numTimers i = some position) :
    accept i s body = .next { s with refused := some ⟨0x83, BitVec.ofNat 32 position⟩ } := by
  rw [accept, h]
  rfl

/-- A command with an illegal operand is refused with the first one's position, since every command accepts
its operands before anything else; the events, which do not, have no operands. -/
theorem exec_of_firstBadOperand {i : Instr} {s : State} {position : Nat}
    (h : firstBadOperand s.params.numTimers i = some position) :
    exec i s = .next { s with refused := some ⟨0x83, BitVec.ofNat 32 position⟩ } := by
  cases i with
  | evEdge | evTimeout => cases h
  | _ => exact accept_of_firstBadOperand h

/-- MATCH_GENERIC and MATCH_GENERIC_INT check the same operands at the same positions. -/
theorem exec_section_of_firstBadOperand {o : SectionOps} {s : State} {position : Nat}
    (h : firstBadOperand s.params.numTimers (.matchGeneric o) = some position) :
    exec (.matchGeneric o) s = .next { s with refused := some ⟨0x83, BitVec.ofNat 32 position⟩ } ∧
      exec (.matchGenericInt o) s = .next { s with refused := some ⟨0x83, BitVec.ofNat 32 position⟩ } :=
  ⟨exec_of_firstBadOperand h, exec_of_firstBadOperand h⟩

/-- Settles O7: in each case the first illegal operand is at the position given. -/
theorem illegalOperandsAreRefused : Obligations.IllegalOperandsAreRefused := by
  intro s
  refine ⟨?decode, ?stopwatches, ?sendData, ?sendGeneric, ?matchData, ?sections, ?decodeHash⟩
  case decode =>
    exact fun save h0 h1 => exec_of_firstBadOperand
      (by simp [firstBadOperand, operandChecks, legalFlag_eq_false h0 h1])
  case stopwatches =>
    exact fun t ht => ⟨exec_of_firstBadOperand (by simp [firstBadOperand, operandChecks, ht]),
      exec_of_firstBadOperand (by simp [firstBadOperand, operandChecks, ht])⟩
  case sendData =>
    exact fun o h0 h1 => exec_of_firstBadOperand
      (by simp [firstBadOperand, operandChecks, legalFlag_eq_false h0 h1])
  case sendGeneric =>
    refine fun o => ⟨fun h0 h1 => exec_of_firstBadOperand ?_, fun hflag hlen => exec_of_firstBadOperand ?_⟩
    · simp [firstBadOperand, operandChecks, legalFlag_eq_false h0 h1]
    · simp [firstBadOperand, operandChecks, legalFlag_iff.2 hflag, hlen]
  case matchData =>
    refine fun o => ⟨fun h0 h1 => exec_of_firstBadOperand ?_, fun hbank h0 h1 => exec_of_firstBadOperand ?_⟩
    · simp [firstBadOperand, operandChecks, legalBank_eq_legalFlag, legalFlag_eq_false h0 h1]
    · simp [firstBadOperand, operandChecks, legalBank_eq_legalFlag, legalFlag_iff.2 hbank, legalFlag_eq_false h0 h1]
  case sections =>
    refine fun o => ⟨fun h0 h1 => exec_section_of_firstBadOperand ?_,
      fun hbank h0 h1 => exec_section_of_firstBadOperand ?_,
      fun hbank hlast h0 h1 => exec_section_of_firstBadOperand ?_⟩
    · simp [firstBadOperand, operandChecks, legalBank_eq_legalFlag, legalFlag_eq_false h0 h1]
    · simp [firstBadOperand, operandChecks, legalBank_eq_legalFlag, legalFlag_iff.2 hbank, legalFlag_eq_false h0 h1]
    · simp [firstBadOperand, operandChecks, legalBank_eq_legalFlag, legalFlag_iff.2 hbank, legalFlag_iff.2 hlast,
        legalFlag_eq_false h0 h1]
  case decodeHash =>
    exact fun bank h0 h1 => exec_of_firstBadOperand
      (by simp [firstBadOperand, operandChecks, legalBank_eq_legalFlag, legalFlag_eq_false h0 h1])

end Sys2Proof.Machine
end

section
/-! SUPPORT. The stopwatches (spec/41_timer.md R130 to R133): what the two commands do to each of them, and the
value that a read returns. -/

namespace Sys2Proof.Machine

/-! ## Starting a stopwatch -/

/-- What TIMER_RESET does to the registers (R130); `exec_timerReset` ties it to the command. -/
def startStopwatch (k : Nat) (s : State) : State :=
  { s with tStart := s.tStart.write k s.now, tSet := s.tSet.write k 1 }

theorem exec_timerReset {s : State} {k : Byte} (hk : k.toNat < s.params.numTimers) :
    exec (.timerReset k) s = .next (withResult .done (startStopwatch k.toNat s)) :=
  accept_of_wf (.timerReset k) s _ (decide_eq_true hk)

section Started

variable {s : State} (hwf : Memory.wf s = true) (k : Nat)
include hwf

theorem startStopwatch_timerStart_same : (startStopwatch k s).timerStart k = s.now :=
  have ⟨_, _, hstart, _⟩ := (memory_wf_iff s).1 hwf
  Cells.read_write_same _ _ _ hstart

theorem startStopwatch_timerIsSet_same : (startStopwatch k s).timerIsSet k = true :=
  have ⟨_, _, _, hset⟩ := (memory_wf_iff s).1 hwf
  bne_iff_ne.2 ((Cells.read_write_same _ _ _ hset).trans_ne Nat.one_ne_zero)

variable {k} {j : Nat} (hj : j ≠ k)
include hj

theorem startStopwatch_timerStart_other : (startStopwatch k s).timerStart j = s.timerStart j :=
  have ⟨_, _, hstart, _⟩ := (memory_wf_iff s).1 hwf
  Cells.read_write_other _ _ _ _ hstart hj

theorem startStopwatch_timerIsSet_other : (startStopwatch k s).timerIsSet j = s.timerIsSet j :=
  have ⟨_, _, _, hset⟩ := (memory_wf_iff s).1 hwf
  congrArg (· != 0) (Cells.read_write_other _ _ _ _ hset hj)

end Started

/-! ## Reading a stopwatch -/

/-- What a read sees of a stopwatch is in TSTART and TSET alone. -/
theorem timerStart_congr {s u : State} (h : u.tStart = s.tStart) (k : Nat) : u.timerStart k = s.timerStart k :=
  congrArg (Cells.read · k) h

theorem timerIsSet_congr {s u : State} (h : u.tSet = s.tSet) (k : Nat) : u.timerIsSet k = s.timerIsSet k :=
  congrArg (fun cells : Cells => cells.read k != 0) h

theorem exec_timerElapsed_of_unset {s : State} {k : Byte} (hk : k.toNat < s.params.numTimers)
    (hunset : s.timerIsSet k.toNat = false) :
    exec (.timerElapsed k) s = .next (raiseFault .timerUnset k.toNat s) :=
  (accept_of_wf (.timerElapsed k) s _ (decide_eq_true hk)).trans (if_neg (ne_true_of_eq_false hunset))

/-- The clock difference fits the u64 field of the answer, a clock having at most 64 bits (R8). -/
theorem exec_timerElapsed_of_set {s : State} {k : Byte} (hk : k.toNat < s.params.numTimers)
    (hvalid : s.params.Valid) (hset : s.timerIsSet k.toNat = true) :
    ∃ e : U64, exec (.timerElapsed k) s = .next (withResult (.elapsed e) s) ∧
      e.toNat = subMod s.params.clockBits s.now (s.timerStart k.toNat) := by
  have hfits : subMod s.params.clockBits s.now (s.timerStart k.toNat) < 2 ^ 64 :=
    (subMod_lt _ _ _).trans_le (Nat.pow_le_pow_right Nat.two_pos hvalid.clock_le)
  exact ⟨_, (accept_of_wf (.timerElapsed k) s _ (decide_eq_true hk)).trans (if_pos hset),
    (BitVec.toNat_ofNat _ _).trans (Nat.mod_eq_of_lt hfits)⟩

/-- The CLOCK `later` microseconds after `s` differs from that of `s` by `later`, wraps included (R131, R132). -/
theorem subMod_now {s u : State} {later : Nat} (hparams : u.params = s.params)
    (hoffset : u.clockOffset = s.clockOffset) (htau : u.tau = s.tau + later) :
    subMod u.params.clockBits u.now s.now = later % 2 ^ s.params.clockBits := by
  rw [State.now, State.now, hparams, hoffset, htau, subMod_clock]

/-! ## The obligations -/

/-- Settles O35: the reset leaves `s.now` in TSTART, and the read takes the clock's distance from it. -/
theorem stopwatchMeasuresElapsedTime : Obligations.StopwatchMeasuresElapsedTime := by
  intro s k hk hvalid hwf
  refine ⟨withResult .done (startStopwatch k.toNat s), exec_timerReset hk, startStopwatch_timerStart_same hwf _,
    startStopwatch_timerIsSet_same hwf _,
    fun j hj => ⟨startStopwatch_timerStart_other hwf hj, startStopwatch_timerIsSet_other hwf hj⟩, rfl, ?_⟩
  intro u later hparams hoffset hstart hset htau
  have hustart : u.timerStart k.toNat = s.now :=
    (timerStart_congr hstart _).trans (startStopwatch_timerStart_same hwf _)
  have huset : u.timerIsSet k.toNat = true :=
    (timerIsSet_congr hset _).trans (startStopwatch_timerIsSet_same hwf _)
  obtain ⟨e, hexec, he⟩ := exec_timerElapsed_of_set (s := u) (hparams ▸ hk) (hparams ▸ hvalid) huset
  refine ⟨e, hexec, ?_⟩
  rw [he, hustart, subMod_now hparams hoffset htau]

/-- Settles O36: TSET decides between the fault and the answer. -/
theorem timerElapsedReadsOrFaults : Obligations.TimerElapsedReadsOrFaults := by
  intro s k hk hvalid hbound
  refine ⟨fun hunset => ?unset, fun hset => ?set⟩
  case unset =>
    rw [exec_timerElapsed_of_unset hk hunset, raiseFault, BitVec.ofNat_toNat]
    rfl
  case set =>
    obtain ⟨e, hexec, he⟩ := exec_timerElapsed_of_set hk hvalid hset
    exact ⟨e, hexec, he.trans (subMod_of_lt _ _ _ hbound)⟩

end Sys2Proof.Machine
end

section
/-! SUPPORT. The carrier driver (spec/42_carrier_driver.md R140 to R150): what each of its commands answers, the
rounding of the carrier's period, and how long a send keeps the port. -/

namespace Sys2Proof.Machine

/-! ## What the commands answer -/

theorem exec_enableIrOut {freq : U32} (hfreq : freq ≠ 0) (duty : Byte) (s : State) :
    exec (.enableIrOut freq duty) s = .next (withResult .done (configureCarrier freq duty s)) :=
  (accept_of_wf (.enableIrOut freq duty) s _ rfl).trans (if_neg hfreq)

theorem exec_enableIrOut_zero (duty : Byte) (s : State) :
    exec (.enableIrOut 0 duty) s = .next (raiseFault .carrierFreqZero 0 s) :=
  accept_of_wf (.enableIrOut 0 duty) s _ rfl

theorem exec_mark {s : State} (hvalid : s.carrierValid = true) (d : U32) :
    exec (.mark d) s = .next (withResult .done (sendEnvelope [.mark d.toNat] s)) :=
  (accept_of_wf (.mark d) s _ rfl).trans (if_pos hvalid)

theorem exec_mark_unconfigured {s : State} (hvalid : s.carrierValid = false) (d : U32) :
    exec (.mark d) s = .next (raiseFault .carrierUnconfigured 0 s) :=
  (accept_of_wf (.mark d) s _ rfl).trans (if_neg (ne_true_of_eq_false hvalid))

theorem exec_space (d : U32) (s : State) :
    exec (.space d) s = .next (withResult .done (sendEnvelope [.space d.toNat] s)) :=
  accept_of_wf (.space d) s _ rfl

theorem exec_ledOff (s : State) : exec .ledOff s = .next (withResult .done { s with outLevel := .low }) :=
  accept_of_wf .ledOff s _ rfl

theorem exec_sendData_unconfigured {s : State} (hvalid : s.carrierValid = false) {o : SendDataOps}
    (hflag : o.msbFirst = 0 ∨ o.msbFirst = 1) (hbits : o.nbits ≠ 0) :
    exec (.sendData o) s = .next (raiseFault .carrierUnconfigured 0 s) :=
  (accept_of_wf (.sendData o) s _ (legalFlag_iff.2 hflag)).trans
    ((if_neg hbits).trans (if_neg (ne_true_of_eq_false hvalid)))

theorem sendGeneric_wf {o : SendGenericOps} (hflag : o.msbFirst = 0 ∨ o.msbFirst = 1)
    (hlen : o.nbytes.toNat = o.bytes.length) (numTimers : Nat) : (Instr.sendGeneric o).wf numTimers = true :=
  Bool.and_eq_true_iff.2 ⟨legalFlag_iff.2 hflag, decide_eq_true hlen⟩

theorem exec_sendGeneric_zero {o : SendGenericOps} (hflag : o.msbFirst = 0 ∨ o.msbFirst = 1)
    (hlen : o.nbytes.toNat = o.bytes.length) (hfreq : o.freq = 0) (s : State) :
    exec (.sendGeneric o) s = .next (raiseFault .carrierFreqZero 0 s) :=
  (accept_of_wf (.sendGeneric o) s _ (sendGeneric_wf hflag hlen _)).trans (if_pos hfreq)

/-! ## Faults and the pin -/

/-- Settles O39: the two commands fault, and the record is the code 3 with no info. -/
theorem unconfiguredCarrierFaults : Obligations.UnconfiguredCarrierFaults := fun _ hvalid =>
  ⟨exec_mark_unconfigured hvalid, fun _ => exec_sendData_unconfigured hvalid⟩

/-- Settles O40: the two commands fault, and the record is the code 2 with no info. -/
theorem zeroFrequencyFaults : Obligations.ZeroFrequencyFaults := fun s =>
  ⟨fun duty => exec_enableIrOut_zero duty s, fun _ hflag hlen hfreq => exec_sendGeneric_zero hflag hlen hfreq s⟩

/-- Settles O43: LED_OFF is always accepted, and its answer is the whole of its effect. -/
theorem ledOffForcesThePinLow : Obligations.LedOffForcesThePinLow := exec_ledOff

/-! ## The carrier's period -/

/-- Rounding half up is one division of naturals (R141): `10^6/hz + 1/2` over the common denominator `2 * hz`. -/
theorem floor_half_up {hz : Nat} (hpos : 1 ≤ hz) :
    ⌊(10 : ℚ) ^ 6 / (hz : ℚ) + 1 / 2⌋ = (((2 * 1000000 + hz) / (2 * hz) : Nat) : Int) := by
  have hne : (hz : ℚ) ≠ 0 := Nat.cast_ne_zero.2 (by omega)
  have hfraction : (10 : ℚ) ^ 6 / (hz : ℚ) + 1 / 2 =
      ((2 * 1000000 + hz : Nat) : ℚ) / ((2 * hz : Nat) : ℚ) := by
    push_cast
    field_simp
    ring
  rw [hfraction, Rat.floor_natCast_div_natCast, Int.natCast_ediv]

theorem carrierPeriod_eq_floor {hz : Nat} (hpos : 1 ≤ hz) :
    (carrierPeriod hz : Int) = max 1 ⌊(10 : ℚ) ^ 6 / (hz : ℚ) + 1 / 2⌋ := by
  rw [floor_half_up hpos, carrierPeriod]
  exact Nat.cast_max (α := ℤ) 1 _

theorem carrierHzOf_pos {freq : U32} (hfreq : freq ≠ 0) : 1 ≤ carrierHzOf freq.toNat := by
  have hne : freq.toNat ≠ 0 := fun h => hfreq (BitVec.eq_of_toNat_eq h)
  simp only [carrierHzOf]
  split <;> omega

/-- A frequency in kHz is below 1000, so that in Hz it still fits its register. -/
theorem carrierHzOf_lt (freq : U32) : carrierHzOf freq.toNat < 2 ^ 32 := by
  unfold carrierHzOf
  split
  case isTrue hkhz =>
    have hsmall : freq.toNat < 1000 := hkhz
    omega
  case isFalse => exact freq.isLt

theorem configureCarrier_carrierHz_toNat (freq : U32) (duty : Byte) (s : State) :
    (configureCarrier freq duty s).carrierHz.toNat = carrierHzOf freq.toNat :=
  Nat.mod_eq_of_lt (carrierHzOf_lt freq)

/-- Settles O37: the model's division is R141's rounding, and PERIOD_US holds it uncut. -/
theorem periodRoundsHalfUp : Obligations.PeriodRoundsHalfUp := by
  refine ⟨fun hz hpos => ⟨carrierPeriod_eq_floor hpos, rfl, carrierPeriod_pos hz⟩, ?_, ?_, ?_, ?_, ?_, ?_, ?_,
    fun s freq duty hfreq => ⟨_, exec_enableIrOut hfreq duty s, configureCarrier_periodUs_toNat freq duty s⟩⟩ <;>
    rfl

/-- Settles O38: each register holds its rule's value uncut, and the rest of the state is as it was. -/
theorem enableConfiguresTheCarrier : Obligations.EnableConfiguresTheCarrier := by
  intro s freq duty hfreq
  refine ⟨withResult .done (configureCarrier freq duty s), exec_enableIrOut hfreq duty s, ?hz, ?duty, ?period, ?on,
    ?off, rfl⟩
  case hz => exact configureCarrier_carrierHz_toNat freq duty s
  case duty => exact configureCarrier_duty_toNat freq duty s
  case period =>
    rw [withResult_periodUs, withResult_carrierHz, configureCarrier_periodUs_toNat,
      configureCarrier_carrierHz_toNat]
    exact carrierPeriod_eq_floor (carrierHzOf_pos hfreq)
  case on =>
    rw [withResult_onUs, withResult_periodUs, withResult_duty, configureCarrier_onUs_toNat,
      configureCarrier_periodUs_toNat, configureCarrier_duty_toNat, carrierOn]
  case off =>
    rw [withResult_onUs, withResult_offUs, withResult_periodUs, configureCarrier_onUs_toNat,
      configureCarrier_offUs_toNat, configureCarrier_periodUs_toNat]
    exact Nat.add_sub_cancel' (carrierOn_le _ (min_le_right _ _))

/-! ## Marks and spaces -/

/-- The whole state after a send, once the time of its envelope is known (R150). -/
theorem sendEnvelope_eq_of_spent {pulses : List Pulse} {s : State} {total : Nat}
    (h : (play s.onUs.toNat s.offUs.toNat pulses ⟨s.outWave, 0⟩).spent = total) :
    sendEnvelope pulses s =
      { s with outWave := (sendEnvelope pulses s).outWave, outLevel := .low, busyUntil := s.tau + total } := by
  subst h
  rfl

/-- Settles O41: a send of one mark is the loop of MARK, from a command that has spent nothing yet. -/
theorem markLastsExactlyItsDuration : Obligations.MarkLastsExactlyItsDuration := by
  intro s d hvalid hperiod
  obtain ⟨htotal, hspent, hhigh⟩ := markLoop_spec _ _ hperiod d.toNat d.toNat ⟨s.outWave, 0⟩ le_rfl
  have hlevels := waveLevels_markLoop _ _ hperiod d.toNat d.toNat ⟨s.outWave, 0⟩ le_rfl
  exact ⟨_, exec_mark hvalid d, htotal, hhigh, hlevels,
    congrArg (withResult .done)
      (sendEnvelope_eq_of_spent (pulses := [.mark d.toNat]) (hspent.trans (Nat.zero_add _)))⟩

/-- Settles O42: a send of one space emits one LOW segment. -/
theorem spaceHoldsThePinLow : Obligations.SpaceHoldsThePinLow := by
  intro s d
  obtain ⟨htotal, hspent⟩ := emit_total .low d.toNat ⟨s.outWave, 0⟩
  exact ⟨_, exec_space d s, htotal, emit_high .low d.toNat ⟨s.outWave, 0⟩,
    waveLevels_emit .low d.toNat ⟨s.outWave, 0⟩,
    congrArg (withResult .done)
      (sendEnvelope_eq_of_spent (pulses := [.space d.toNat]) (hspent.trans (Nat.zero_add _)))⟩

/-! ## The port -/

/-- The command that makes `u` of `s` emits `emitted` microseconds, and the port is busy for them. -/
def OccupiesPort (s u : State) (emitted : Nat) : Prop :=
  waveTotal u.outWave = waveTotal s.outWave + emitted ∧ u.busyUntil = s.tau + emitted

/-- Whatever the carrier, a send takes the time that it adds to OUT_WAVE. -/
theorem sendEnvelope_occupiesPort (pulses : List Pulse) (s : State) :
    ∃ emitted, OccupiesPort s (sendEnvelope pulses s) emitted := by
  obtain ⟨emitted, htotal, hspent⟩ := play_spent s.onUs.toNat s.offUs.toNat pulses ⟨s.outWave, 0⟩
  exact ⟨emitted, htotal, congrArg (s.tau + ·) (hspent.trans (Nat.zero_add _))⟩

/-- A command or handler that sends no envelope leaves OUT_WAVE and the port's busy time alone. -/
theorem RegisterEffect.busy_or_occupiesPort {i : Instr} {s u : State} (he : RegisterEffect i s u) :
    (u.outWave = s.outWave ∧ u.busyUntil = s.busyUntil) ∨ ∃ emitted, OccupiesPort s u emitted := by
  cases he with
  | mark | space | sendData => exact .inr (sendEnvelope_occupiesPort _ s)
  | sendGeneric o => exact .inr (sendEnvelope_occupiesPort _ (configureCarrier o.freq o.duty s))
  | _ => exact .inl ⟨rfl, rfl⟩

/-- A command's step, refused ones included, happens at the later of its turn and the end of the send in
progress (log 12). -/
theorem step_command_tau {s t : State} {dt : Nat} {packet : List Byte} {rest : List Turn}
    (hs : s.schedule = ⟨dt, .command packet⟩ :: rest) (h : step s = .next t) :
    t.tau = max (s.tau + dt) s.busyUntil := by
  rcases step_cases h with ⟨_, _, hpower, -⟩ | ⟨-, -, hrun⟩
  · cases hs.symm.trans hpower
  rcases hrun with ⟨_, _, _, _, _, hturn, -, rfl⟩ | ⟨hidle, -⟩ | ⟨i, _, tau, -, hexec, hturn⟩
  · cases hs.symm.trans hturn
    rfl
  · cases hs.symm.trans hidle
  · rcases hturn with ⟨_, _, hturn, -, -, htau⟩ | ⟨_, hturn, -⟩ | ⟨_, hturn, -⟩ | ⟨hturn, -⟩ <;>
      cases hs.symm.trans hturn
    exact (exec_keeps_time hexec).1.trans htau

/-- Settles O13: effect by effect (`RegisterEffect.busy_or_occupiesPort`), and by the time of a command's step. -/
theorem sendsOccupyThePort : Obligations.SendsOccupyThePort := by
  refine ⟨fun i s t h => ?emits, fun s t dt packet rest hs h => ?waits⟩
  case emits =>
    obtain ⟨u, heffect, fault, refused, results, draws, rfl⟩ := exec_effect h
    rcases heffect.busy_or_occupiesPort with ⟨hwave, hbusy⟩ | ⟨emitted, htotal, hbusy⟩
    · exact .inl ⟨hwave, .inl hbusy⟩
    · exact .inr ⟨htotal ▸ Nat.le_add_right _ _, by rw [hbusy, htotal, Nat.add_sub_cancel_left]⟩
  case waits =>
    exact step_command_tau hs h ▸ le_max_right _ _

end Sys2Proof.Machine
end

section
/-! SUPPORT. The encoder (spec/43_encoder.md R160 to R171): what SEND_DATA and SEND_GENERIC answer, the bits of
a send in either order, the levels and the time of an envelope, and a captured frame read back. -/

namespace Sys2Proof.Machine

/-! ## What the commands answer -/

section Answers
variable {s : State} {o : SendDataOps} (hflag : o.msbFirst = 0 ∨ o.msbFirst = 1)
include hflag

theorem exec_sendData_empty (hbits : o.nbits = 0) : exec (.sendData o) s = .next (withResult .done s) :=
  (accept_of_wf (.sendData o) s _ (legalFlag_iff.2 hflag)).trans (if_pos hbits)

theorem exec_sendData (hvalid : s.carrierValid = true) (hbits : o.nbits ≠ 0) :
    exec (.sendData o) s = .next (withResult .done
      (sendEnvelope (dataEnvelope o.timings o.data o.nbits.toNat (isSet o.msbFirst)) s)) :=
  (accept_of_wf (.sendData o) s _ (legalFlag_iff.2 hflag)).trans ((if_neg hbits).trans (if_pos hvalid))

end Answers

theorem exec_sendGeneric {o : SendGenericOps} (hflag : o.msbFirst = 0 ∨ o.msbFirst = 1)
    (hlen : o.nbytes.toNat = o.bytes.length) (hfreq : o.freq ≠ 0) (s : State) :
    exec (.sendGeneric o) s = .next (withResult .done
      (sendEnvelope (genericEnvelope o) (configureCarrier o.freq o.duty s))) :=
  (accept_of_wf (.sendGeneric o) s _ (sendGeneric_wf hflag hlen _)).trans (if_neg hfreq)

/-- Settles O47: the count is tested before the carrier is. -/
theorem emptySendDataSendsNothing : Obligations.EmptySendDataSendsNothing :=
  fun _ _ hflag hbits => exec_sendData_empty hflag hbits

/-! ## The bits of a send -/

theorem dataBits_msb_padding (data : U64) (extra : Nat) :
    dataBits data (64 + extra) true = List.replicate extra false ++ dataBits data 64 true := by
  simp [dataBits]

theorem dataBits_lsb (data : U64) (n : Nat) : dataBits data n false = (List.range n).map data.getLsbD := rfl

theorem dataBits_lsb_padding (data : U64) (extra : Nat) :
    dataBits data (64 + extra) false = dataBits data 64 false ++ List.replicate extra false := by
  have hpast : ((List.range extra).map (64 + ·)).map data.getLsbD = List.replicate extra false :=
    List.eq_replicate_iff.2 ⟨by simp, by simp⟩
  rw [dataBits_lsb, dataBits_lsb, List.range_add, List.map_append, hpast]

/-- The two orders are each other's reverse, padding included. -/
theorem dataBits_msb_eq_reverse (data : U64) (n : Nat) :
    dataBits data n true = (dataBits data n false).reverse := by
  have hword : ∀ m ≤ 64, dataBits data m true = (dataBits data m false).reverse := by
    intro m hm
    simp [dataBits, Nat.sub_eq_zero_of_le hm, Nat.min_eq_left hm]
  rcases Nat.le_total n 64 with hn | hn
  · exact hword n hn
  · obtain ⟨extra, rfl⟩ := Nat.exists_eq_add_of_le hn
    rw [dataBits_msb_padding, dataBits_lsb_padding, hword 64 le_rfl, List.reverse_append, List.reverse_replicate]

@[simp] theorem length_dataBits (data : U64) (n : Nat) (msbFirst : Bool) :
    (dataBits data n msbFirst).length = n := by
  cases msbFirst with
  | false => simp [dataBits_lsb]
  | true => simp [dataBits_msb_eq_reverse, dataBits_lsb]

theorem getElem_dataBits (data : U64) (n : Nat) (msbFirst : Bool) (i : Nat)
    (h : i < (dataBits data n msbFirst).length) :
    (dataBits data n msbFirst)[i] = data.getLsbD (if msbFirst then n - 1 - i else i) := by
  cases msbFirst with
  | false => simp [dataBits_lsb]
  | true => simp [dataBits_msb_eq_reverse, dataBits_lsb]

/-- Settles O46: the padding is at the end of the LSB-first bits and at the front of the MSB-first ones. -/
theorem paddingIsFirstOrLast : Obligations.PaddingIsFirstOrLast := by
  intro s o extra hvalid hn
  have hbits : o.nbits ≠ 0 := fun h => by simp [h] at hn; omega
  have hzeros : (List.replicate extra false).flatMap (symbol o.timings) = (List.replicate extra
      [Pulse.mark o.timings.zeroMark.toNat, Pulse.space o.timings.zeroSpace.toNat]).flatten := by
    rw [List.flatMap_def, List.map_replicate]
    rfl
  refine ⟨fun hmsb => ?msb, fun hlsb => ?lsb⟩
  case msb =>
    rw [exec_sendData (.inr hmsb) hvalid hbits, ← hzeros, hn, hmsb, dataEnvelope, dataEnvelope,
      ← List.flatMap_append, ← dataBits_msb_padding]
    rfl
  case lsb =>
    rw [exec_sendData (.inl hlsb) hvalid hbits, ← hzeros, hn, hlsb, dataEnvelope, dataEnvelope,
      ← List.flatMap_append, ← dataBits_lsb_padding]
    rfl

/-! ## What an envelope does to the state -/

theorem waveLevels_sendEnvelope {s : State} (hp : 1 ≤ s.onUs.toNat + s.offUs.toNat) (pulses : List Pulse) :
    waveLevels (sendEnvelope pulses s).waveform =
      waveLevels s.waveform ++ pulses.flatMap (Pulse.levels s.onUs.toNat s.offUs.toNat) :=
  waveLevels_play _ _ hp pulses ⟨s.outWave, 0⟩

/-- The port is busy for the sum of the calls' durations. -/
theorem sendEnvelope_eq {s : State} (hp : 1 ≤ s.onUs.toNat + s.offUs.toNat) (pulses : List Pulse) :
    sendEnvelope pulses s = { s with
      outWave := (sendEnvelope pulses s).outWave, outLevel := .low,
      busyUntil := s.tau + (pulses.map Pulse.us).sum } :=
  sendEnvelope_eq_of_spent ((play_total _ _ hp pulses ⟨s.outWave, 0⟩).2.trans (Nat.zero_add _))

/-- Settles O45: the envelope's calls play in order, and its bits are those of `getElem_dataBits`. -/
theorem sendDataSendsItsBits : Obligations.SendDataSendsItsBits := by
  refine ⟨fun s p ps hp => ?calls, fun s o bits hvalid hbits hflag hlen hget => ?bits⟩
  case calls =>
    have hfirst : waveLevels (sendEnvelope [p] s).waveform =
        waveLevels s.waveform ++ p.levels s.onUs.toNat s.offUs.toNat := by
      rw [waveLevels_sendEnvelope hp, List.flatMap_singleton]
    refine ⟨?_, hfirst, sendEnvelope_eq hp (p :: ps)⟩
    rw [waveLevels_sendEnvelope hp, hfirst, List.flatMap_cons, List.append_assoc]
  case bits =>
    have hdata : bits = dataBits o.data o.nbits.toNat (isSet o.msbFirst) := by
      refine List.ext_getElem (by rw [hlen, length_dataBits]) fun i h _ => ?_
      rw [hget i h, getElem_dataBits]
      simp only [isSet, beq_iff_eq]
    rw [exec_sendData hflag hvalid hbits, hdata]
    rfl

/-! ## The frames of SEND_GENERIC -/

/-- A configured carrier has a cycle of at least a microsecond (R141, R142). -/
theorem configureCarrier_cycle_pos (freq : U32) (duty : Byte) (s : State) :
    1 ≤ (configureCarrier freq duty s).onUs.toNat + (configureCarrier freq duty s).offUs.toNat := by
  have hpos := carrierPeriod_pos (carrierHzOf freq.toNat)
  rw [configureCarrier_onUs_toNat, configureCarrier_offUs_toNat]
  omega

theorem genericEnvelope_us (o : SendGenericOps) :
    ((genericEnvelope o).map Pulse.us).sum = (o.repeats.toNat + 1) * ((frameEnvelope o).map Pulse.us).sum := by
  simp [genericEnvelope, List.map_flatten, List.sum_flatten]

/-- Settles O48: the statement's frame is `frameEnvelope o`, played on the carrier that the command has
configured. -/
theorem sendGenericSendsItsFrames : Obligations.SendGenericSendsItsFrames := by
  intro s o hflag hlen hfreq frame total
  have hcycle := configureCarrier_cycle_pos o.freq o.duty s
  have htotal : total = ((genericEnvelope o).map Pulse.us).sum := (genericEnvelope_us o).symm
  refine ⟨_, _, exec_enableIrOut hfreq o.duty s, exec_sendGeneric hflag hlen hfreq s, rfl, ?_, ?_, ?_⟩
  · rw [htotal]
    exact (play_total _ _ hcycle (genericEnvelope o) ⟨s.outWave, 0⟩).1
  · exact waveLevels_sendEnvelope hcycle (genericEnvelope o)
  · rw [htotal]
    exact congrArg (withResult .done) (sendEnvelope_eq hcycle (genericEnvelope o))

end Sys2Proof.Machine
end

section
/-! SUPPORT. The decoder on a captured frame (spec/43_encoder.md R171, 46_decoder.md R240 to R247): the ticks of a
frame's marks and spaces, read back as the bytes that were sent. -/

namespace Sys2Proof.Machine

/-! ## The integer of the bits sent -/

/-- Reading in the other order is reading the reverse (R242). -/
theorem bitsValue_reverse (bits : List Bool) : bitsValue true bits.reverse = bitsValue false bits := by
  simp only [bitsValue, List.foldl_reverse, if_true, Bool.false_eq_true, if_false]
  congr 1
  funext b v
  exact Nat.add_comm _ _

/-- The low `n` bits of a number, bit 0 first, stand for its remainder modulo `2 ^ n`. -/
theorem bitsValue_testBit : ∀ (n x : Nat), bitsValue false ((List.range n).map x.testBit) = x % 2 ^ n
  | 0, x => by simp [bitsValue, Nat.mod_one]
  | n + 1, x => by
    have ih := bitsValue_testBit n (x / 2)
    have hshift : (List.range n).map (x.testBit ∘ Nat.succ) = (List.range n).map (x / 2).testBit :=
      List.map_congr_left fun k _ => Nat.testBit_succ x k
    rw [List.range_succ_eq_map, List.map_cons, List.map_map, hshift, Nat.pow_succ', Nat.mod_mul, ← ih,
      Nat.testBit_zero]
    have hbit : (decide (x % 2 = 1)).toNat = x % 2 := by
      rcases Nat.mod_two_eq_zero_or_one x with h | h <;> simp [h]
    exact congrArg (· + _) hbit

/-- The bits of a send stand for the low `n` bits of its data, in either order. -/
theorem bitsValue_dataBits (data : U64) (n : Nat) (msbFirst : Bool) :
    bitsValue msbFirst (dataBits data n msbFirst) = data.toNat % 2 ^ n := by
  cases msbFirst with
  | false => exact bitsValue_testBit n data.toNat
  | true => rw [dataBits_msb_eq_reverse, bitsValue_reverse]; exact bitsValue_testBit n data.toNat

/-- Placing received bits one by one builds their integer, modulo 2^64 (R241, R242). -/
theorem placeBits_eq_bitsValue (msbFirst : Bool) (bits : List Bool) :
    placeBits msbFirst 0 0 bits = BitVec.ofNat 64 (bitsValue msbFirst bits) := by
  cases msbFirst with
  | false => simpa [bitsValue] using placeBits_lsb bits 0 0 (by decide)
  | true => exact placeBits_msb bits 0 0

/-- A byte's bits, sent and placed in one order, are the byte again. -/
theorem placeBits_byte (msbFirst : Bool) (b : Byte) :
    (placeBits msbFirst 0 0 (dataBits (b.setWidth 64) 8 msbFirst)).setWidth 8 = b := by
  have hb := b.isLt
  rw [placeBits_eq_bitsValue, bitsValue_dataBits]
  refine BitVec.eq_of_toNat_eq ?_
  simp only [BitVec.toNat_setWidth, BitVec.toNat_ofNat]
  omega

/-! ## The ticks of an envelope -/

/-- The entries that hold an envelope's durations, in ticks (44_capture.md R182). -/
def ticks (T : Nat) (pulses : List Pulse) : List Nat := pulses.map fun p => p.us / T

@[simp] theorem ticks_append (T : Nat) (ps qs : List Pulse) : ticks T (ps ++ qs) = ticks T ps ++ ticks T qs :=
  List.map_append

@[simp] theorem length_ticks (T : Nat) (pulses : List Pulse) : (ticks T pulses).length = pulses.length :=
  List.length_map _

theorem length_partPulses (mk : Nat → Pulse) (d : U32) : (partPulses mk d).length = present d := by
  unfold partPulses present
  split <;> rfl

/-- A part that passes its test is matched, and a part that is not sent is skipped (R167). -/
theorem matchPart_ticks {T : Nat} {test : Nat → Bool} {mk : Nat → Pulse} (hmk : ∀ us, (mk us).us = us) {d : U32}
    (htest : d ≠ 0 → test (d.toNat / T) = true) (before after : List Nat) :
    matchPart test d (before ++ (ticks T (partPulses mk d) ++ after)) before.length =
      some (before ++ ticks T (partPulses mk d)).length := by
  rw [matchPart_eq_some_iff, List.length_append, length_ticks, length_partPulses]
  refine ⟨rfl, fun hd => ?_⟩
  have hpart : partPulses mk d = [mk d.toNat] := if_neg hd
  simpa [hpart, ticks, hmk] using htest hd

/-- The mark of a bit's symbol; `symbol_eq` ties it, and the space, to the encoder. -/
def symbolMark (t : BitTimings) (b : Bool) : U32 := if b then t.oneMark else t.zeroMark

/-- The space of a bit's symbol. -/
def symbolSpace (t : BitTimings) (b : Bool) : U32 := if b then t.oneSpace else t.zeroSpace

theorem symbol_eq (t : BitTimings) (b : Bool) :
    symbol t b = [.mark (symbolMark t b).toNat, .space (symbolSpace t b).toNat] := by
  cases b <;> rfl

theorem length_symbol (t : BitTimings) (b : Bool) : (symbol t b).length = 2 := by
  rw [symbol_eq]
  rfl

theorem length_dataEnvelope (t : BitTimings) (data : U64) (n : Nat) (msbFirst : Bool) :
    (dataEnvelope t data n msbFirst).length = 2 * n := by
  simp [dataEnvelope, List.length_flatMap, length_symbol, Nat.mul_comm]

/-! ## Reading the symbols back -/

/-- The ticks of each bit's symbol are decoded as that bit: conditions (d) and (e) of R171. -/
def ReadsOwnSymbols (T : Nat) (t : BitTimings) (tol : Nat) (excess : Int) : Prop :=
  ∀ b, classify T t tol excess ((symbolMark t b).toNat / T) ((symbolSpace t b).toNat / T) = some b

section Symbols
variable {T tol : Nat} {t : BitTimings} {excess : Int}

/-- The one symbol is tried first (R240), so the zero symbol must fail it. -/
theorem readsOwnSymbols_of_fits
    (honeMark : matchesMark T (t.oneMark.toNat / T) t.oneMark.toNat tol excess = true)
    (honeSpace : matchesSpace T (t.oneSpace.toNat / T) t.oneSpace.toNat tol excess = true)
    (hzeroMark : matchesMark T (t.zeroMark.toNat / T) t.zeroMark.toNat tol excess = true)
    (hzeroSpace : matchesSpace T (t.zeroSpace.toNat / T) t.zeroSpace.toNat tol excess = true)
    (hdiffer : matchesMark T (t.zeroMark.toNat / T) t.oneMark.toNat tol excess = false ∨
      matchesSpace T (t.zeroSpace.toNat / T) t.oneSpace.toNat tol excess = false) :
    ReadsOwnSymbols T t tol excess
  | true => by simp [classify, symbolMark, symbolSpace, honeMark, honeSpace]
  | false => by
    rcases hdiffer with h | h <;> simp [classify, symbolMark, symbolSpace, hzeroMark, hzeroSpace, h]

variable (hsymbols : ReadsOwnSymbols T t tol excess)
include hsymbols

theorem matchPairs_ticks (msbFirst : Bool) (after : List Nat) : ∀ (bits : List Bool) (i : Nat) (v : U64),
    matchPairs T t tol excess msbFirst bits.length i v (ticks T (bits.flatMap (symbol t)) ++ after) =
      some (placeBits msbFirst i v bits)
  | [], _, _ => rfl
  | b :: bits, i, v => by
    have hpair : ticks T ((b :: bits).flatMap (symbol t)) ++ after = (symbolMark t b).toNat / T ::
        (symbolSpace t b).toNat / T :: (ticks T (bits.flatMap (symbol t)) ++ after) := by
      rw [List.flatMap_cons, symbol_eq]
      rfl
    rw [hpair, List.length_cons, matchPairs, hsymbols b]
    exact matchPairs_ticks msbFirst after bits (i + 1) (placeBit msbFirst i v b)

/-- MATCH_DATA's core at the ticks of an envelope of SEND_DATA. -/
theorem matchData_ticks (data : U64) (n : Nat) (msbFirst : Bool) (before after : List Nat) :
    matchData T t tol excess msbFirst (before ++ (ticks T (dataEnvelope t data n msbFirst) ++ after))
      before.length n = some (placeBits msbFirst 0 0 (dataBits data n msbFirst)) := by
  have hpairs := matchPairs_ticks hsymbols msbFirst after (dataBits data n msbFirst) 0 0
  rw [length_dataBits] at hpairs
  rw [matchData, if_neg (by simp [length_dataEnvelope]), List.drop_left]
  exact hpairs

end Symbols

/-! ## Reading the bytes and the frame back -/

/-- The envelope of one byte, in a section's timings and order. -/
def byteEnvelope (o : SectionOps) (b : Byte) : List Pulse :=
  dataEnvelope o.timings (b.setWidth 64) 8 (isSet o.msbFirst)

/-- The marks and spaces that a section matches, for the bytes `bytes`, up to its footer. -/
def sectionPulses (o : SectionOps) (bytes : List Byte) : List Pulse :=
  partPulses .mark o.hdrMark ++ partPulses .space o.hdrSpace ++ bytes.flatMap (byteEnvelope o) ++
    partPulses .mark o.footerMark

theorem length_byteEnvelope (o : SectionOps) (b : Byte) : (byteEnvelope o b).length = 16 :=
  length_dataEnvelope _ _ _ _

theorem length_bytes_envelope (o : SectionOps) (bytes : List Byte) :
    (bytes.flatMap (byteEnvelope o)).length = 16 * bytes.length := by
  rw [List.length_flatMap, funext (length_byteEnvelope o), List.map_const', List.sum_replicate, smul_eq_mul,
    Nat.mul_comm]

theorem length_sectionPulses (o : SectionOps) (bytes : List Byte) : (sectionPulses o bytes).length =
    present o.hdrMark + present o.hdrSpace + 16 * bytes.length + present o.footerMark := by
  simp only [sectionPulses, List.length_append, length_partPulses, length_bytes_envelope]

/-- A section whose footer ends the view: no entry is left for a gap (R248). -/
theorem matchSection_to_end {α : Type} {T p q r : Nat} {o : SectionOps} {E : List Nat}
    {data : Nat → Option (α × Nat)} {out : α} (hlen : requiredEntries o ≤ E.length - o.offset.toNat)
    (hheaderMark : matchPart (matchesMark T · o.hdrMark.toNat o.tol.toNat (sext o.excess)) o.hdrMark E
      o.offset.toNat = some p)
    (hheaderSpace : matchPart (matchesSpace T · o.hdrSpace.toNat o.tol.toNat (sext o.excess)) o.hdrSpace E p =
      some q)
    (hdata : data q = some (out, r))
    (hfooter : matchPart (matchesMark T · o.footerMark.toNat o.tol.toNat (sext o.excess)) o.footerMark E r =
      some E.length) :
    matchSection T o E data = some (E.length - o.offset.toNat, out) := by
  have hgap : matchGap T o E E.length = some E.length := if_neg fun h => absurd h.2 (lt_irrefl _)
  simp only [matchSection, if_neg hlen.not_gt, hheaderMark, hheaderSpace, hdata, hfooter, hgap,
    Option.bind_eq_bind, Option.bind_some]

section Frame
variable {T : Nat} {o : SectionOps} (hsymbols : ReadsOwnSymbols T o.timings o.tol.toNat o.excess.toInt)
include hsymbols

theorem matchData_byteEnvelope (b : Byte) (before after : List Nat) :
    ∃ v, matchData T o.timings o.tol.toNat (sext o.excess) (isSet o.msbFirst)
        (before ++ (ticks T (byteEnvelope o b) ++ after)) before.length 8 = some v ∧ v.setWidth 8 = b :=
  ⟨_, matchData_ticks hsymbols (b.setWidth 64) 8 (isSet o.msbFirst) before after, placeBits_byte _ b⟩

theorem matchBytes_ticks (after : List Nat) : ∀ (bytes : List Byte) (before : List Nat),
    matchBytes T o (before ++ (ticks T (bytes.flatMap (byteEnvelope o)) ++ after)) bytes.length before.length =
      some (bytes, (before ++ ticks T (bytes.flatMap (byteEnvelope o))).length)
  | [], before => by simp [matchBytes, ticks]
  | b :: bytes, before => by
    obtain ⟨v, hdata, hv⟩ := matchData_byteEnvelope hsymbols b before
      (ticks T (bytes.flatMap (byteEnvelope o)) ++ after)
    have hrest := matchBytes_ticks after bytes (before ++ ticks T (byteEnvelope o b))
    have hlen : (before ++ ticks T (byteEnvelope o b)).length = before.length + 16 := by
      rw [List.length_append, length_ticks, length_byteEnvelope]
    rw [hlen, List.append_assoc, List.append_assoc] at hrest
    rw [List.flatMap_cons, ticks_append, List.append_assoc, List.length_cons, matchBytes]
    simp only [hdata, hrest, hv]

/-- MATCH_GENERIC's core at offset 1 of a view that holds, after entry 0, the ticks of a section up to its
footer: no entry is left for a gap. -/
theorem matchGeneric_ticks {bytes : List Byte} (entry₀ : Nat) (hoffset : o.offset = 1)
    (hbits : o.nbits.toNat = 8 * bytes.length)
    (hmark : o.hdrMark ≠ 0 →
      matchesMark T (o.hdrMark.toNat / T) o.hdrMark.toNat o.tol.toNat o.excess.toInt = true)
    (hspace : o.hdrSpace ≠ 0 →
      matchesSpace T (o.hdrSpace.toNat / T) o.hdrSpace.toNat o.tol.toNat o.excess.toInt = true)
    (hfooter : o.footerMark ≠ 0 →
      matchesMark T (o.footerMark.toNat / T) o.footerMark.toNat o.tol.toNat o.excess.toInt = true) :
    matchGeneric T o (entry₀ :: ticks T (sectionPulses o bytes)) =
      some ((sectionPulses o bytes).length, bytes) := by
  have hone : o.offset.toNat = 1 := by rw [hoffset]; rfl
  have hview : entry₀ :: ticks T (sectionPulses o bytes) = [entry₀] ++ (ticks T (partPulses .mark o.hdrMark) ++
      (ticks T (partPulses .space o.hdrSpace) ++ (ticks T (bytes.flatMap (byteEnvelope o)) ++
        ticks T (partPulses .mark o.footerMark)))) := by
    simp [sectionPulses]
  have hrequired : requiredEntries o ≤ (entry₀ :: ticks T (sectionPulses o bytes)).length - o.offset.toNat := by
    simp only [requiredEntries, List.length_cons, length_ticks, length_sectionPulses]
    omega
  have hheaderMark := matchPart_ticks (test := (matchesMark T · o.hdrMark.toNat o.tol.toNat (sext o.excess)))
    (mk := .mark) (fun _ => rfl) hmark [entry₀]
    (ticks T (partPulses .space o.hdrSpace) ++
      (ticks T (bytes.flatMap (byteEnvelope o)) ++ ticks T (partPulses .mark o.footerMark)))
  have hheaderSpace := matchPart_ticks (test := (matchesSpace T · o.hdrSpace.toNat o.tol.toNat (sext o.excess)))
    (mk := .space) (fun _ => rfl) hspace
    ([entry₀] ++ ticks T (partPulses .mark o.hdrMark))
    (ticks T (bytes.flatMap (byteEnvelope o)) ++ ticks T (partPulses .mark o.footerMark))
  have hbytes := matchBytes_ticks hsymbols (ticks T (partPulses .mark o.footerMark)) bytes
    ([entry₀] ++ ticks T (partPulses .mark o.hdrMark) ++ ticks T (partPulses .space o.hdrSpace))
  have hfooterMark := matchPart_ticks (test := (matchesMark T · o.footerMark.toNat o.tol.toNat (sext o.excess)))
    (mk := .mark) (fun _ => rfl) hfooter
    ([entry₀] ++ ticks T (partPulses .mark o.hdrMark) ++ ticks T (partPulses .space o.hdrSpace) ++
      ticks T (bytes.flatMap (byteEnvelope o))) []
  simp only [List.append_assoc, List.append_nil, ← hview] at hheaderMark hheaderSpace hbytes hfooterMark
  rw [matchGeneric, if_neg (by omega), show o.nbits.toNat / 8 = bytes.length by omega,
    matchSection_to_end hrequired (hone ▸ hheaderMark) hheaderSpace hbytes hfooterMark, hone]
  simp

end Frame

/-! ## The command on a view -/

section View
variable {bank : Byte} {s : State} {E : List Nat}

theorem view_of_viewIs (h : ViewIs bank s E) : view bank s = .ok E := by
  rcases h with ⟨rfl, hstop, rfl⟩ | ⟨rfl, hvalid, rfl⟩
  · exact view_live s hstop
  · exact view_save s hvalid

theorem legalBank_of_viewIs (h : ViewIs bank s E) : legalBank bank = true := by
  rcases h with ⟨rfl, -⟩ | ⟨rfl, -⟩ <;> rfl

/-- RAWLEN and SAVE_LEN are u16 (10_state.md R34, R39). -/
theorem length_lt_of_viewIs (h : ViewIs bank s E) : E.length < 2 ^ 16 := by
  rcases h with ⟨-, -, rfl⟩ | ⟨-, -, rfl⟩ <;> rw [length_bankPrefix] <;> exact BitVec.isLt _

end View

theorem exec_matchGeneric_of_match {s : State} {o : SectionOps} {E : List Nat} {consumed : Nat}
    {bytes : List Byte} (hview : ViewIs o.bank s E) (hlast : o.isLast = 0 ∨ o.isLast = 1)
    (hmsb : o.msbFirst = 0 ∨ o.msbFirst = 1) (hmatch : matchGeneric s.params.tickUs o E = some (consumed, bytes)) :
    exec (.matchGeneric o) s = .next (withResult (.matchedBytes (BitVec.ofNat 16 consumed) bytes) s) := by
  have hwf : (Instr.matchGeneric o).wf s.params.numTimers = true := by
    simp only [Instr.wf, legalBank_of_viewIs hview, legalFlag_iff.2 hlast, legalFlag_iff.2 hmsb, Bool.and_self]
  refine (accept_of_wf (.matchGeneric o) s _ hwf).trans ?_
  simp only [withView, view_of_viewIs hview, hmatch]
  rfl

/-- Settles O58: the frame's marks and spaces are those the section matches (`matchGeneric_ticks`), and its length
fits the u16 answer because the view's does. -/
theorem matchInvertsSend : Obligations.MatchInvertsSend := by
  intro s g o entry₀ T fits pulses E hview hflag hlast hoffset hbits hmsb hhdrMark hhdrSpace htimings hfooterMark
    hmark hspace hfooter ⟨honeMark, honeSpace⟩ ⟨hzeroMark, hzeroSpace⟩ hdiffer
  have hpulses : pulses = sectionPulses o g.bytes := by
    have hbyte : byteEnvelope o = fun b => dataEnvelope g.timings (b.setWidth 64) 8 (g.msbFirst == 1) := by
      funext b
      rw [byteEnvelope, htimings, hmsb, isSet]
    rw [sectionPulses, hbyte, hhdrMark, hhdrSpace, hfooterMark]
  have hsymbols : ReadsOwnSymbols T o.timings o.tol.toNat o.excess.toInt :=
    htimings ▸ readsOwnSymbols_of_fits honeMark honeSpace hzeroMark hzeroSpace hdiffer
  have hmatch : matchGeneric T o E = some ((sectionPulses o g.bytes).length, g.bytes) := by
    have hE : E = entry₀ :: ticks T (sectionPulses o g.bytes) := hpulses ▸ rfl
    rw [hE]
    exact matchGeneric_ticks hsymbols entry₀ hoffset hbits (hhdrMark ▸ hmark) (hhdrSpace ▸ hspace)
      (hfooterMark ▸ hfooter)
  have hlen : E.length - 1 = (sectionPulses o g.bytes).length := by simp [E, hpulses]
  have hsmall := length_lt_of_viewIs hview
  refine ⟨_, ?_, exec_matchGeneric_of_match hview hlast (hmsb ▸ hflag) hmatch⟩
  rw [← hlen, BitVec.toNat_ofNat, Nat.mod_eq_of_lt (by omega)]

end Sys2Proof.Machine
end

section
/-! SUPPORT. The edge and idle-timeout handlers (spec/44_capture.md R180 to R187): what an edge records in LIVE, the
state that each of its outcomes leaves, and the race of an edge with a due timeout. -/

namespace Sys2Proof.Machine

/-! ## The entry that an edge writes -/

section Entry
variable {s : State} (hvalid : s.params.Valid) (hroom : s.rawLen.toNat < s.params.rawBufSize)

include hvalid in
/-- An entry has at least one bit (R8), so the sentinel is kept whole, and an interval is already cut. -/
theorem trunc_entry :
    trunc s.params.entryBits
        (if s.rcvState = .idle then Config.sentinel else interval s.params s.now s.lastEdge) =
      if s.rcvState = .idle then 1 else interval s.params s.now s.lastEdge := by
  split
  · exact Nat.mod_eq_of_lt (Nat.one_lt_two_pow (Nat.one_le_iff_ne_zero.1 hvalid.entry_pos))
  · exact Nat.mod_mod _ _

include hvalid hroom in
theorem rawLen_succ_toNat : (s.rawLen + 1).toNat = s.rawLen.toNat + 1 := by
  have hsize := hvalid.size_le
  exact BitVec.toNat_add_of_lt (Nat.lt_of_le_of_lt (hroom.trans_le hsize) (by decide))

variable (hwf : s.live.wf = true)

include hvalid hroom hwf in
theorem bankRead_recordEdge_same :
    bankRead (recordEdge s).live s.rawLen.toNat =
      if s.rcvState = .idle then 1 else interval s.params s.now s.lastEdge := by
  rw [recordEdge_live, bankRead_bankWrite _ _ _ _ _ hwf, if_pos ⟨rfl, hroom⟩, trunc_entry hvalid]

include hwf in
theorem bankRead_recordEdge_other {k : Nat} (hk : k ≠ s.rawLen.toNat) :
    bankRead (recordEdge s).live k = bankRead s.live k := by
  rw [recordEdge_live, bankRead_bankWrite _ _ _ _ _ hwf, if_neg fun h => hk h.1]

end Entry

/-- The interval in ticks since the edge at real time `previous`, clock wraps included (R183). -/
theorem interval_of_clock {s : State} {previous : Nat} (hle : previous ≤ s.tau)
    (hlast : s.lastEdge = (previous + s.clockOffset) % 2 ^ s.params.clockBits) :
    interval s.params s.now s.lastEdge =
      (s.tau - previous) % 2 ^ s.params.clockBits / s.params.tickUs % 2 ^ s.params.entryBits := by
  have htau : s.tau = previous + (s.tau - previous) := (Nat.add_sub_cancel' hle).symm
  have hclock : subMod s.params.clockBits s.now s.lastEdge = (s.tau - previous) % 2 ^ s.params.clockBits := by
    rw [State.now, hlast, htau, subMod_clock, ← htau]
  rw [interval, trunc, hclock]

/-! ## The outcomes of an edge -/

theorem exec_evEdge_off {s : State} (hrx : s.rxEn = false) : exec .evEdge s = .next s :=
  if_neg (ne_true_of_eq_false hrx)

section Outcomes
variable {s : State} (hrx : s.rxEn = true)
include hrx

theorem exec_evEdge_on : exec .evEdge s = .next (edgeHandler s) := if_pos hrx

/-- An edge in STOP (R182 step 3). -/
theorem exec_evEdge_held (hstop : s.rcvState = .stop) : exec .evEdge s = .next (disarm s) := by
  rw [exec_evEdge_on hrx]
  rcases edgeHandler_cases s with ⟨-, hopen, -⟩ | ⟨-, he⟩ | ⟨hopen, -⟩ | ⟨hopen, -⟩
  · exact absurd hstop hopen
  · rw [he]
  · exact absurd hstop hopen
  · exact absurd hstop hopen

variable (hopen : s.rcvState ≠ .stop)
include hopen

/-- An edge at a full bank, with P_OVERFLOW_ON_FILL false (R182 step 2). -/
theorem exec_evEdge_full (hmode : s.params.overflowOnFill = false)
    (hfull : s.params.rawBufSize ≤ s.rawLen.toNat) : exec .evEdge s = .next (setOverflow (disarm s)) := by
  rw [exec_evEdge_on hrx]
  rcases edgeHandler_cases s with ⟨-, -, -, he⟩ | ⟨hstop, -⟩ | ⟨-, -, hmode', -⟩ | ⟨-, hroom, -⟩
  · rw [he]
  · exact absurd hstop hopen
  · exact absurd (hmode'.symm.trans hmode) nofun
  · exact absurd hfull (Nat.not_le.2 (hroom.resolve_left (ne_true_of_eq_false hmode)))

/-- An edge that fills the bank, with P_OVERFLOW_ON_FILL true (R182 steps 4 to 7). -/
theorem exec_evEdge_fills (hmode : s.params.overflowOnFill = true)
    (hfull : s.params.rawBufSize ≤ (s.rawLen + 1).toNat) :
    exec .evEdge s = .next (rearm (setOverflow (recordEdge (disarm s)))) := by
  rw [exec_evEdge_on hrx]
  rcases edgeHandler_cases s with ⟨hmode', -⟩ | ⟨hstop, -⟩ | ⟨-, -, -, -, he⟩ | ⟨-, -, hmore, -⟩
  · exact absurd (hmode.symm.trans hmode') nofun
  · exact absurd hstop hopen
  · rw [he]
  · rcases hmore with hmode' | hmore
    · exact absurd (hmode.symm.trans hmode') nofun
    · exact absurd hfull (Nat.not_le.2 hmore)

/-- An edge that finds room and does not overflow the bank (R182 steps 4, 5 and 7). -/
theorem exec_evEdge_recorded (hroom : s.rawLen.toNat < s.params.rawBufSize)
    (hmore : s.params.overflowOnFill = false ∨ (s.rawLen + 1).toNat < s.params.rawBufSize) :
    exec .evEdge s = .next (rearm (recordEdge (disarm s))) := by
  rw [exec_evEdge_on hrx]
  rcases edgeHandler_cases s with ⟨-, -, hfull, -⟩ | ⟨hstop, -⟩ | ⟨-, -, hmode, hfull, -⟩ | ⟨-, -, -, he⟩
  · exact absurd hroom (Nat.not_lt.2 hfull)
  · exact absurd hstop hopen
  · rcases hmore with hmode' | hmore
    · exact absurd (hmode.symm.trans hmode') nofun
    · exact absurd hfull (Nat.not_le.2 hmore)
  · rw [he]

/-- An edge that leaves room for another is recorded in both overflow modes. -/
theorem exec_evEdge_of_room (hvalid : s.params.Valid) (hroom : s.rawLen.toNat + 1 < s.params.rawBufSize) :
    exec .evEdge s = .next (rearm (recordEdge (disarm s))) :=
  have hlt : s.rawLen.toNat < s.params.rawBufSize := Nat.lt_of_succ_lt hroom
  exec_evEdge_recorded hrx hopen hlt (.inr ((rawLen_succ_toNat hvalid hlt).trans_lt hroom))

end Outcomes

/-- Settles O17: the entry of an edge in IDLE is the sentinel. -/
theorem firstEdgeWritesTheSentinel : Obligations.FirstEdgeWritesTheSentinel := by
  intro s hrx hidle hlen hvalid hsize hwf
  have hzero : s.rawLen.toNat = 0 := by rw [hlen]; rfl
  refine ⟨rearm (recordEdge (disarm s)), exec_evEdge_of_room hrx (by simp [hidle]) hvalid (by omega), ?_,
    fun k hk => bankRead_recordEdge_other hwf (hzero ▸ hk), ?_⟩
  · have hentry := bankRead_recordEdge_same hvalid (by omega) hwf
    rwa [hzero, if_pos hidle] at hentry
  · have hone : s.rawLen + 1 = 1 := by rw [hlen]; rfl
    rw [← hone]
    rfl

/-- Settles O18: the entry of an edge in MARK is the interval, which counts the real time since the last edge. -/
theorem edgeRecordsTheInterval : Obligations.EdgeRecordsTheInterval := by
  intro s previous hrx hmark hvalid hroom hwf hle hlast
  have hlt : s.rawLen.toNat < s.params.rawBufSize := Nat.lt_of_succ_lt hroom
  refine ⟨rearm (recordEdge (disarm s)), exec_evEdge_of_room hrx (by simp [hmark]) hvalid hroom, ?_,
    fun k hk => bankRead_recordEdge_other hwf hk, rawLen_succ_toNat hvalid hlt, ?_⟩
  · have hentry := bankRead_recordEdge_same hvalid hlt hwf
    rwa [if_neg (by simp [hmark]), interval_of_clock hle hlast] at hentry
  · rw [hmark]
    rfl

/-- Settles O19: the edge that fills goes by `exec_evEdge_fills` or `exec_evEdge_recorded`, as the overflow mode
says, and an edge at a full bank by `exec_evEdge_full`. -/
theorem fullBankOverflows : Obligations.FullBankOverflows := by
  intro s hrx hvalid hwf
  refine ⟨fun hopen hlast => ?fills, fun hmode hopen hfull => exec_evEdge_full hrx hopen hmode hfull⟩
  have hlt : s.rawLen.toNat < s.params.rawBufSize := hlast ▸ Nat.lt_succ_self _
  have hlen : (s.rawLen + 1).toNat = s.params.rawBufSize := (rawLen_succ_toNat hvalid hlt).trans hlast
  have hentry := bankRead_recordEdge_same hvalid hlt hwf
  have hother := fun k hk => bankRead_recordEdge_other (k := k) hwf hk
  cases hmode : s.params.overflowOnFill with
  | true => exact ⟨_, exec_evEdge_fills hrx hopen hmode hlen.ge, hlen, hentry, hother, rfl⟩
  | false => exact ⟨_, exec_evEdge_recorded hrx hopen hlt (.inl hmode), hlen, hentry, hother, rfl⟩

/-- Settles O20. -/
theorem edgesAreIgnored : Obligations.EdgesAreIgnored :=
  fun _ => ⟨exec_evEdge_off, exec_evEdge_held⟩

/-! ## The idle timeout -/

theorem timeoutDue_iff (s : State) : timeoutDue s = true ↔ s.toArmed = true ∧ s.toDeadline ≤ s.tau := by
  simp [timeoutDue]

theorem exec_evTimeout_not_due {s : State} (h : s.toArmed = false ∨ s.tau < s.toDeadline) :
    exec .evTimeout s = .next s := by
  refine if_neg fun hdue => ?_
  obtain ⟨harmed, hreached⟩ := (timeoutDue_iff s).1 hdue
  rcases h with hoff | hearly
  · exact absurd (harmed.symm.trans hoff) nofun
  · exact absurd hreached (Nat.not_le.2 hearly)

section Due
variable {s : State} (harmed : s.toArmed = true) (hreached : s.toDeadline ≤ s.tau)
include harmed hreached

theorem exec_evTimeout_due : exec .evTimeout s = .next (timeoutHandler s) :=
  if_pos ((timeoutDue_iff s).2 ⟨harmed, hreached⟩)

theorem exec_evTimeout_empty (hempty : s.rawLen = 0) : exec .evTimeout s = .next { s with toArmed := false } := by
  rw [exec_evTimeout_due harmed hreached]
  rcases timeoutHandler_cases s with ⟨-, he⟩ | ⟨hsome, -⟩
  · rw [he]
  · exact absurd hempty hsome

theorem exec_evTimeout_stops (hsome : s.rawLen ≠ 0) :
    exec .evTimeout s = .next { s with toArmed := false, rcvState := .stop } := by
  rw [exec_evTimeout_due harmed hreached]
  rcases timeoutHandler_cases s with ⟨hempty, -⟩ | ⟨-, he⟩
  · exact absurd hempty hsome
  · rw [he]

end Due

/-- Settles O21. -/
theorem timeoutEndsTheCapture : Obligations.TimeoutEndsTheCapture :=
  fun _ => ⟨exec_evTimeout_stops, exec_evTimeout_empty, exec_evTimeout_not_due⟩

/-! ## The race of an edge and a due timeout -/

theorem step_edge {s : State} {dt : Nat} {rest : List Turn} (hrun : s.Running)
    (hs : s.schedule = ⟨dt, .edge⟩ :: rest) :
    step s = exec .evEdge { s with schedule := rest, tau := s.tau + dt } :=
  step_of_run (nextAction_edge hrun hs)

theorem step_timeout {s : State} {dt : Nat} {rest : List Turn} (hrun : s.Running)
    (hs : s.schedule = ⟨dt, .timeout⟩ :: rest) :
    step s = exec .evTimeout { s with schedule := rest, tau := s.tau + dt } :=
  step_of_run (nextAction_timeout hrun hs)

/-- A run goes on from the state that its first step answers. -/
theorem run_succ_of_step {s t : State} (h : step s = .next t) (n : Nat) : core.run (n + 1) s = core.run n t := by
  simp only [Host.Core.run, show core.step s = .next t from h]

theorem run_two {s t u : State} (hfirst : step s = .next t) (hsecond : step t = .next u) :
    core.run 2 s = .next u :=
  (run_succ_of_step hfirst 1).trans (run_succ_of_step hsecond 0)

/-- An edge or a timeout turn that comes at the present tau. -/
theorem step_edge_now {s : State} (hrun : s.Running) (rest : List Turn) :
    step { s with schedule := ⟨0, .edge⟩ :: rest } = exec .evEdge { s with schedule := rest } :=
  step_edge (s := { s with schedule := ⟨0, .edge⟩ :: rest }) hrun rfl

theorem step_timeout_now {s : State} (hrun : s.Running) (rest : List Turn) :
    step { s with schedule := ⟨0, .timeout⟩ :: rest } = exec .evTimeout { s with schedule := rest } :=
  step_timeout (s := { s with schedule := ⟨0, .timeout⟩ :: rest }) hrun rfl

/-- Settles O22: the edge moves the deadline past tau, so the timeout turn after it passes; the timeout enters STOP,
so the edge turn after it only disarms. -/
theorem edgeAndTimeoutRaceBothWays : Obligations.EdgeAndTimeoutRaceBothWays := by
  intro s rest hrun hvalid hrx hmark hsome hroom harmed hreached
  refine ⟨?edgeFirst, ?timeoutFirst⟩
  case edgeFirst =>
    let recorded : State := rearm (recordEdge (disarm s))
    have hedge : step { s with schedule := ⟨0, .edge⟩ :: ⟨0, .timeout⟩ :: rest } =
        .next { recorded with schedule := ⟨0, .timeout⟩ :: rest } :=
      (step_edge_now hrun _).trans (exec_evEdge_of_room hrx (by simp [hmark]) hvalid hroom)
    have hearly : recorded.tau < recorded.toDeadline := Nat.lt_add_of_pos_right hvalid.timeout_pos
    have htimeout : step { recorded with schedule := ⟨0, .timeout⟩ :: rest } =
        .next { recorded with schedule := rest } :=
      (step_timeout_now (s := recorded) hrun _).trans (exec_evTimeout_not_due (.inr hearly))
    exact ⟨_, run_two hedge htimeout, rfl, rawLen_succ_toNat hvalid (Nat.lt_of_succ_lt hroom), rfl⟩
  case timeoutFirst =>
    have hnonzero : s.rawLen ≠ 0 := fun h => by simp [h] at hsome
    let ended : State := { s with toArmed := false, rcvState := .stop }
    have htimeout : step { s with schedule := ⟨0, .timeout⟩ :: ⟨0, .edge⟩ :: rest } =
        .next { ended with schedule := ⟨0, .edge⟩ :: rest } :=
      (step_timeout_now hrun _).trans (exec_evTimeout_stops harmed hreached hnonzero)
    have hedge : step { ended with schedule := ⟨0, .edge⟩ :: rest } = .next (disarm { ended with schedule := rest }) :=
      (step_edge_now (s := ended) hrun _).trans (exec_evEdge_held hrx rfl)
    exact ⟨_, run_two htimeout hedge, rfl, rfl, rfl, rfl⟩

end Sys2Proof.Machine
end

section
/-! SUPPORT. A run of edges (spec/44_capture.md R182 to R184, 20_memory.md R74): the message so far, as an invariant
that each further edge extends by one entry. -/

namespace Sys2Proof.Machine

/-- The receiver is in the middle of a message: LIVE holds the entries `E`, LAST_EDGE is the clock of the present
time, and the timeout is armed from it. -/
structure Recording (s : State) (E : List Nat) : Prop where
  running : s.Running
  params_valid : s.params.Valid
  enabled : s.rxEn = true
  in_mark : s.rcvState = .mark
  live_wf : s.live.wf = true
  length : s.rawLen.toNat = E.length
  entries : bankPrefix s.live E.length = E
  last_edge : s.lastEdge = s.now
  armed : s.toArmed = true
  deadline : s.toDeadline = s.tau + s.params.timeoutUs

/-- The entry of an edge `dt` microseconds after the one before it (R183). -/
def edgeTicks (p : Params) (dt : Nat) : Nat := dt % 2 ^ p.clockBits / p.tickUs % 2 ^ p.entryBits

/-- One more entry of a bank. -/
theorem bankPrefix_succ (b : Cells) (n : Nat) : bankPrefix b (n + 1) = bankPrefix b n ++ [bankRead b n] := by
  simp [bankPrefix, List.range_succ]

/-- A recorded edge appends its entry to those before it. -/
theorem bankPrefix_recordEdge {s : State} (hvalid : s.params.Valid) (hroom : s.rawLen.toNat < s.params.rawBufSize)
    (hwf : s.live.wf = true) :
    bankPrefix (recordEdge s).live (s.rawLen.toNat + 1) = bankPrefix s.live s.rawLen.toNat ++
      [if s.rcvState = .idle then 1 else interval s.params s.now s.lastEdge] := by
  have hbefore : bankPrefix (recordEdge s).live s.rawLen.toNat = bankPrefix s.live s.rawLen.toNat :=
    List.map_congr_left fun k hk => bankRead_recordEdge_other hwf (List.mem_range.1 hk).ne
  rw [bankPrefix_succ, hbefore, bankRead_recordEdge_same hvalid hroom hwf]

/-- What an edge that is recorded leaves, in IDLE as in MARK. -/
theorem recording_rearm_recordEdge {s : State} {E : List Nat} (hrun : s.Running) (hvalid : s.params.Valid)
    (hrx : s.rxEn = true) (hwf : s.live.wf = true) (hroom : s.rawLen.toNat < s.params.rawBufSize)
    (hlen : s.rawLen.toNat = E.length) (hentries : bankPrefix s.live E.length = E) :
    Recording (rearm (recordEdge (disarm s)))
      (E ++ [if s.rcvState = .idle then 1 else interval s.params s.now s.lastEdge]) where
  running := hrun
  params_valid := hvalid
  enabled := hrx
  in_mark := rfl
  live_wf := bankWrite_wf _ _ _ _ hwf
  length := (rawLen_succ_toNat hvalid hroom).trans (by rw [hlen, List.length_append, List.length_singleton])
  entries := by
    have happend := bankPrefix_recordEdge hvalid hroom hwf
    rw [hlen, hentries] at happend
    rw [List.length_append, List.length_singleton]
    exact happend
  last_edge := rfl
  armed := rfl
  deadline := rfl

/-- What a run of edges from `s` to `t` keeps, and the time it takes. -/
structure EdgesKeep (s t : State) (elapsed : Nat) (rest : List Turn) : Prop where
  params : t.params = s.params
  overflow : t.overflow = s.overflow
  tau : t.tau = s.tau + elapsed
  schedule : t.schedule = rest

/-- The first edge of a message. -/
theorem step_first_edge {s : State} {dt : Nat} {rest : List Turn} (hrun : s.Running) (hvalid : s.params.Valid)
    (hrx : s.rxEn = true) (hidle : s.rcvState = .idle) (hempty : s.rawLen = 0) (hwf : s.live.wf = true)
    (hsize : 1 < s.params.rawBufSize) (hs : s.schedule = ⟨dt, .edge⟩ :: rest) :
    ∃ t, step s = .next t ∧ Recording t [1] ∧ EdgesKeep s t dt rest := by
  have hzero : s.rawLen.toNat = 0 := by rw [hempty]; rfl
  let u : State := { s with schedule := rest, tau := s.tau + dt }
  have hrec := recording_rearm_recordEdge (s := u) (E := []) hrun hvalid hrx hwf
    (Nat.lt_of_succ_lt (hzero.symm ▸ hsize)) hzero rfl
  rw [if_pos hidle] at hrec
  exact ⟨_, (step_edge hrun hs).trans
    (exec_evEdge_of_room (s := u) hrx (by simp [u, hidle]) hvalid (hzero.symm ▸ hsize)), hrec, rfl, rfl, rfl, rfl⟩

/-- A further edge of a message. -/
theorem Recording.step_further_edge {s : State} {E : List Nat} {dt : Nat} {rest : List Turn} (h : Recording s E)
    (hroom : E.length + 1 < s.params.rawBufSize) (hs : s.schedule = ⟨dt, .edge⟩ :: rest) :
    ∃ t, step s = .next t ∧ Recording t (E ++ [edgeTicks s.params dt]) ∧ EdgesKeep s t dt rest := by
  let u : State := { s with schedule := rest, tau := s.tau + dt }
  have hmark : u.rcvState = .mark := h.in_mark
  have hlen : u.rawLen.toNat + 1 < u.params.rawBufSize := h.length.symm ▸ hroom
  have hticks : interval u.params u.now u.lastEdge = edgeTicks s.params dt := by
    rw [interval_of_clock (s := u) (Nat.le_add_right s.tau dt) h.last_edge, edgeTicks,
      show u.tau - s.tau = dt from Nat.add_sub_cancel_left _ _]
  have hrec := recording_rearm_recordEdge (s := u) h.running h.params_valid h.enabled h.live_wf
    (Nat.lt_of_succ_lt hlen) h.length h.entries
  rw [if_neg (by simp [hmark]), hticks] at hrec
  exact ⟨_, (step_edge h.running hs).trans
    (exec_evEdge_of_room (s := u) h.enabled (by simp [hmark]) h.params_valid hlen), hrec, rfl, rfl, rfl, rfl⟩

/-- The further edges of a message, by induction on their number. -/
theorem Recording.run_edges {rest : List Turn} (later : List Nat) {s : State} {E : List Nat} (h : Recording s E)
    (hroom : E.length + later.length < s.params.rawBufSize)
    (hs : s.schedule = later.map (fun dt => ⟨dt, .edge⟩) ++ rest) :
    ∃ t, core.run later.length s = .next t ∧ Recording t (E ++ later.map (edgeTicks s.params)) ∧
      EdgesKeep s t later.sum rest := by
  induction later generalizing s E with
  | nil => exact ⟨s, rfl, by simpa using h, rfl, rfl, rfl, hs⟩
  | cons dt later ih =>
    rw [List.length_cons] at hroom
    obtain ⟨u, hstep, hu, hkeep⟩ := h.step_further_edge (by omega) hs
    obtain ⟨t, hrun, ht, hkeep'⟩ := ih hu
      (by rw [hkeep.params, List.length_append, List.length_singleton]; omega) hkeep.schedule
    refine ⟨t, (run_succ_of_step hstep _).trans hrun, ?_, hkeep'.params.trans hkeep.params,
      hkeep'.overflow.trans hkeep.overflow, ?_, hkeep'.schedule⟩
    · simpa [hkeep.params] using ht
    · rw [hkeep'.tau, hkeep.tau, List.sum_cons, Nat.add_assoc]

/-- Settles O29: the first edge begins a recording, and the others extend it. -/
theorem captureRecordsTheEdges : Obligations.CaptureRecordsTheEdges := by
  intro s first later rest hrun hvalid hrx hidle hempty hwf hroom hs
  obtain ⟨u, hstep, hu, hkeep⟩ := step_first_edge hrun hvalid hrx hidle hempty hwf (by omega) hs
  obtain ⟨t, hlater, ht, hkeep'⟩ := hu.run_edges later (by rw [hkeep.params, List.length_singleton]; omega)
    hkeep.schedule
  have hparams : t.params = s.params := hkeep'.params.trans hkeep.params
  have hE : [1] ++ later.map (edgeTicks u.params) = 1 :: later.map (edgeTicks s.params) := by
    rw [hkeep.params]; rfl
  rw [hE] at ht
  have hlen : (1 :: later.map (edgeTicks s.params)).length = later.length + 1 := by simp
  refine ⟨t, (run_succ_of_step hstep _).trans hlater, ht.in_mark, hkeep'.overflow.trans hkeep.overflow,
    ht.length.trans hlen, hlen ▸ ht.entries, ?_, ht.armed, hparams ▸ ht.deadline, hkeep'.schedule⟩
  rw [hkeep'.tau, hkeep.tau, List.sum_cons, Nat.add_assoc]

end Sys2Proof.Machine
end

section
/-! SUPPORT. The capture commands (spec/44_capture.md R189 to R198): what RX_ENABLE, RX_DISABLE, RESUME, RX_STATUS and
DECODE answer, and that the dispatcher's answer is the one of R196 to R198. -/

namespace Sys2Proof.Machine

/-! ## Capture control -/

theorem exec_rxEnable (s : State) :
    exec .rxEnable s = .next (withResult .done (disarm (resumeCapture { s with rxEn := true }))) :=
  accept_of_wf .rxEnable s _ rfl

theorem exec_rxDisable (s : State) :
    exec .rxDisable s = .next (withResult .done (disarm { s with rxEn := false })) :=
  accept_of_wf .rxDisable s _ rfl

theorem exec_resume (s : State) : exec .resume s = .next (withResult .done (resumeCapture s)) :=
  accept_of_wf .resume s _ rfl

theorem exec_rxStatus (s : State) :
    exec .rxStatus s =
      .next (withResult (.status s.rxEn (BitVec.ofNat 8 s.rcvState.code) s.rawLen s.overflow) s) :=
  accept_of_wf .rxStatus s _ rfl

/-- RESUME of a state that RESUME has answered writes nothing new. -/
theorem resumeCapture_withResult_resumeCapture (r : Result) (s : State) :
    resumeCapture (withResult r (resumeCapture s)) = withResult r (resumeCapture s) := rfl

/-- Settles O14: the packet is RESUME's encoding (`decodeOfEncode`). -/
theorem resumeDiscardsTheCapture : Obligations.ResumeDiscardsTheCapture := by
  refine ⟨decodeOfEncode .resume, fun s => ⟨exec_resume s, fun t u ht hu => ?_⟩⟩
  cases (exec_resume s).symm.trans ht
  cases (exec_resume _).symm.trans hu
  rw [resumeCapture_withResult_resumeCapture]
  rfl

/-- Settles O15. -/
theorem receiverIsTurnedOnAndOff : Obligations.ReceiverIsTurnedOnAndOff :=
  fun s => ⟨exec_rxEnable s, exec_rxDisable s⟩

/-- The codes of RCVSTATE tell its three values apart (10_state.md R33). -/
theorem rcvState_code_byte (r : RcvState) :
    (r = .idle ↔ (BitVec.ofNat 8 r.code : Byte) = 0) ∧ (r = .mark ↔ (BitVec.ofNat 8 r.code : Byte) = 1) ∧
      (r = .stop ↔ (BitVec.ofNat 8 r.code : Byte) = 2) := by
  cases r <;> decide

/-- Settles O16. -/
theorem statusReportsTheRegisters : Obligations.StatusReportsTheRegisters :=
  fun s => ⟨_, exec_rxStatus s, rcvState_code_byte s.rcvState⟩

/-! ## The dispatcher -/

theorem firstMessage_eq_none {decoders E : List Nat} (h : ∀ k ∈ decoders, Config.protocolDecoder k E = none) :
    firstMessage decoders E = none :=
  List.findSome?_eq_none_iff.2 h

theorem firstMessage_append {before after E : List Nat} {n : Nat} {m : Message}
    (hbefore : ∀ k ∈ before, Config.protocolDecoder k E = none) (hn : Config.protocolDecoder n E = some m) :
    firstMessage (before ++ n :: after) E = some m := by
  have hskip : before.findSome? (fun k => Config.protocolDecoder k E) = none := firstMessage_eq_none hbefore
  simp only [firstMessage, List.findSome?_append, hskip, List.findSome?_cons, hn, Option.none_or]

theorem dispatchView_of_message {p : Params} {E : List Nat} {m : Message}
    (h : firstMessage p.decoders E = some m) : dispatchView p E = some m := by
  rw [dispatchView, h]

theorem dispatchView_of_no_message {p : Params} {E : List Nat} (h : firstMessage p.decoders E = none) :
    dispatchView p E = (hashCore p.hashFold E).map fun r => hashMessage r.1 r.2 := by
  rw [dispatchView, h]

theorem hashCore_of_length_ge (fold : HashFold) {E : List Nat} (h : 6 ≤ E.length) :
    hashCore fold E =
      some ((compareSequence E).foldl (foldHash fold) Config.fnvBasis, BitVec.ofNat 16 (E.length / 2)) :=
  if_neg (Nat.not_lt.2 h)

theorem hashCore_of_length_lt (fold : HashFold) {E : List Nat} (h : E.length < 6) : hashCore fold E = none :=
  if_pos h

/-- The record of what the dispatcher finds is the answer of R196 to R198. -/
theorem decodedAs_dispatchView (p : Params) (E : List Nat) (overflow : Bool) (len : U16) (bank : Byte) :
    DecodedAs p E overflow len bank ((dispatchView p E).map fun m => ⟨m, overflow, len, bank⟩) := by
  refine ⟨fun before n after m hsplit hbefore hn => ?known, fun hnone hlen => ?hashed, fun hnone hlen => ?short⟩
  case known => rw [dispatchView_of_message (hsplit ▸ firstMessage_append hbefore hn)]; rfl
  case hashed =>
    rw [dispatchView_of_no_message (firstMessage_eq_none hnone), hashCore_of_length_ge _ hlen]
    rfl
  case short =>
    rw [dispatchView_of_no_message (firstMessage_eq_none hnone), hashCore_of_length_lt _ hlen]
    rfl

/-! ## DECODE -/

theorem exec_decode_not_ready {s : State} {save : Byte} (hflag : save = 0 ∨ save = 1) (hopen : s.rcvState ≠ .stop) :
    exec (.decode save) s = .next (withResult (.decoded none) s) :=
  (accept_of_wf (.decode save) s _ (legalFlag_iff.2 hflag)).trans (if_neg hopen)

section Ready
variable {s : State} (hstop : s.rcvState = .stop)
include hstop

theorem exec_decode_in_place :
    exec (.decode 0) s =
      .next (withResult (.decoded ((dispatchView s.params (bankPrefix s.live s.rawLen.toNat)).map
        fun m => ⟨m, s.overflow, s.rawLen, 0⟩)) s) :=
  (accept_of_wf (.decode 0) s _ rfl).trans (if_pos hstop)

/-- The copy holds the entries of LIVE, so the answer is that of LIVE. -/
theorem exec_decode_copy (hstore : StoreInv s) (hlen : s.rawLen.toNat ≤ s.params.rawBufSize) :
    exec (.decode 1) s =
      .next (withResult (.decoded ((dispatchView s.params (bankPrefix s.live s.rawLen.toNat)).map
        fun m => ⟨m, s.overflow, s.rawLen, 1⟩)) (copyAndResume s)) := by
  obtain ⟨-, hsave, -, -⟩ := (memory_wf_iff s).1 hstore.wf
  rw [← bankPrefix_bankCopy s.params s.live s.save s.rawLen.toNat hsave hlen fun c hc => (hstore.live_bounds c hc).2]
  exact (accept_of_wf (.decode 1) s _ rfl).trans (if_pos hstop)

end Ready

/-- An entry that is copied is that of LIVE, and the others of SAVE stay. -/
theorem bankRead_copyAndResume_save {s : State} (hstore : StoreInv s) (hlen : s.rawLen.toNat ≤ s.params.rawBufSize)
    (k : Nat) :
    bankRead (copyAndResume s).save k = if k < s.rawLen.toNat then bankRead s.live k else bankRead s.save k := by
  obtain ⟨-, hsave, -, -⟩ := (memory_wf_iff s).1 hstore.wf
  have hentry : trunc s.params.entryBits (bankRead s.live k) = bankRead s.live k :=
    Nat.mod_eq_of_lt (Cells.read_lt _ (Nat.two_pow_pos _) s.live k fun c hc => (hstore.live_bounds c hc).2)
  have hcopied : k < s.rawLen.toNat ∧ k < s.params.rawBufSize ↔ k < s.rawLen.toNat :=
    and_iff_left_of_imp fun hk => hk.trans_le hlen
  refine (bankRead_bankCopy s.params s.live s.rawLen.toNat s.save k hsave).trans ?_
  simp only [hcopied, hentry]

/-- Settles O25. -/
theorem decodeIsNotReady : Obligations.DecodeIsNotReady :=
  fun _ _ hflag hopen => exec_decode_not_ready hflag hopen

/-- Settles O26: the copy by `bankRead_copyAndResume_save`, the answer by `decodedAs_dispatchView`. -/
theorem decodeCopiesAndResumes : Obligations.DecodeCopiesAndResumes := by
  intro s hstop hlen hstore
  have hcopy := bankRead_copyAndResume_save hstore hlen
  exact ⟨_, _, exec_decode_copy hstop hstore hlen, fun k hk => (hcopy k).trans (if_pos hk),
    fun k hk => (hcopy k).trans (if_neg (Nat.not_lt.2 hk)), decodedAs_dispatchView _ _ _ _ _, rfl⟩

/-- Settles O27: the answer by `decodedAs_dispatchView`. -/
theorem decodeInPlaceKeepsTheCapture : Obligations.DecodeInPlaceKeepsTheCapture :=
  fun _ hstop => ⟨_, decodedAs_dispatchView _ _ _ _ _, exec_decode_in_place hstop⟩

end Sys2Proof.Machine
end

section
/-! SUPPORT. The tolerance matching engine (spec/45_matcher.md R220 to R228): what its commands answer, the tick
bounds as the document's rational formulas, their order, and the verdicts. -/

namespace Sys2Proof.Machine

/-! ## What the commands answer -/

theorem exec_ticksLow (usecs : S64) (tol : Byte) (s : State) :
    exec (.ticksLow usecs tol) s = respondTicks (ticksLow s.params.tickUs usecs.toInt tol.toNat) s :=
  accept_of_wf (.ticksLow usecs tol) s _ rfl

theorem exec_ticksHigh (usecs : S64) (tol : Byte) (s : State) :
    exec (.ticksHigh usecs tol) s = respondTicks (ticksHigh s.params.tickUs usecs.toInt tol.toNat) s :=
  accept_of_wf (.ticksHigh usecs tol) s _ rfl

section Verdicts
variable (measured desired : U32) (tol : Byte) (excess : S16) (s : State)

theorem exec_matchTicks :
    exec (.matchTicks measured desired tol) s = .next (withResult
      (.verdict (matchesTicks s.params.tickUs measured.toNat desired.toNat tol.toNat)) s) :=
  accept_of_wf (.matchTicks measured desired tol) s _ rfl

theorem exec_matchMark :
    exec (.matchMark measured desired tol excess) s = .next (withResult
      (.verdict (matchesMark s.params.tickUs measured.toNat desired.toNat tol.toNat excess.toInt)) s) :=
  accept_of_wf (.matchMark measured desired tol excess) s _ rfl

theorem exec_matchSpace :
    exec (.matchSpace measured desired tol excess) s = .next (withResult
      (.verdict (matchesSpace s.params.tickUs measured.toNat desired.toNat tol.toNat excess.toInt)) s) :=
  accept_of_wf (.matchSpace measured desired tol excess) s _ rfl

theorem exec_matchAtLeast :
    exec (.matchAtLeast measured desired tol excess) s = .next (withResult
      (.verdict (matchesAtLeast s.params.tickUs measured.toNat desired.toNat tol.toNat excess.toInt)) s) :=
  accept_of_wf (.matchAtLeast measured desired tol excess) s _ rfl

end Verdicts

/-- A bound that fits an s64 is the answer, and no free value is drawn. -/
theorem respondTicks_of_fits {v : Int} (hlow : -2 ^ 63 ≤ v) (hhigh : v < 2 ^ 63) (s : State) :
    ∃ w : S64, respondTicks v s = .next (withResult (.ticks w) s) ∧ w.toInt = v := by
  rcases respondTicks_cases v s with ⟨-, -, hanswer, hvalue⟩ | ⟨houtside, -⟩
  · exact ⟨_, hanswer, hvalue⟩
  · omega

/-- A bound outside s64 is answered by a free value (log 9). -/
theorem respondTicks_of_outside {v : Int} (houtside : v < -2 ^ 63 ∨ 2 ^ 63 ≤ v) (s : State) :
    ∃ w : S64, respondTicks v s = .next (withResult (.ticks w) (spendDraw s)) := by
  rcases respondTicks_cases v s with ⟨hlow, hhigh, -, -⟩ | ⟨-, hanswer⟩
  · omega
  · exact ⟨_, hanswer⟩

/-! ## The bounds as the document's formulas -/

theorem floorDiv_eq_floor (a : Int) (b : Nat) : floorDiv a b = ⌊(a : ℚ) / (b : ℚ)⌋ :=
  (Rat.floor_intCast_div_natCast a b).symm

theorem ceilDiv_eq_ceil (a : Int) (b : Nat) : ceilDiv a b = ⌈(a : ℚ) / (b : ℚ)⌉ :=
  (Rat.ceil_intCast_div_natCast a b).symm

/-- R220: the percentage over the common denominator `100 * T`. -/
theorem ticksLow_eq_floor {T : Nat} (hT : 1 ≤ T) (usecs : Int) (tol : Nat) :
    ticksLow T usecs tol = max 0 ⌊(usecs : ℚ) * (1 - (tol : ℚ) / 100) / (T : ℚ)⌋ := by
  have hne : (T : ℚ) ≠ 0 := Nat.cast_ne_zero.2 (by omega)
  have hfraction : (usecs : ℚ) * (1 - (tol : ℚ) / 100) / (T : ℚ) =
      ((usecs * (100 - (tol : Int)) : Int) : ℚ) / ((100 * T : Nat) : ℚ) := by
    push_cast
    field_simp
  rw [hfraction, ← floorDiv_eq_floor, Nat.cast_mul]
  rfl

/-- R221: the percentage over the common denominator `100 * T`. -/
theorem ticksHigh_eq_ceil {T : Nat} (hT : 1 ≤ T) (usecs : Int) (tol : Nat) :
    ticksHigh T usecs tol = ⌈(usecs : ℚ) * (1 + (tol : ℚ) / 100) / (T : ℚ)⌉ + 1 := by
  have hne : (T : ℚ) ≠ 0 := Nat.cast_ne_zero.2 (by omega)
  have hfraction : (usecs : ℚ) * (1 + (tol : ℚ) / 100) / (T : ℚ) =
      ((usecs * (100 + (tol : Int)) : Int) : ℚ) / ((100 * T : Nat) : ℚ) := by
    push_cast
    field_simp
  rw [hfraction, ← ceilDiv_eq_ceil, Nat.cast_mul]
  rfl

theorem ticksLow_nonneg (T : Nat) (usecs : Int) (tol : Nat) : 0 ≤ ticksLow T usecs tol := le_max_left _ _

/-- Settles O49: the bounds by `ticksLow_eq_floor` and `ticksHigh_eq_ceil`, the answer by whether they fit. -/
theorem tickBoundsAreFloorAndCeiling : Obligations.TickBoundsAreFloorAndCeiling := by
  intro s usecs tol hT low high
  have hlow : ticksLow s.params.tickUs usecs.toInt tol.toNat = low := ticksLow_eq_floor hT _ _
  have hhigh : ticksHigh s.params.tickUs usecs.toInt tol.toNat = high := ticksHigh_eq_ceil hT _ _
  have hnonneg : 0 ≤ low := hlow ▸ ticksLow_nonneg _ _ _
  rw [exec_ticksLow, exec_ticksHigh, hlow, hhigh]
  exact ⟨fun hfits => respondTicks_of_fits (by omega) hfits s, fun hlarge => respondTicks_of_outside (.inr hlarge) s,
    fun hmin hmax => respondTicks_of_fits hmin hmax s, fun houtside => respondTicks_of_outside houtside s⟩

/-! ## The verdicts as comparisons -/

/-- A target that is a duration is never negative, so R222 compares only. -/
theorem matchesTicks_iff {T : Nat} (hT : 1 ≤ T) (measured desired tol : Nat) :
    matchesTicks T measured desired tol = true ↔
      (desired : Int) * (100 - (tol : Int)) < ((measured : Int) + 1) * (100 * (T : Int)) ∧
        ((measured : Int) - 2) * (100 * (T : Int)) < (desired : Int) * (100 + (tol : Int)) :=
  (withinBounds_iff T hT measured desired tol).trans (and_iff_right (Int.natCast_nonneg desired))

theorem matchesAtLeast_iff {T : Nat} (hT : 1 ≤ T) (measured desired tol : Nat) (excess : Int) :
    matchesAtLeast T measured desired tol excess = true ↔
      ((desired : Int) - excess) * (100 - (tol : Int)) < ((measured : Int) + 1) * (100 * (T : Int)) :=
  decide_eq_true_iff.trans (ticksLow_le_iff T hT _ tol measured)

/-- Settles O50: each command answers its matcher's verdict, which compares as `withinBounds_iff` or
`ticksLow_le_iff` says. -/
theorem verdictsAreExactComparisons : Obligations.VerdictsAreExactComparisons :=
  ⟨fun s measured desired tol excess hT =>
    ⟨⟨_, exec_matchTicks measured desired tol s, matchesTicks_iff hT _ _ _⟩,
      ⟨_, exec_matchMark measured desired tol excess s, withinBounds_iff _ hT _ _ _⟩,
      ⟨_, exec_matchSpace measured desired tol excess s, withinBounds_iff _ hT _ _ _⟩,
      ⟨_, exec_matchAtLeast measured desired tol excess s, matchesAtLeast_iff hT _ _ _ _⟩⟩,
    fun T measured desired tol excess hT =>
      ⟨withinBounds_iff T hT measured _ tol, withinBounds_iff T hT measured _ tol,
        matchesAtLeast_iff hT measured desired tol excess⟩⟩

/-! ## The boundary of the tolerance -/

/-- MATCH accepts exactly the counts from one bound to the other. -/
theorem matchesTicks_iff_between (T measured desired tol : Nat) :
    matchesTicks T measured desired tol = true ↔
      ticksLow T desired tol ≤ (measured : Int) ∧ (measured : Int) ≤ ticksHigh T desired tol := by
  simp [matchesTicks, withinBounds]

theorem floorDiv_le_ceilDiv {a c b : Int} (hb : 0 < b) (hac : a ≤ c) : floorDiv a b ≤ ceilDiv c b := by
  have hc : c ≤ ceilDiv c b * b := by
    have h := (le_ceilDiv_iff c b (ceilDiv c b + 1) hb).not.1 (by omega)
    rwa [not_lt, add_sub_cancel_right] at h
  rw [floorDiv_le_iff _ _ _ hb]
  linarith

/-- For a duration the interval of R222 is never empty: the formula of R220 is at most that of R221. -/
theorem ticksLow_le_ticksHigh {T : Nat} (hT : 1 ≤ T) (desired tol : Nat) :
    ticksLow T desired tol ≤ ticksHigh T desired tol := by
  have hb : (0 : Int) < 100 * (T : Int) := by omega
  have hnonneg : (0 : Int) ≤ (desired : Int) * (tol : Int) := by positivity
  have hzero : 0 ≤ ceilDiv ((desired : Int) * (100 + (tol : Int))) (100 * (T : Int)) :=
    (le_ceilDiv_iff _ _ _ hb).2 (by linarith)
  have hordered : floorDiv ((desired : Int) * (100 - (tol : Int))) (100 * (T : Int)) ≤
      ceilDiv ((desired : Int) * (100 + (tol : Int))) (100 * (T : Int)) := floorDiv_le_ceilDiv hb (by linarith)
  rw [ticksLow, ticksHigh, max_le_iff]
  omega

/-- Settles O51: MATCH accepts the counts between the bounds, and the bounds are in order. -/
theorem toleranceBoundary : Obligations.ToleranceBoundary := by
  intro T d t hT _ _ low high hlow hhigh
  have hordered := ticksLow_le_ticksHigh hT d t
  simp only [← Bool.not_eq_true, matchesTicks_iff_between, ← hlow, ← hhigh] at hordered ⊢
  omega

end Sys2Proof.Machine
end

section
/-! SUPPORT. MATCH_DATA (spec/46_decoder.md R240 to R244): what a pair of entries stands for, and what the command
answers on a view. -/

namespace Sys2Proof.Machine

/-! ## A pair of entries -/

section Pair
variable {T tol : Nat} {t : BitTimings} {excess : Int} {mark space : Nat}

/-- The pair matches the symbol of the bit `b`. -/
def FitsSymbol (T : Nat) (t : BitTimings) (tol : Nat) (excess : Int) (mark space : Nat) (b : Bool) : Prop :=
  matchesMark T mark (symbolMark t b).toNat tol excess = true ∧
    matchesSpace T space (symbolSpace t b).toNat tol excess = true

theorem classify_of_one (hone : FitsSymbol T t tol excess mark space true) :
    classify T t tol excess mark space = some true :=
  if_pos ((Bool.and_eq_true _ _).mpr hone)

/-- The one symbol is tried first (R240), so it must fail. -/
theorem classify_of_zero (hone : ¬FitsSymbol T t tol excess mark space true)
    (hzero : FitsSymbol T t tol excess mark space false) : classify T t tol excess mark space = some false :=
  (if_neg fun h => hone ((Bool.and_eq_true _ _).mp h)).trans (if_pos ((Bool.and_eq_true _ _).mpr hzero))

theorem classify_of_neither (hone : ¬FitsSymbol T t tol excess mark space true)
    (hzero : ¬FitsSymbol T t tol excess mark space false) : classify T t tol excess mark space = none :=
  (if_neg fun h => hone ((Bool.and_eq_true _ _).mp h)).trans (if_neg fun h => hzero ((Bool.and_eq_true _ _).mp h))

theorem classify_iff :
    (classify T t tol excess mark space = some true ↔ FitsSymbol T t tol excess mark space true) ∧
      (classify T t tol excess mark space = some false ↔
        ¬FitsSymbol T t tol excess mark space true ∧ FitsSymbol T t tol excess mark space false) ∧
      (classify T t tol excess mark space = none ↔
        ¬FitsSymbol T t tol excess mark space true ∧ ¬FitsSymbol T t tol excess mark space false) := by
  by_cases hone : FitsSymbol T t tol excess mark space true
  · simp [classify_of_one hone, hone]
  by_cases hzero : FitsSymbol T t tol excess mark space false
  · simp [classify_of_zero hone hzero, hone, hzero]
  · simp [classify_of_neither hone hzero, hone, hzero]

end Pair

/-! ## The command on a view -/

/-- A legal command on a bank that may be read has its effect on the bank's entries. -/
theorem accept_withView_of_viewIs {i : Instr} {bank : Byte} {s : State} {E : List Nat} {body : List Nat → Outcome}
    (hwf : i.wf s.params.numTimers = true) (hview : ViewIs bank s E) :
    accept i s (withView bank s body) = body E := by
  rw [accept_of_wf i s _ hwf, withView, view_of_viewIs hview]

section Command
variable {s : State} {o : MatchDataOps} {E : List Nat} (hview : ViewIs o.bank s E)
  (hmsb : o.msbFirst = 0 ∨ o.msbFirst = 1)
include hview hmsb

theorem matchData_wf : (Instr.matchData o).wf s.params.numTimers = true := by
  simp only [Instr.wf, legalBank_of_viewIs hview, legalFlag_iff.2 hmsb, Bool.and_self]

theorem exec_matchData_of_some {v : U64}
    (hdata : matchData s.params.tickUs o.timings o.tol.toNat o.excess.toInt (isSet o.msbFirst) E o.offset.toNat
      o.nbits.toNat = some v) :
    exec (.matchData o) s =
      .next (withResult (.matchedData true (BitVec.ofNat 16 (2 * o.nbits.toNat)) v) s) := by
  refine (accept_withView_of_viewIs (matchData_wf hview hmsb) hview).trans ?_
  simp only [sext, hdata]
  rfl

theorem exec_matchData_of_none
    (hdata : matchData s.params.tickUs o.timings o.tol.toNat o.excess.toInt (isSet o.msbFirst) E o.offset.toNat
      o.nbits.toNat = none) :
    exec (.matchData o) s = .next (withResult
      (.matchedData false (Config.freeBits 16 s.draws) (Config.freeBits 64 s.draws)) (spendDraw s)) := by
  refine (accept_withView_of_viewIs (matchData_wf hview hmsb) hview).trans ?_
  simp only [sext, hdata]
  rfl

end Command

/-! ## Its core on the bits of a view -/

section Bits
variable {T : Nat} {t : BitTimings} {tol : Byte} {excess : S16} {msbFirst : Bool} {E : List Nat} {p : Nat}

theorem matchData_of_bitAt {bits : List Bool} (hlen : p + 2 * bits.length ≤ E.length)
    (hbits : ∀ i (h : i < bits.length), bitAt T t tol excess E (p + 2 * i) = some bits[i]) :
    matchData T t tol.toNat excess.toInt msbFirst E p bits.length =
      some (BitVec.ofNat 64 (bitsValue msbFirst bits)) :=
  (matchData_of_bits T t tol.toNat excess.toInt msbFirst E p bits hlen hbits).trans
    (congrArg some (placeBits_eq_bitsValue msbFirst bits))

theorem matchData_of_bitAt_eq_none {n i : Nat} (hi : i < n) (hnone : bitAt T t tol excess E (p + 2 * i) = none) :
    matchData T t tol.toNat excess.toInt msbFirst E p n = none :=
  matchData_eq_none T t tol.toNat excess.toInt msbFirst E p n i hi hnone

theorem matchData_of_short {n : Nat} (hshort : E.length < p + 2 * n) :
    matchData T t tol.toNat excess.toInt msbFirst E p n = none :=
  if_pos hshort

end Bits

/-- Settles O53: a pair is the one symbol, else the zero symbol, else neither (`classify_iff`); the bits
are read by `matchData_of_bitAt`, and twice their number fits a u16 because the view's length does. -/
theorem matchDataReadsTheBits : Obligations.MatchDataReadsTheBits := by
  refine ⟨fun T t tol excess E p => ?pair, fun s o E bits hview hmsb hcount hlen hbits => ?answer⟩
  case pair => exact classify_iff
  case answer =>
    have hsmall := length_lt_of_viewIs hview
    refine ⟨_, ?_, exec_matchData_of_some hview hmsb (hcount ▸ matchData_of_bitAt (hcount.symm ▸ hlen) hbits)⟩
    rw [BitVec.toNat_ofNat, Nat.mod_eq_of_lt (by omega)]

/-- Settles O54: either reason makes MATCH_DATA's core fail. -/
theorem matchDataFails : Obligations.MatchDataFails := by
  rintro s o E hview hmsb (hshort | ⟨i, hi, hnone⟩)
  · exact ⟨_, _, exec_matchData_of_none hview hmsb (matchData_of_short hshort)⟩
  · exact ⟨_, _, exec_matchData_of_none hview hmsb (matchData_of_bitAt_eq_none hi hnone)⟩

end Sys2Proof.Machine
end

section
/-! SUPPORT. Sections (spec/46_decoder.md R245 to R250): the bytes of MATCH_GENERIC, when a section is matched, what
it consumes, and what the two section commands answer on a view. -/

namespace Sys2Proof.Machine

/-! ## The bytes of a section -/

/-- The bytes that bits stand for, 8 bits each in arrival order (R247). -/
def bytesOfBits (msbFirst : Bool) (n : Nat) (bits : List Bool) : List Byte :=
  (List.range n).map fun k => BitVec.ofNat 8 (bitsValue msbFirst ((bits.drop (8 * k)).take 8))

theorem bytesOfBits_succ (msbFirst : Bool) (n : Nat) (bits : List Bool) :
    bytesOfBits msbFirst (n + 1) bits =
      BitVec.ofNat 8 (bitsValue msbFirst (bits.take 8)) :: bytesOfBits msbFirst n (bits.drop 8) := by
  simp [bytesOfBits, List.range_succ_eq_map, Nat.mul_add, Nat.add_comm]

section Bytes
variable {T : Nat} {o : SectionOps} {E : List Nat}

theorem matchBytes_of_bitAt : ∀ (n p : Nat) (bits : List Bool), bits.length = 8 * n → p + 16 * n ≤ E.length →
    (∀ i (h : i < bits.length), bitAt T o.timings o.tol o.excess E (p + 2 * i) = some bits[i]) →
    matchBytes T o E n p = some (bytesOfBits (isSet o.msbFirst) n bits, p + 16 * n)
  | 0, _, _, _, _, _ => rfl
  | n + 1, p, bits, hcount, hlen, hbits => by
    have htake : (bits.take 8).length = 8 := by rw [List.length_take]; omega
    have hdrop : (bits.drop 8).length = 8 * n := by rw [List.length_drop]; omega
    have hbyte : matchData T o.timings o.tol.toNat (sext o.excess) (isSet o.msbFirst) E p 8 = _ :=
      htake ▸ matchData_of_bitAt (bits := bits.take 8) (by omega) fun i hi =>
        (hbits i (by omega)).trans (congrArg some List.getElem_take.symm)
    have hrest := matchBytes_of_bitAt n (p + 16) (bits.drop 8) hdrop (by omega) fun i hi => by
      rw [List.getElem_drop, ← hbits (8 + i) (by omega)]
      congr 1
      omega
    have hcut (v : Nat) : (BitVec.ofNat 64 v).setWidth 8 = BitVec.ofNat 8 v := by
      refine BitVec.eq_of_toNat_eq ?_
      simp only [BitVec.toNat_setWidth, BitVec.toNat_ofNat]
      omega
    simp only [matchBytes, hbyte, hrest, hcut, bytesOfBits_succ, Nat.mul_add, Nat.add_assoc, Nat.add_comm 16]

/-- A byte is 8 pairs of entries. -/
theorem matchBytes_end : ∀ {n p q : Nat} {bytes : List Byte},
    matchBytes T o E n p = some (bytes, q) → q = p + 16 * n
  | 0, _, _, _, h => by cases h; rfl
  | n + 1, p, q, bytes, h => by
    simp only [matchBytes] at h
    split at h
    · cases h
    · split at h
      · cases h
      · next hrest =>
        cases h
        rw [matchBytes_end hrest]
        omega

/-- A pair that is no bit fails its byte, and so the bytes. -/
theorem matchBytes_of_bitAt_eq_none : ∀ {n i p : Nat}, i < 8 * n →
    bitAt T o.timings o.tol o.excess E (p + 2 * i) = none → matchBytes T o E n p = none
  | 0, _, _, hi, _ => by omega
  | n + 1, i, p, hi, hnone => by
    rw [matchBytes]
    by_cases hfirst : i < 8
    · rw [sext, matchData_of_bitAt_eq_none hfirst hnone]
    · have hrest : matchBytes T o E n (p + 16) = none :=
        matchBytes_of_bitAt_eq_none (i := i - 8) (by omega)
          (by rw [← hnone]; congr 1; omega)
      rw [hrest]
      split <;> rfl

end Bytes

/-! ## The positions and the parts of a section -/

/-- Where the header space is, if there is one. -/
def spaceAt (o : SectionOps) : Nat := o.offset.toNat + present o.hdrMark

/-- Where the bits are. -/
def dataAt (o : SectionOps) : Nat := spaceAt o + present o.hdrSpace

/-- Where the footer mark is, if there is one. -/
def footerAt (o : SectionOps) : Nat := dataAt o + 2 * o.nbits.toNat

/-- Where the gap is, if there is one and an entry for it. -/
def gapAt (o : SectionOps) : Nat := footerAt o + present o.footerMark

theorem gapAt_eq (o : SectionOps) : gapAt o = o.offset.toNat + requiredEntries o := by
  simp only [gapAt, footerAt, dataAt, spaceAt, requiredEntries]
  omega

/-- Where a section that is matched ends (R248). -/
def endAt (o : SectionOps) (E : List Nat) : Nat :=
  gapAt o + if o.gap ≠ 0 ∧ gapAt o < E.length then 1 else 0

/-- The view is long enough for the section, and each part but the bits matches where it must (R245, R248). -/
structure PartsMatch (T : Nat) (o : SectionOps) (E : List Nat) : Prop where
  room : requiredEntries o ≤ E.length - o.offset.toNat
  hdrMark : o.hdrMark ≠ 0 →
    matchesMark T (E.getD o.offset.toNat 0) o.hdrMark.toNat o.tol.toNat o.excess.toInt = true
  hdrSpace : o.hdrSpace ≠ 0 →
    matchesSpace T (E.getD (spaceAt o) 0) o.hdrSpace.toNat o.tol.toNat o.excess.toInt = true
  footer : o.footerMark ≠ 0 →
    matchesMark T (E.getD (footerAt o) 0) o.footerMark.toNat o.tol.toNat o.excess.toInt = true
  gap : o.gap ≠ 0 → gapAt o < E.length → o.isLast = 1 →
    matchesAtLeast T (E.getD (gapAt o) 0) o.gap.toNat o.tol.toNat o.excess.toInt = true

/-- The view is too short for the section, or a part or a bit of it does not match (R244, R245, R248). -/
def SectionMismatch (T : Nat) (o : SectionOps) (E : List Nat) : Prop :=
  E.length - o.offset.toNat < gapAt o - o.offset.toNat ∨
  (o.hdrMark ≠ 0 ∧ matchesMark T (E.getD o.offset.toNat 0) o.hdrMark.toNat o.tol.toNat o.excess.toInt = false) ∨
  (o.hdrSpace ≠ 0 ∧ matchesSpace T (E.getD (spaceAt o) 0) o.hdrSpace.toNat o.tol.toNat o.excess.toInt = false) ∨
  (∃ i, i < o.nbits.toNat ∧ bitAt T o.timings o.tol o.excess E (dataAt o + 2 * i) = none) ∨
  (o.footerMark ≠ 0 ∧ matchesMark T (E.getD (footerAt o) 0) o.footerMark.toNat o.tol.toNat o.excess.toInt = false) ∨
  (o.gap ≠ 0 ∧ gapAt o < E.length ∧ o.isLast = 1 ∧
    matchesAtLeast T (E.getD (gapAt o) 0) o.gap.toNat o.tol.toNat o.excess.toInt = false)

theorem PartsMatch.endAt_bounds {T : Nat} {o : SectionOps} {E : List Nat} (h : PartsMatch T o E) :
    requiredEntries o ≤ endAt o E - o.offset.toNat ∧ endAt o E - o.offset.toNat ≤ E.length - o.offset.toNat := by
  have hroom := h.room
  rw [endAt, gapAt_eq]
  split <;> omega

/-- One of the header, the bits and the footer is asked for (R250). -/
theorem one_le_requiredEntries {o : SectionOps}
    (h : o.hdrMark ≠ 0 ∨ o.hdrSpace ≠ 0 ∨ o.nbits ≠ 0 ∨ o.footerMark ≠ 0) : 1 ≤ requiredEntries o := by
  have present_eq_one {d : U32} (hd : d ≠ 0) : present d = 1 := if_neg hd
  have nbits_pos (hn : o.nbits ≠ 0) : o.nbits.toNat ≠ 0 := fun hz => hn (BitVec.eq_of_toNat_eq hz)
  rw [requiredEntries]
  rcases h with hmark | hspace | hbits | hfooter
  · have := present_eq_one hmark; omega
  · have := present_eq_one hspace; omega
  · have := nbits_pos hbits; omega
  · have := present_eq_one hfooter; omega

/-! ## A section is matched -/

/-- A data matcher that reads the section's bits: it ends after `nbits` pairs, and fails at a pair that is no
bit. -/
structure ReadsBits {α : Type} (T : Nat) (o : SectionOps) (E : List Nat) (data : Nat → Option (α × Nat)) : Prop where
  ends : ∀ {p q : Nat} {out : α}, data p = some (out, q) → q = p + 2 * o.nbits.toNat
  fails : ∀ {p i : Nat}, i < o.nbits.toNat → bitAt T o.timings o.tol o.excess E (p + 2 * i) = none → data p = none

section Section
variable {α : Type} {T consumed : Nat} {o : SectionOps} {E : List Nat} {data : Nat → Option (α × Nat)} {out : α}
  (hreads : ReadsBits T o E data)
include hreads

theorem matchSection_iff_partsMatch :
    matchSection T o E data = some (consumed, out) ↔
      PartsMatch T o E ∧ data (dataAt o) = some (out, footerAt o) ∧ consumed = endAt o E - o.offset.toNat := by
  rw [matchSection_eq_some_iff]
  constructor
  · rintro ⟨hroom, hmark, hspace, _, p, hdata, hfooter, hgap, hresult⟩
    obtain rfl : p = footerAt o := hreads.ends hdata
    obtain ⟨rfl, rfl⟩ := Prod.mk.inj hresult
    exact ⟨⟨hroom, hmark, hspace, hfooter, hgap⟩, hdata, rfl⟩
  · rintro ⟨⟨hroom, hmark, hspace, hfooter, hgap⟩, hdata, rfl⟩
    exact ⟨hroom, hmark, hspace, out, footerAt o, hdata, hfooter, hgap, rfl⟩

theorem matchSection_bounds (h : matchSection T o E data = some (consumed, out)) :
    requiredEntries o ≤ consumed ∧ consumed ≤ E.length - o.offset.toNat := by
  obtain ⟨hparts, -, rfl⟩ := (matchSection_iff_partsMatch hreads).1 h
  exact hparts.endAt_bounds

/-- Each reason contradicts what a match says of its part. -/
theorem matchSection_of_mismatch (h : SectionMismatch T o E) : matchSection T o E data = none := by
  refine Option.eq_none_iff_forall_ne_some.2 fun ⟨consumed, out⟩ hmatch => ?_
  obtain ⟨hparts, hdata, -⟩ := (matchSection_iff_partsMatch hreads).1 hmatch
  rcases h with
    hshort | ⟨hd, hmark⟩ | ⟨hd, hspace⟩ | ⟨i, hi, hbit⟩ | ⟨hd, hfooter⟩ | ⟨hd, hentry, hlast, hgap⟩
  · have hroom := hparts.room
    rw [gapAt_eq] at hshort
    omega
  · exact Bool.false_ne_true (hmark.symm.trans (hparts.hdrMark hd))
  · exact Bool.false_ne_true (hspace.symm.trans (hparts.hdrSpace hd))
  · exact Option.some_ne_none _ (hdata.symm.trans (hreads.fails hi hbit))
  · exact Bool.false_ne_true (hfooter.symm.trans (hparts.footer hd))
  · exact Bool.false_ne_true (hgap.symm.trans (hparts.gap hd hentry hlast))

end Section

/-! ## The two section matchers -/

section Matchers
variable {T consumed : Nat} {o : SectionOps} {E : List Nat}

theorem readsBits_bytes (h : o.nbits.toNat % 8 = 0) : ReadsBits T o E (matchBytes T o E (o.nbits.toNat / 8)) where
  ends hdata := (matchBytes_end hdata).trans (by omega)
  fails hi hnone := matchBytes_of_bitAt_eq_none (by omega) hnone

/-- The data matcher of MATCH_GENERIC_INT; `matchGenericInt_eq` ties it to the command's core. -/
def matchInt (T : Nat) (o : SectionOps) (E : List Nat) (p : Nat) : Option (U64 × Nat) :=
  (matchData T o.timings o.tol.toNat o.excess.toInt (isSet o.msbFirst) E p o.nbits.toNat).map
    fun v => (v, p + 2 * o.nbits.toNat)

theorem readsBits_int : ReadsBits T o E (matchInt T o E) where
  ends hdata := by
    obtain ⟨v, -, hv⟩ := Option.map_eq_some_iff.1 hdata
    exact (congrArg Prod.snd hv).symm
  fails hi hnone := by rw [matchInt, matchData_of_bitAt_eq_none hi hnone, Option.map_none]

theorem matchGeneric_of_whole_bytes (h : o.nbits.toNat % 8 = 0) :
    matchGeneric T o E = matchSection T o E (matchBytes T o E (o.nbits.toNat / 8)) :=
  if_neg (not_not_intro h)

theorem matchGeneric_of_partial_byte (h : o.nbits.toNat % 8 ≠ 0) : matchGeneric T o E = none := if_pos h

theorem matchGenericInt_eq : matchGenericInt T o E = matchSection T o E (matchInt T o E) := rfl

theorem matchGeneric_bounds {bytes : List Byte} (h : matchGeneric T o E = some (consumed, bytes)) :
    requiredEntries o ≤ consumed ∧ consumed ≤ E.length - o.offset.toNat := by
  by_cases hbytes : o.nbits.toNat % 8 = 0
  · exact matchSection_bounds (readsBits_bytes hbytes) (matchGeneric_of_whole_bytes hbytes ▸ h)
  · simp [matchGeneric_of_partial_byte hbytes] at h

theorem matchGenericInt_bounds {value : U64} (h : matchGenericInt T o E = some (consumed, value)) :
    requiredEntries o ≤ consumed ∧ consumed ≤ E.length - o.offset.toNat :=
  matchSection_bounds readsBits_int h

theorem matchGeneric_of_mismatch (h : o.nbits.toNat % 8 ≠ 0 ∨ SectionMismatch T o E) :
    matchGeneric T o E = none := by
  by_cases hbytes : o.nbits.toNat % 8 = 0
  · rw [matchGeneric_of_whole_bytes hbytes]
    exact matchSection_of_mismatch (readsBits_bytes hbytes) (h.resolve_left (not_not_intro hbytes))
  · exact matchGeneric_of_partial_byte hbytes

theorem matchGenericInt_of_mismatch (h : SectionMismatch T o E) : matchGenericInt T o E = none :=
  matchSection_of_mismatch readsBits_int h

section Matched
variable {bits : List Bool} (hparts : PartsMatch T o E) (hend : gapAt o ≤ E.length)
  (hcount : bits.length = o.nbits.toNat)
  (hbits : ∀ i (h : i < bits.length), bitAt T o.timings o.tol o.excess E (dataAt o + 2 * i) = some bits[i])
include hparts hend hcount hbits

theorem matchGeneric_of_bitAt (hbytes : o.nbits.toNat % 8 = 0) :
    matchGeneric T o E = some (endAt o E - o.offset.toNat,
      bytesOfBits (isSet o.msbFirst) (o.nbits.toNat / 8) bits) := by
  have hfooter : dataAt o + 16 * (o.nbits.toNat / 8) = footerAt o := by rw [footerAt]; omega
  have hlen : footerAt o ≤ E.length := (Nat.le_add_right _ _).trans hend
  rw [matchGeneric_of_whole_bytes hbytes, matchSection_iff_partsMatch (readsBits_bytes hbytes), ← hfooter]
  exact ⟨hparts, matchBytes_of_bitAt _ _ bits (by omega) (hfooter ▸ hlen) hbits, rfl⟩

theorem matchGenericInt_of_bitAt :
    matchGenericInt T o E = some (endAt o E - o.offset.toNat,
      BitVec.ofNat 64 (bitsValue (isSet o.msbFirst) bits)) := by
  have hlen : dataAt o + 2 * o.nbits.toNat ≤ E.length := (Nat.le_add_right _ _).trans hend
  have hdata : matchData T o.timings o.tol.toNat o.excess.toInt (isSet o.msbFirst) E (dataAt o) o.nbits.toNat = _ :=
    hcount ▸ matchData_of_bitAt (hcount.symm ▸ hlen) hbits
  refine (matchSection_iff_partsMatch readsBits_int).2 ⟨hparts, ?_, rfl⟩
  rw [matchInt, hdata, Option.map_some, footerAt]

end Matched

end Matchers

/-! ## The commands on a view -/

section Commands
variable {s : State} {o : SectionOps} {E : List Nat} (hview : ViewIs o.bank s E)
  (hlast : o.isLast = 0 ∨ o.isLast = 1) (hmsb : o.msbFirst = 0 ∨ o.msbFirst = 1)
include hview hlast hmsb

theorem section_wf : (Instr.matchGeneric o).wf s.params.numTimers = true ∧
    (Instr.matchGenericInt o).wf s.params.numTimers = true := by
  simp only [Instr.wf, legalBank_of_viewIs hview, legalFlag_iff.2 hlast, legalFlag_iff.2 hmsb, Bool.and_self,
    and_self]

theorem exec_matchGeneric_of_none (hmatch : matchGeneric s.params.tickUs o E = none) :
    exec (.matchGeneric o) s =
      .next (withResult (.matchedBytes 0 (Config.freeBytes s.draws)) (spendDraw s)) := by
  refine (accept_withView_of_viewIs (section_wf hview hlast hmsb).1 hview).trans ?_
  simp only [hmatch]
  rfl

theorem exec_matchGenericInt_of_match {consumed : Nat} {value : U64}
    (hmatch : matchGenericInt s.params.tickUs o E = some (consumed, value)) :
    exec (.matchGenericInt o) s = .next (withResult (.matchedInt (BitVec.ofNat 16 consumed) value) s) := by
  refine (accept_withView_of_viewIs (section_wf hview hlast hmsb).2 hview).trans ?_
  simp only [hmatch]
  rfl

theorem exec_matchGenericInt_of_none (hmatch : matchGenericInt s.params.tickUs o E = none) :
    exec (.matchGenericInt o) s =
      .next (withResult (.matchedInt 0 (Config.freeBits 64 s.draws)) (spendDraw s)) := by
  refine (accept_withView_of_viewIs (section_wf hview hlast hmsb).2 hview).trans ?_
  simp only [hmatch]
  rfl

end Commands

/-- Settles O55: the premises are `PartsMatch` and the bits; what is consumed fits a u16 because the view's length
does. -/
theorem sectionIsMatched : Obligations.SectionIsMatched := by
  intro s o E bits hview hmsb hlast hcount T p₁ p₂ p₃ p₄ p₅ hend hmark hspace hbits hfooter hgap
  have hroom : requiredEntries o ≤ E.length - o.offset.toNat := by
    have hgapAt : gapAt o ≤ E.length := hend
    rw [gapAt_eq] at hgapAt
    omega
  have hparts : PartsMatch T o E := ⟨hroom, hmark, hspace, hfooter, hgap⟩
  have hconsumed : p₅ - o.offset.toNat ≤ E.length - o.offset.toNat := hparts.endAt_bounds.2
  have hsmall := length_lt_of_viewIs hview
  refine ⟨_, ?_, fun hbytes => exec_matchGeneric_of_match hview hlast hmsb
    (matchGeneric_of_bitAt hparts hend hcount hbits hbytes),
    exec_matchGenericInt_of_match hview hlast hmsb (matchGenericInt_of_bitAt hparts hend hcount hbits)⟩
  exact (BitVec.toNat_ofNat _ _).trans (Nat.mod_eq_of_lt (lt_of_le_of_lt hconsumed (by omega)))

/-- Settles O56: a `SectionMismatch` fails both matchers, and a partial byte fails MATCH_GENERIC. -/
theorem sectionIsNotMatched : Obligations.SectionIsNotMatched := by
  intro s o E hview hmsb hlast T p₁ p₂ p₃ p₄ mismatch
  exact ⟨fun h => ⟨_, exec_matchGeneric_of_none hview hlast hmsb (matchGeneric_of_mismatch h)⟩,
    fun h => ⟨_, exec_matchGenericInt_of_none hview hlast hmsb (matchGenericInt_of_mismatch h)⟩⟩

/-- Settles O57: both matchers end the section between its required entries and the view's end. -/
theorem matchConsumesWithinTheView : Obligations.MatchConsumesWithinTheView := by
  intro T o E consumed hmatch
  have hbounds : requiredEntries o ≤ consumed ∧ consumed ≤ E.length - o.offset.toNat := by
    rcases hmatch with ⟨bytes, h⟩ | ⟨value, h⟩
    · exact matchGeneric_bounds h
    · exact matchGenericInt_bounds h
  exact ⟨hbounds.1, hbounds.2, fun hasked => (one_le_requiredEntries hasked).trans hbounds.1⟩

end Sys2Proof.Machine
end

section
/-! SUPPORT. The hash decoder (spec/46_decoder.md R253 to R257): the fold on integers, what DECODE_HASH answers on a
view, and what the hash depends on. -/

namespace Sys2Proof.Machine

/-! ## The fold -/

/-- One fold step on integers below 2^32 (R255); `toNat_foldHash` ties it to the model's. -/
def foldStep (fold : HashFold) (h v : Nat) : Nat :=
  match fold with
  | .xorThenMul => (h ^^^ v) * 16777619 % 2 ^ 32
  | .mulThenXor => (h * 16777619 % 2 ^ 32) ^^^ v

theorem toNat_foldHash (fold : HashFold) (h : U32) {v : Nat} (hv : v < 2 ^ 32) :
    (foldHash fold h v).toNat = foldStep fold h.toNat v := by
  have hword : (BitVec.ofNat 32 v).toNat = v := (BitVec.toNat_ofNat v 32).trans (Nat.mod_eq_of_lt hv)
  have hprime : Config.fnvPrime.toNat = 16777619 := rfl
  cases fold with
  | xorThenMul => rw [foldHash, foldStep, BitVec.toNat_mul, BitVec.toNat_xor, hword, hprime]
  | mulThenXor => rw [foldHash, foldStep, BitVec.toNat_xor, BitVec.toNat_mul, hword, hprime]

theorem toNat_foldl_foldHash (fold : HashFold) : ∀ (values : List Nat) (h : U32), (∀ v ∈ values, v < 2 ^ 32) →
    (values.foldl (foldHash fold) h).toNat = values.foldl (foldStep fold) h.toNat
  | [], _, _ => rfl
  | v :: values, h, hsmall => by
    rw [List.foldl_cons, List.foldl_cons, ← toNat_foldHash fold h (hsmall v List.mem_cons_self)]
    exact toNat_foldl_foldHash fold values _ fun w hw => hsmall w (List.mem_cons_of_mem v hw)

theorem compareTicks_le (old new : Nat) : compareTicks old new ≤ 2 := by
  rw [compareTicks]
  split
  · omega
  · split <;> omega

theorem compareSequence_lt (E : List Nat) : ∀ v ∈ compareSequence E, v < 2 ^ 32 := by
  intro v hv
  obtain ⟨k, -, rfl⟩ := List.mem_map.1 hv
  exact lt_of_le_of_lt (compareTicks_le _ _) (by decide)

/-! ## The command on a view -/

section Command
variable {s : State} {bank : Byte} {E : List Nat} (hview : ViewIs bank s E)
include hview

theorem exec_decodeHash_of_some {h : U32} {bits : U16} (hhash : hashCore s.params.hashFold E = some (h, bits)) :
    exec (.decodeHash bank) s = .next (withResult (.hash true h bits) s) := by
  refine (accept_withView_of_viewIs (i := .decodeHash bank) (legalBank_of_viewIs hview) hview).trans ?_
  simp only [hhash]
  rfl

theorem exec_decodeHash_of_none (hhash : hashCore s.params.hashFold E = none) :
    exec (.decodeHash bank) s = .next (withResult
      (.hash false (Config.freeBits 32 s.draws) (Config.freeBits 16 s.draws)) (spendDraw s)) := by
  refine (accept_withView_of_viewIs (i := .decodeHash bank) (legalBank_of_viewIs hview) hview).trans ?_
  simp only [hhash]
  rfl

end Command

/-- Settles O59: the hash is the fold of `compareSequence`, whose values a word holds uncut, so folding words is
folding integers. -/
theorem hashFoldsTheComparisons : Obligations.HashFoldsTheComparisons := by
  intro s bank E hview
  refine ⟨fun hlen => ⟨_, exec_decodeHash_of_some hview (hashCore_of_length_ge _ hlen), ?_⟩,
    fun hlen => ⟨_, _, exec_decodeHash_of_none hview (hashCore_of_length_lt _ hlen)⟩⟩
  exact toNat_foldl_foldHash s.params.hashFold _ _ (compareSequence_lt E)

/-! ## What the hash depends on -/

theorem hashCore_isSome_iff (fold : HashFold) (E : List Nat) : (hashCore fold E).isSome = true ↔ 6 ≤ E.length := by
  by_cases hlen : 6 ≤ E.length
  · simp [hashCore_of_length_ge fold hlen, hlen]
  · simp [hashCore_of_length_lt fold (Nat.not_le.1 hlen), hlen]

theorem hashCore_congr (fold : HashFold) {E E' : List Nat} (hlen : E'.length = E.length)
    (hcompare : compareSequence E' = compareSequence E) : hashCore fold E' = hashCore fold E := by
  rw [hashCore, hashCore, hlen, hcompare]

/-- The comparisons of R254 are of multiples, so a common factor cancels. -/
theorem compareTicks_scale {k : Nat} (hk : 1 ≤ k) (old new : Nat) :
    compareTicks (k * old) (k * new) = compareTicks old new := by
  have hcancel (a b : Nat) : 5 * (k * a) < 4 * (k * b) ↔ 5 * a < 4 * b := by
    rw [Nat.mul_left_comm 5, Nat.mul_left_comm 4, Nat.mul_lt_mul_left hk]
  simp only [compareTicks, hcancel]

theorem compareSequence_scale {k : Nat} (hk : 1 ≤ k) (E : List Nat) :
    compareSequence (E.map (k * ·)) = compareSequence E := by
  have hentry (i : Nat) : (E.map (k * ·)).getD i 0 = k * E.getD i 0 := List.getD_map (d := 0) E (k * ·)
  simp only [compareSequence, List.length_map, hentry, compareTicks_scale hk]

/-- Settles O60: scaling keeps the length and, by `compareSequence_scale`, the comparisons. -/
theorem hashIgnoresScale : Obligations.HashIgnoresScale :=
  fun fold E => ⟨hashCore_isSome_iff fold E, fun _ hlen hcompare => hashCore_congr fold hlen hcompare,
    fun _ hk => hashCore_congr fold (List.length_map _) (compareSequence_scale hk E)⟩

end Sys2Proof.Machine
end

section
/-! SUPPORT. The stop records (spec/10_state.md R51, R52, 60_exceptions.md R270 to R277): which command or handler
writes FAULT or REFUSED, that nothing else changes then, and that every one of them answers a next state. -/

namespace Sys2Proof.Machine

/-! ## Who writes a stop record -/

/-- No register effect is a stop record's: those are written by a refusal or a fault alone. -/
theorem RegisterEffect.keeps_records {i : Instr} {s u : State} (he : RegisterEffect i s u) :
    u.fault = s.fault ∧ u.refused = s.refused := by
  cases he <;> exact ⟨rfl, rfl⟩

/-- What completes sets no stop record. -/
theorem Completion.keeps_records {i : Instr} {s t : State} (h : Completion i s t) :
    t.fault = s.fault ∧ t.refused = s.refused := by
  cases i with
  | rxEnable | rxDisable | resume | rxStatus | space | ledOff =>
    obtain rfl : t = _ := h
    exact ⟨rfl, rfl⟩
  | timerReset | enableIrOut | mark =>
    obtain ⟨-, rfl⟩ := h
    exact ⟨rfl, rfl⟩
  | decode => rcases h with ⟨-, -, _, rfl⟩ | ⟨_, rfl⟩ <;> exact ⟨rfl, rfl⟩
  | sendData => rcases h with rfl | ⟨-, _, rfl⟩ <;> exact ⟨rfl, rfl⟩
  | sendGeneric =>
    obtain ⟨-, _, rfl⟩ := h
    exact ⟨rfl, rfl⟩
  | timerElapsed | matchTicks | matchMark | matchSpace | matchAtLeast =>
    obtain ⟨_, rfl⟩ := h
    exact ⟨rfl, rfl⟩
  | ticksLow | ticksHigh | matchData | matchGeneric | matchGenericInt | decodeHash =>
    obtain ⟨_, rfl | rfl⟩ := h <;> exact ⟨rfl, rfl⟩
  | evEdge =>
    rcases h with ⟨-, rfl⟩ | ⟨hrx, rfl⟩
    · exact ⟨rfl, rfl⟩
    · exact (edgeHandler_effect hrx).keeps_records
  | evTimeout =>
    rcases h with ⟨-, rfl⟩ | ⟨hdue, rfl⟩
    · exact ⟨rfl, rfl⟩
    · exact (timeoutHandler_effect hdue).keeps_records

/-- Only a fault writes FAULT. -/
theorem faultsWith_of_writes_fault {i : Instr} {s t : State} (h : exec i s = .next t)
    (hwrites : t.fault ≠ s.fault) : FaultsWith i s t := by
  rcases exec_cases h with ⟨position, -, rfl⟩ | hfaults | ⟨-, hdone⟩
  · exact absurd (refuse_fault _ _ _) hwrites
  · exact hfaults
  · exact absurd hdone.keeps_records.1 hwrites

/-- Only a refusal writes REFUSED. -/
theorem refusedFor_of_writes_refused {i : Instr} {s t : State} (h : exec i s = .next t)
    (hwrites : t.refused ≠ s.refused) : RefusedFor i s t := by
  rcases exec_cases h with hrefused | ⟨kind, info, -, -, rfl⟩ | ⟨-, hdone⟩
  · exact hrefused
  · exact absurd (raiseFault_refused _ _ _) hwrites
  · exact absurd hdone.keeps_records.2 hwrites

/-- Settles O8: what writes FAULT is `raiseFault`, which writes nothing else; a set FAULT then stops the machine
as in O10. -/
theorem faultsArePrecise : Obligations.FaultsArePrecise := by
  intro i s t r hs h hr
  obtain ⟨kind, info, -, -, rfl⟩ := faultsWith_of_writes_fault h (by simp [hs, hr])
  obtain rfl := Option.some.inj hr
  exact ⟨rfl, (onlyPowerOnLeavesAStop _).1 _ rfl⟩

/-- Settles O9: what writes REFUSED is `refuse .badOperand`, on an illegal operand only. -/
theorem refusalsArePrecise : Obligations.RefusalsArePrecise := by
  intro i s t r hs h hr
  obtain ⟨position, hwf, rfl⟩ := refusedFor_of_writes_refused h (by simp [hs, hr])
  obtain rfl := Option.some.inj hr
  exact ⟨rfl, rfl, hwf⟩

/-! ## Legal stop records -/

/-- The codes of R270, without UnwrittenRead (6). -/
theorem FaultKind.code_bounds {kind : FaultKind} (h : kind ≠ .unwrittenRead) :
    1 ≤ kind.code.toNat ∧ kind.code.toNat ≤ 5 := by
  cases kind with
  | unwrittenRead => exact absurd rfl h
  | _ => decide

theorem RefusalKind.code_bounds (kind : RefusalKind) : 0x81 ≤ kind.code.toNat ∧ kind.code.toNat ≤ 0x83 := by
  cases kind <;> decide

theorem recordInv_of_running {s : State} (h : s.Running) : RecordInv s where
  fault_code r hr := by simp [h.1] at hr
  refusal_code r hr := by simp [h.2] at hr
  one_record := .inl h.1

theorem recordInv_raiseFault {s : State} (h : s.Running) {kind : FaultKind} (hkind : kind ≠ .unwrittenRead)
    (info : Nat) : RecordInv (raiseFault kind info s) where
  fault_code _ hr := by
    obtain rfl := Option.some.inj hr
    exact FaultKind.code_bounds hkind
  refusal_code := (recordInv_of_running h).refusal_code
  one_record := .inr h.2

theorem recordInv_refuse {s : State} (h : s.Running) (kind : RefusalKind) (info : Nat) :
    RecordInv (refuse kind info s) where
  fault_code := (recordInv_of_running h).fault_code
  refusal_code _ hr := by
    obtain rfl := Option.some.inj hr
    exact kind.code_bounds
  one_record := .inl h.1

theorem exec_recordInv {i : Instr} {s t : State} (hrun : s.Running) (h : exec i s = .next t) : RecordInv t := by
  rcases exec_cases h with ⟨position, -, rfl⟩ | ⟨kind, info, hkind, -, rfl⟩ | ⟨-, hdone⟩
  · exact recordInv_refuse hrun _ _
  · exact recordInv_raiseFault hrun hkind _
  · obtain ⟨hfault, hrefused⟩ := hdone.keeps_records
    exact recordInv_of_running ⟨hfault.trans hrun.1, hrefused.trans hrun.2⟩

/-- Every step that is taken leads to legal records, whatever they were before: a power-on clears them, and any
other step is of a running machine and sets at most one. -/
theorem step_recordInv {s t : State} (h : step s = .next t) : RecordInv t := by
  rcases step_cases h with ⟨dt, rest, -, rfl⟩ | ⟨hfault, hrefused, hrun⟩
  · exact recordInv_of_running ⟨rfl, rfl⟩
  · rcases hrun with ⟨dt, packet, rest, kind, info, -, -, rfl⟩ | ⟨-, -, rfl⟩ | ⟨i, rest, tau, -, hexec, -⟩
    · exact recordInv_refuse (s := { s with schedule := rest, tau := _ }) ⟨hfault, hrefused⟩ kind info
    · exact recordInv_of_running ⟨hfault, hrefused⟩
    · exact exec_recordInv (s := { s with schedule := rest, tau := tau }) ⟨hfault, hrefused⟩ hexec

/-- Settles O33: from `step_recordInv`, which does not need the records to be legal before. -/
theorem stepKeepsRecordsLegal : Obligations.StepKeepsRecordsLegal := fun _ _ _ => step_recordInv

/-! ## Every command and handler answers -/

/-- The outcome is a next state. -/
def Answers (o : Outcome) : Prop := ∃ t, o = .next t

theorem answers_next (t : State) : Answers (.next t) := ⟨t, rfl⟩

theorem answers_respond (r : Result) (s : State) : Answers (respond r s) := answers_next _

theorem answers_respondTicks (v : Int) (s : State) : Answers (respondTicks v s) := by
  rcases respondTicks_cases v s with ⟨-, -, hv, -⟩ | ⟨-, hv⟩ <;> exact hv ▸ answers_respond _ _

theorem Answers.ite {c : Prop} [Decidable c] {a b : Outcome} (ha : Answers a) (hb : Answers b) :
    Answers (if c then a else b) := by
  split
  · exact ha
  · exact hb

/-- A command whose effect answers does so when it is refused too. -/
theorem Answers.accept {body : Outcome} (h : Answers body) (i : Instr) (s : State) :
    Answers (accept i s body) := by
  cases hw : i.wf s.params.numTimers with
  | true => rwa [accept_of_wf i s body hw]
  | false =>
    obtain ⟨position, -, hrefused⟩ := accept_of_not_wf i s body hw
    exact ⟨_, hrefused⟩

/-- A matching command that answers on every view does so when the view faults too. -/
theorem answers_withView {bank : Byte} {s : State} {body : List Nat → Outcome} (h : ∀ E, Answers (body E)) :
    Answers (withView bank s body) := by
  unfold withView
  split
  · exact answers_next _
  · exact h _

/-- Every command accepts its operands first, so that its effect decides whether it answers. -/
theorem Answers.command {i : Instr} {s : State} {body : Outcome} (hbody : Answers body)
    (haccept : exec i s = Machine.accept i s body) : Answers (exec i s) :=
  haccept ▸ hbody.accept i s

theorem exec_answers (i : Instr) (s : State) : Answers (exec i s) := by
  cases i with
  | rxEnable | rxDisable | resume | rxStatus | timerReset | space | ledOff | matchTicks | matchMark | matchSpace
  | matchAtLeast => exact (answers_respond _ _).command rfl
  | decode => exact (((answers_respond _ _).ite (answers_respond _ _)).ite (answers_respond _ _)).command rfl
  | timerElapsed | mark => exact ((answers_respond _ _).ite (answers_next _)).command rfl
  | enableIrOut | sendGeneric => exact ((answers_next _).ite (answers_respond _ _)).command rfl
  | sendData => exact ((answers_respond _ _).ite ((answers_respond _ _).ite (answers_next _))).command rfl
  | ticksLow | ticksHigh => exact (answers_respondTicks _ _).command rfl
  | matchData | matchGeneric | matchGenericInt | decodeHash =>
    refine (answers_withView fun E => ?_).command rfl
    split <;> exact answers_respond _ _
  | evEdge | evTimeout => exact (answers_next _).ite (answers_next _)

/-- Settles O11: an illegal operand and a fault are next states too, so every branch of every meaning answers. -/
theorem everyInstructionAnswersANextState : Obligations.EveryInstructionAnswersANextState := exec_answers

end Sys2Proof.Machine
end

section
/-! SUPPORT. A capture with nothing more to come (spec/70_reset_and_hazards.md R318, 44_capture.md R188). -/

namespace Sys2Proof.Machine

theorem step_idle_armed {s : State} (hrun : s.Running) (hs : s.schedule = []) (harmed : s.toArmed = true) :
    step s = exec .evTimeout { s with tau := max s.tau s.toDeadline } :=
  step_of_run ((nextAction_idle hrun hs).trans (idleAction_armed harmed))

/-- Settles O23: the step runs EV_TIMEOUT at the later of tau and the deadline, where it is due, and the entries
captured make it enter STOP. -/
theorem abandonedCaptureReachesStop : Obligations.AbandonedCaptureReachesStop := by
  intro s hrun hs harmed hsome
  let due : State := { s with tau := max s.tau s.toDeadline }
  have hreached : due.toDeadline ≤ due.tau := le_max_right _ _
  have hstops : step s = .next { due with toArmed := false, rcvState := .stop } :=
    (step_idle_armed hrun hs harmed).trans (exec_evTimeout_stops (s := due) harmed hreached hsome)
  exact ⟨_, hstops, rfl, rfl, hreached, le_max_left _ _⟩

end Sys2Proof.Machine
end
